-- ==== Sys2Proof/Word.lean ====
section
/-! DEFINITION. The word types of the CORE (00_scope.md R7, R10) and the register names an operand byte selects (30_encoding.md R96). -/

namespace Sys2Proof

/-- One byte of memory, the unit of every Bus access (00 R7). -/
abbrev Byte := BitVec 8

/-- The 16-bit data word of A, X, Y, R0 to R7 and SP (00 R7, 10 R20). -/
abbrev Word := BitVec 16

/-- A 24-bit address; its arithmetic wraps modulo 2^24 (20 R51). -/
abbrev Addr := BitVec 24

/-- The registers an operand byte can name (30 R96): R0 to R7, A, X, Y and SP. PC cannot be named. -/
inductive Reg where
  | r (k : Fin 8)
  | a
  | x
  | y
  | sp
  deriving DecidableEq, Repr

end Sys2Proof
end

