-- ==== Sys2Proof/Config.lean ====
section
/-! DEFINITION. What an implementation of the CORE fixes and the spec leaves open (00_scope.md R8): the free values, as constants without a body; the types of RESET_REGS and OPCODE_MAP, the two parameters a machine is given at construction; and the register contents the fixed reset state uses. A machine carries its OPCODE_MAP and its IO_HANDLERS in State (log 4, log 7). -/

namespace Sys2Proof

/-- One name per row of the opcode map (30 R91). -/
inductive Op where
  | ldaImm | ldaAbs | staAbs | ldxImm | ldxAbs | stxAbs | ldyImm | ldyAbs | styAbs
  | addImm | subImm | andImm | orImm | xorImm
  | jmp | jsr | rts
  | bra | beq | bne | bcs | bcc | bmi | bpl | bvs | bvc
  | sei | cli | rti | wfi
  | mul | div | mov | inc | dec | bit | bset | bclr
  | nop | cop | hlt
  deriving DecidableEq, Repr

/-- OPCODE_MAP (00 R8, log 7): the opcode byte of each row, in the order of the rows. Decode.lean reads it by name, says which maps are admitted and gives the spec's default. -/
abbrev OpcodeMap := Vector Byte 41

/-- FREE VALUE (log 2). The base cost of each row of the opcode table is this number plus one (70 R278: CYCLES_BASE, a natural number of at least 1; Machine/Timing.lean adds the one). -/
opaque Config.cyclesBaseLessOne : Op → Nat

/-- FREE VALUE (log 3). Where the cost of DIV lies inside 2..12 for a dividend and a divisor (70 R279: DIV_CYCLES; Machine/Timing.lean keeps the range). -/
opaque Config.divCyclesDraw : Word → Word → Nat

/-- FREE VALUE (log 5). The byte an I/O handler answers at the n-th handler read since construction (20 R58: "a byte chosen by an external oracle, as a draw"). -/
opaque Config.ioReadByte : Nat → Byte

/-- The registers whose reset value the spec leaves open (10 R20, 70 R270: RESET_REGS). -/
structure ResetRegs where
  a : Word
  x : Word
  y : Word
  r : Vector Word 8
  deriving DecidableEq, Repr

/-- DESIGN CHOICE (log 1, unsafe): the RESET_REGS of the fixed `State.reset`. The spec gives none; the host's `reset()` in the model (`hostReset`) takes RESET_REGS as an argument, so that no claim about reset needs these zeros. -/
def Config.resetRegs : ResetRegs := { a := 0, x := 0, y := 0, r := Vector.replicate 8 0 }

end Sys2Proof
end

