-- ==== Sys2Proof/Syntax.lean ====
section
/-! DEFINITION. The instructions of the CORE, one constructor per row of spec/opcode_table.json (30_encoding.md R91), with the operands of 30 R93 and R94 already assembled. -/

namespace Sys2Proof

/-- One constructor per row of the opcode table. An `imm` is imm16, an `addr` is addr24; `off` is the signed displacement of REL8 (30 R94, -128 to 127 when well formed); `b` is the bit index of RB (0 to 15 when well formed); registers are named, so a reserved register id is no instruction (30 R98, log 15). -/
inductive Instr where
  -- 40_load_store.md
  | ldaImm (imm : Word)
  | ldaAbs (addr : Addr)
  | staAbs (addr : Addr)
  | ldxImm (imm : Word)
  | ldxAbs (addr : Addr)
  | stxAbs (addr : Addr)
  | ldyImm (imm : Word)
  | ldyAbs (addr : Addr)
  | styAbs (addr : Addr)
  -- 41_arith_logic.md
  | addImm (imm : Word)
  | subImm (imm : Word)
  | andImm (imm : Word)
  | orImm (imm : Word)
  | xorImm (imm : Word)
  -- 42_register_ops.md
  | mul (r : Reg)
  | div (r : Reg)
  | mov (d src : Reg)
  | inc (r : Reg)
  | dec (r : Reg)
  | bit (r : Reg) (b : Nat)
  | bset (r : Reg) (b : Nat)
  | bclr (r : Reg) (b : Nat)
  -- 43_control_flow.md
  | jmp (addr : Addr)
  | jsr (addr : Addr)
  | rts
  | bra (off : Int)
  | beq (off : Int)
  | bne (off : Int)
  | bcs (off : Int)
  | bcc (off : Int)
  | bmi (off : Int)
  | bpl (off : Int)
  | bvs (off : Int)
  | bvc (off : Int)
  -- 44_system.md
  | nop
  | sei
  | cli
  | rti
  | wfi
  | cop
  | hlt
  deriving DecidableEq, Repr

end Sys2Proof
end

