-- ==== Sys2Proof/WellFormed.lean ====
section
/-! DEFINITION. When an instruction has an encoding (30_encoding.md R93, R94, R101): a displacement fits the signed byte of REL8, a bit index the four bits of RB. Every other operand type holds encodable values only. -/

namespace Sys2Proof

/-- REL8: "a signed displacement in -128..+127" (30 R94). -/
def offsetOk (off : Int) : Bool := decide (-128 ≤ off) && decide (off ≤ 127)

/-- RB: "bit index 0..15" (30 R93). -/
def bitIndexOk (b : Nat) : Bool := decide (b < 16)

def Instr.wellFormed : Instr → Bool
  | .ldaImm _ => true
  | .ldaAbs _ => true
  | .staAbs _ => true
  | .ldxImm _ => true
  | .ldxAbs _ => true
  | .stxAbs _ => true
  | .ldyImm _ => true
  | .ldyAbs _ => true
  | .styAbs _ => true
  | .addImm _ => true
  | .subImm _ => true
  | .andImm _ => true
  | .orImm _ => true
  | .xorImm _ => true
  | .mul _ => true
  | .div _ => true
  | .mov _ _ => true
  | .inc _ => true
  | .dec _ => true
  | .bit _ b => bitIndexOk b
  | .bset _ b => bitIndexOk b
  | .bclr _ b => bitIndexOk b
  | .jmp _ => true
  | .jsr _ => true
  | .rts => true
  | .bra off => offsetOk off
  | .beq off => offsetOk off
  | .bne off => offsetOk off
  | .bcs off => offsetOk off
  | .bcc off => offsetOk off
  | .bmi off => offsetOk off
  | .bpl off => offsetOk off
  | .bvs off => offsetOk off
  | .bvc off => offsetOk off
  | .nop => true
  | .sei => true
  | .cli => true
  | .rti => true
  | .wfi => true
  | .cop => true
  | .hlt => true

end Sys2Proof
end

