-- ==== Sys2Proof/Decode.lean ====
section
/-! DEFINITION. The opcode map, the decoder and the encoder (30_encoding.md), all three for any OPCODE_MAP (00 R8), with the spec's default map as the one the opcode table's words are numbered by. Decoding is total on any bytes and rejects by name; the encoder is written from the same tables. -/

namespace Sys2Proof

/-- Byte k of a value, byte 0 the least significant (00 R10: `v[8k+7:8k]`). -/
def byteOf {n : Nat} (k : Nat) (v : BitVec n) : Byte := v.extractLsb' (8 * k) 8

/-- `hi ++ lo` (00 R12). -/
def wordOfBytes (hi lo : Byte) : Word := hi ++ lo

/-- `b2 ++ b1 ++ b0` (00 R12). -/
def addrOfBytes (b2 b1 b0 : Byte) : Addr := b2 ++ b1 ++ b0

/-! ## Formats and the opcode map -/

/-- The seven formats (30 R93). -/
inductive Format where
  | imp
  | imm16
  | abs24
  | rel8
  | r1
  | r2
  | rb
  deriving DecidableEq, Repr

/-- Every row of the map. -/
def Op.all : List Op :=
  [.ldaImm, .ldaAbs, .staAbs, .ldxImm, .ldxAbs, .stxAbs, .ldyImm, .ldyAbs, .styAbs] ++
  [.addImm, .subImm, .andImm, .orImm, .xorImm] ++
  [.jmp, .jsr, .rts] ++
  [.bra, .beq, .bne, .bcs, .bcc, .bmi, .bpl, .bvs, .bvc] ++
  [.sei, .cli, .rti, .wfi] ++
  [.mul, .div, .mov, .inc, .dec, .bit, .bset, .bclr] ++
  [.nop, .cop, .hlt]

/-- The place of a row in an OPCODE_MAP. -/
def Op.index (o : Op) : Fin 41 := ⟨o.ctorIdx, by cases o <;> decide⟩

/-- `opcode(o)`: the byte a map gives a row (00 R8, 60 R230). -/
def OpcodeMap.byte (m : OpcodeMap) (o : Op) : Byte := m[o.index]

/-- The maps a machine can be given (00 R8, 30 R92, log 7): no byte stands for two rows, and the two bytes the source fixes are 0x01 for LDA #imm16 and 0xFF for HLT. -/
def OpcodeMap.ok (m : OpcodeMap) : Bool :=
  decide (Op.all.map m.byte).Nodup && (m.byte .ldaImm == 0x01) && (m.byte .hlt == 0xFF)

/-- The byte column of 30 R91, the spec's default assignment. Only 0x01 and 0xFF are the source's. -/
def opcodeByte : Op → Byte
  | .nop => 0x00
  | .ldaImm => 0x01
  | .ldaAbs => 0x02
  | .staAbs => 0x03
  | .ldxImm => 0x04
  | .ldxAbs => 0x05
  | .stxAbs => 0x06
  | .ldyImm => 0x07
  | .ldyAbs => 0x08
  | .styAbs => 0x09
  | .addImm => 0x10
  | .subImm => 0x11
  | .andImm => 0x12
  | .orImm => 0x13
  | .xorImm => 0x14
  | .jmp => 0x20
  | .jsr => 0x21
  | .rts => 0x22
  | .bra => 0x30
  | .beq => 0x31
  | .bne => 0x32
  | .bcs => 0x33
  | .bcc => 0x34
  | .bmi => 0x35
  | .bpl => 0x36
  | .bvs => 0x37
  | .bvc => 0x38
  | .sei => 0x40
  | .cli => 0x41
  | .rti => 0x42
  | .wfi => 0x43
  | .mul => 0x50
  | .div => 0x51
  | .mov => 0x52
  | .inc => 0x53
  | .dec => 0x54
  | .bit => 0x55
  | .bset => 0x56
  | .bclr => 0x57
  | .cop => 0x60
  | .hlt => 0xFF

/-- The default OPCODE_MAP (00 R8, 30 R91, 92 D1). -/
def defaultMap : OpcodeMap := ⟨(Op.all.map opcodeByte).toArray, rfl⟩

/-- The format column of 30 R91. -/
def Op.format : Op → Format
  | .ldaImm | .ldxImm | .ldyImm => .imm16
  | .ldaAbs | .staAbs | .ldxAbs | .stxAbs | .ldyAbs | .styAbs => .abs24
  | .addImm | .subImm | .andImm | .orImm | .xorImm => .imm16
  | .jmp | .jsr => .abs24
  | .bra | .beq | .bne | .bcs | .bcc | .bmi | .bpl | .bvs | .bvc => .rel8
  | .mul | .div | .inc | .dec => .r1
  | .mov => .r2
  | .bit | .bset | .bclr => .rb
  | .rts | .sei | .cli | .rti | .wfi | .nop | .cop | .hlt => .imp

/-- The length column of 30 R93, the opcode byte included. -/
def Format.length : Format → Nat
  | .imp => 1
  | .imm16 => 3
  | .abs24 => 4
  | .rel8 => 2
  | .r1 => 2
  | .r2 => 2
  | .rb => 2

/-- How many bytes follow the opcode byte. -/
def Op.operandBytes (o : Op) : Nat := o.format.length - 1

/-- `DECODE(op)` of 30 R92 and R100 under a map: the row an opcode byte selects, none if it is unassigned (30 R97). -/
def opOfByte (m : OpcodeMap) (b : Byte) : Option Op := Op.all.find? (fun o => m.byte o == b)

/-! ## Register ids -/

/-- The 4-bit id of a register (30 R96). -/
def regId : Reg → BitVec 4
  | .r k => BitVec.ofNat 4 k.val
  | .a => 8
  | .x => 9
  | .y => 10
  | .sp => 11

/-- The register a 4-bit id selects; 12 to 15 are reserved (30 R96). -/
def regOfId (id : BitVec 4) : Option Reg :=
  if h : id.toNat < 8 then some (.r ⟨id.toNat, h⟩)
  else if id = 8 then some .a
  else if id = 9 then some .x
  else if id = 10 then some .y
  else if id = 11 then some .sp
  else none

/-! ## Operand bytes -/

/-- Operand byte k, counted from the byte after the opcode (b1 of 30 R93 is k = 0). -/
def operandByte (bs : List Byte) (k : Nat) : Byte := bs.getD k 0

/-- IMM16: `imm16 = b2 ++ b1` (30 R94). -/
def imm16Of (bs : List Byte) : Word := wordOfBytes (operandByte bs 1) (operandByte bs 0)

/-- ABS24: `addr24 = b3 ++ b2 ++ b1` (30 R94). -/
def abs24Of (bs : List Byte) : Addr := addrOfBytes (operandByte bs 2) (operandByte bs 1) (operandByte bs 0)

/-- REL8: the signed value of b1, -128 to 127 (30 R94). -/
def rel8Of (bs : List Byte) : Int := (operandByte bs 0).toInt

/-- b1[7:4]. -/
def highNibble (b : Byte) : BitVec 4 := b.extractLsb' 4 4

/-- b1[3:0]. -/
def lowNibble (b : Byte) : BitVec 4 := b.extractLsb' 0 4

/-- R1: the register of b1[7:4]; reserved when b1[3:0] is not 0000 or the id is reserved (30 R98). -/
def r1Of (bs : List Byte) : Option Reg :=
  if lowNibble (operandByte bs 0) = 0 then regOfId (highNibble (operandByte bs 0)) else none

/-- R2: destination b1[7:4] and source b1[3:0]; reserved when either id is (30 R98). -/
def r2Of (bs : List Byte) : Option (Reg × Reg) :=
  match regOfId (highNibble (operandByte bs 0)), regOfId (lowNibble (operandByte bs 0)) with
  | some d, some src => some (d, src)
  | _, _ => none

/-- RB: the register of b1[7:4] and the bit index b1[3:0]; reserved when the id is (30 R98). -/
def rbOf (bs : List Byte) : Option (Reg × Nat) :=
  (regOfId (highNibble (operandByte bs 0))).map (fun r => (r, (lowNibble (operandByte bs 0)).toNat))

/-- The instruction a row and its operand bytes stand for; none when the operand byte is reserved (30 R94, R98). -/
def decodeOperands (o : Op) (bs : List Byte) : Option Instr :=
  match o with
  | .ldaImm => some (.ldaImm (imm16Of bs))
  | .ldaAbs => some (.ldaAbs (abs24Of bs))
  | .staAbs => some (.staAbs (abs24Of bs))
  | .ldxImm => some (.ldxImm (imm16Of bs))
  | .ldxAbs => some (.ldxAbs (abs24Of bs))
  | .stxAbs => some (.stxAbs (abs24Of bs))
  | .ldyImm => some (.ldyImm (imm16Of bs))
  | .ldyAbs => some (.ldyAbs (abs24Of bs))
  | .styAbs => some (.styAbs (abs24Of bs))
  | .addImm => some (.addImm (imm16Of bs))
  | .subImm => some (.subImm (imm16Of bs))
  | .andImm => some (.andImm (imm16Of bs))
  | .orImm => some (.orImm (imm16Of bs))
  | .xorImm => some (.xorImm (imm16Of bs))
  | .jmp => some (.jmp (abs24Of bs))
  | .jsr => some (.jsr (abs24Of bs))
  | .rts => some .rts
  | .bra => some (.bra (rel8Of bs))
  | .beq => some (.beq (rel8Of bs))
  | .bne => some (.bne (rel8Of bs))
  | .bcs => some (.bcs (rel8Of bs))
  | .bcc => some (.bcc (rel8Of bs))
  | .bmi => some (.bmi (rel8Of bs))
  | .bpl => some (.bpl (rel8Of bs))
  | .bvs => some (.bvs (rel8Of bs))
  | .bvc => some (.bvc (rel8Of bs))
  | .sei => some .sei
  | .cli => some .cli
  | .rti => some .rti
  | .wfi => some .wfi
  | .mul => (r1Of bs).map .mul
  | .div => (r1Of bs).map .div
  | .mov => (r2Of bs).map (fun p => .mov p.1 p.2)
  | .inc => (r1Of bs).map .inc
  | .dec => (r1Of bs).map .dec
  | .bit => (rbOf bs).map (fun p => .bit p.1 p.2)
  | .bset => (rbOf bs).map (fun p => .bset p.1 p.2)
  | .bclr => (rbOf bs).map (fun p => .bclr p.1 p.2)
  | .nop => some .nop
  | .cop => some .cop
  | .hlt => some .hlt

/-! ## Decoding a list of bytes -/

/-- Why bytes are no instruction: the two faults of 60 R241, and a list that ends inside an instruction (which memory never does: a fetch wraps, 30 R100). -/
inductive DecodeError where
  | unknownOpcode
  | reservedOperand
  | truncated
  deriving DecidableEq, Repr

/-- The instruction at the head of a list of bytes under a map, and the bytes after it (30 R90 to R100). -/
def decodeBy (m : OpcodeMap) : List Byte → Except DecodeError (Instr × List Byte)
  | [] => .error .truncated
  | b :: bs =>
    match opOfByte m b with
    | none => .error .unknownOpcode
    | some o =>
      if bs.length < o.operandBytes then .error .truncated
      else
        match decodeOperands o (bs.take o.operandBytes) with
        | none => .error .reservedOperand
        | some i => .ok (i, bs.drop o.operandBytes)

/-- Decoding under the default map. -/
def decode (bs : List Byte) : Except DecodeError (Instr × List Byte) := decodeBy defaultMap bs

/-- The bytes of the opcode table's word: bit 0 is the least significant bit of the first byte, and every bit above nbits is 0. Four bytes, the length of the longest instruction (30 R90). -/
def bytesOfTableWord (nbits w : Nat) : List Byte :=
  let v : BitVec 32 := BitVec.ofNat 32 (w % 2 ^ nbits)
  [byteOf 0 v, byteOf 1 v, byteOf 2 v, byteOf 3 v]

/-- What the decoder reads from the opcode table's word, which is numbered by the default map (none where it rejects it). -/
def decodeTableWord (nbits w : Nat) : Option Instr :=
  match decode (bytesOfTableWord nbits w) with
  | .ok (i, _) => some i
  | .error _ => none

/-! ## Encoding -/

/-- The row of an instruction. -/
def Instr.op : Instr → Op
  | .ldaImm _ => .ldaImm
  | .ldaAbs _ => .ldaAbs
  | .staAbs _ => .staAbs
  | .ldxImm _ => .ldxImm
  | .ldxAbs _ => .ldxAbs
  | .stxAbs _ => .stxAbs
  | .ldyImm _ => .ldyImm
  | .ldyAbs _ => .ldyAbs
  | .styAbs _ => .styAbs
  | .addImm _ => .addImm
  | .subImm _ => .subImm
  | .andImm _ => .andImm
  | .orImm _ => .orImm
  | .xorImm _ => .xorImm
  | .mul _ => .mul
  | .div _ => .div
  | .mov _ _ => .mov
  | .inc _ => .inc
  | .dec _ => .dec
  | .bit _ _ => .bit
  | .bset _ _ => .bset
  | .bclr _ _ => .bclr
  | .jmp _ => .jmp
  | .jsr _ => .jsr
  | .rts => .rts
  | .bra _ => .bra
  | .beq _ => .beq
  | .bne _ => .bne
  | .bcs _ => .bcs
  | .bcc _ => .bcc
  | .bmi _ => .bmi
  | .bpl _ => .bpl
  | .bvs _ => .bvs
  | .bvc _ => .bvc
  | .nop => .nop
  | .sei => .sei
  | .cli => .cli
  | .rti => .rti
  | .wfi => .wfi
  | .cop => .cop
  | .hlt => .hlt

/-- IMM16: low byte, high byte (30 R93). -/
def imm16Bytes (v : Word) : List Byte := [byteOf 0 v, byteOf 1 v]

/-- ABS24: low, middle, high byte (30 R93). -/
def abs24Bytes (v : Addr) : List Byte := [byteOf 0 v, byteOf 1 v, byteOf 2 v]

/-- REL8: the two's complement of the displacement (30 R93). -/
def rel8Bytes (off : Int) : List Byte := [BitVec.ofInt 8 off]

/-- R1: `rrrr 0000` (30 R93). -/
def r1Bytes (r : Reg) : List Byte := [regId r ++ (0 : BitVec 4)]

/-- R2: `dddd ssss` (30 R93). -/
def r2Bytes (d src : Reg) : List Byte := [regId d ++ regId src]

/-- RB: `rrrr bbbb` (30 R93). -/
def rbBytes (r : Reg) (b : Nat) : List Byte := [regId r ++ BitVec.ofNat 4 b]

/-- The bytes after the opcode byte. -/
def operandBytesOf : Instr → List Byte
  | .ldaImm v => imm16Bytes v
  | .ldaAbs v => abs24Bytes v
  | .staAbs v => abs24Bytes v
  | .ldxImm v => imm16Bytes v
  | .ldxAbs v => abs24Bytes v
  | .stxAbs v => abs24Bytes v
  | .ldyImm v => imm16Bytes v
  | .ldyAbs v => abs24Bytes v
  | .styAbs v => abs24Bytes v
  | .addImm v => imm16Bytes v
  | .subImm v => imm16Bytes v
  | .andImm v => imm16Bytes v
  | .orImm v => imm16Bytes v
  | .xorImm v => imm16Bytes v
  | .mul r => r1Bytes r
  | .div r => r1Bytes r
  | .mov d src => r2Bytes d src
  | .inc r => r1Bytes r
  | .dec r => r1Bytes r
  | .bit r b => rbBytes r b
  | .bset r b => rbBytes r b
  | .bclr r b => rbBytes r b
  | .jmp v => abs24Bytes v
  | .jsr v => abs24Bytes v
  | .rts => []
  | .bra off => rel8Bytes off
  | .beq off => rel8Bytes off
  | .bne off => rel8Bytes off
  | .bcs off => rel8Bytes off
  | .bcc off => rel8Bytes off
  | .bmi off => rel8Bytes off
  | .bpl off => rel8Bytes off
  | .bvs off => rel8Bytes off
  | .bvc off => rel8Bytes off
  | .nop => []
  | .sei => []
  | .cli => []
  | .rti => []
  | .wfi => []
  | .cop => []
  | .hlt => []

/-- The bytes of an instruction under a map, the opcode byte first (30 R91, R93). -/
def encodeBy (m : OpcodeMap) (i : Instr) : List Byte := m.byte i.op :: operandBytesOf i

/-- The bytes of an instruction under the default map. -/
def encode (i : Instr) : List Byte := encodeBy defaultMap i

end Sys2Proof
end

