-- ==== Sys2Proof/Machine/State.lean ====
section
/-! DEFINITION. The state of the CORE as plain data (10_state.md), its updates field by field, the ways a model operation can stop, and the state right after reset. -/

namespace Sys2Proof.Machine

/-- The six flags, stored as six separate bits (10 R26). -/
structure Flags where
  n : Bool
  v : Bool
  d : Bool
  i : Bool
  z : Bool
  c : Bool
  deriving DecidableEq, Repr

/-- The kinds of decode fault (10 R36, 60 R241). -/
inductive DecodeFaultKind where
  | unknownOpcode
  | reservedOperand
  deriving DecidableEq, Repr

/-- The recorded fault code: kind, opcode byte and address of the opcode byte (10 R36). -/
structure DecodeFault where
  kind : DecodeFaultKind
  opcode : Byte
  addr : Addr
  deriving DecidableEq, Repr

/-- The eight interrupt sources (60 R242). -/
inductive IrqSource where
  | nmi
  | hblank
  | dmaDone
  | vluDone
  | apuBufEmpty
  | timer0
  | padEvent
  | swi
  deriving DecidableEq, Repr

/-- A set of interrupt sources, one bit per source (10 R38). -/
structure IrqSet where
  nmi : Bool
  hblank : Bool
  dmaDone : Bool
  vluDone : Bool
  apuBufEmpty : Bool
  timer0 : Bool
  padEvent : Bool
  swi : Bool
  deriving DecidableEq, Repr

/-- Backing storage of the Bus (10 R39): the listed bytes by 24-bit address, addresses rising, no byte equal to the zero fill an unlisted address holds (log 9). -/
abbrev Memory := List Host.Cell

/-- A registered I/O sub-range, both ends included (20 R57). -/
structure HandlerRange where
  first : Addr
  last : Addr
  deriving DecidableEq, Repr

/-- One recorded handler access (20 R58): the Bus address, the offset the handler sees (address minus start of its range, 20 R57) and the byte read or written. -/
inductive IoEvent where
  | read (addr offset : Addr) (byte : Byte)
  | write (addr offset : Addr) (byte : Byte)
  deriving DecidableEq, Repr

/-- The state of the CORE: Engine (10 R20 to R37), InterruptController (10 R38) and Bus (10 R39). `handlers` and `opcodes` are the fixed configuration IO_HANDLERS and OPCODE_MAP carried as data (20 R57, log 4; 00 R8, log 7); `ioEvents` is the record of handler accesses, newest first (20 R58, log 6); `ioDraws` is the model's own field: how many handler reads have been answered (log 5). -/
@[ext]
structure State where
  a : Word
  x : Word
  y : Word
  r : Vector Word 8
  sp : Word
  pc : Addr
  flags : Flags
  halted : Bool
  waiting : Bool
  fault : Option DecodeFault
  cycles : BitVec 64
  pending : IrqSet
  mem : Memory
  handlers : List HandlerRange
  opcodes : OpcodeMap
  ioDraws : Nat
  ioEvents : List IoEvent
  deriving DecidableEq, Repr

/-- Why a host call fails. No instruction and no step raises one: the CORE's only exception halts the Engine and is a next state (60 R240). -/
inductive Fault where
  /-- Raised by `load` alone: more bytes than the region holds (20 R68, the explicit failure result SizeExceeded; nothing is written). Safe: the machine is as before. -/
  | sizeExceeded
  deriving DecidableEq, Repr

/-- Why the model does not admit something. No instruction and no step raises one. -/
inductive Refusal where
  /-- Raised by an arm of `exec` for an instruction without a meaning yet; no arm is left that raises it. Safe. -/
  | notModelled (mnemonic : String)
  /-- Raised by `raiseInterrupt` alone: TIMER1, TIMER2 or the reserved id, none of which is a source of this CORE (60 R242, R243). Safe. -/
  | notASource
  /-- Raised by `registerIoHandler` alone: a handler range that is empty (log 17), outside the I/O region or overlapping another (20 R57). Safe. -/
  | handlerRangeNotAdmitted
  /-- Raised by `setOpcodeMap` alone: a map that gives two rows one byte, or does not give LDA # 0x01 and HLT 0xFF (00 R8, log 7). Safe. -/
  | opcodeMapNotAdmitted
  deriving DecidableEq, Repr

/-- What a step, a meaning or a host call answers. -/
abbrev Result := Host.Outcome State Fault Refusal

/-! ## Updates, one per field -/

def State.setA (v : Word) (s : State) : State := { s with a := v }
def State.setX (v : Word) (s : State) : State := { s with x := v }
def State.setY (v : Word) (s : State) : State := { s with y := v }
def State.setR (k : Fin 8) (v : Word) (s : State) : State := { s with r := s.r.set k v }
def State.setSp (v : Word) (s : State) : State := { s with sp := v }
def State.setPc (v : Addr) (s : State) : State := { s with pc := v }
def State.setFlags (f : Flags) (s : State) : State := { s with flags := f }
def State.setHalted (b : Bool) (s : State) : State := { s with halted := b }
def State.setWaiting (b : Bool) (s : State) : State := { s with waiting := b }
def State.setFault (f : Option DecodeFault) (s : State) : State := { s with fault := f }
def State.setPending (p : IrqSet) (s : State) : State := { s with pending := p }
def State.setMem (m : Memory) (s : State) : State := { s with mem := m }
def State.setHandlers (hs : List HandlerRange) (s : State) : State := { s with handlers := hs }
def State.setOpcodes (m : OpcodeMap) (s : State) : State := { s with opcodes := m }

/-- `cycles += n`, modulo 2^64 (10 R37, 00 R13). -/
def State.charge (n : Nat) (s : State) : State := { s with cycles := s.cycles + BitVec.ofNat 64 n }

/-- A handler read: the event is recorded and the next draw will be a fresh one (20 R58). -/
def State.recordRead (e : IoEvent) (s : State) : State :=
  { s with ioDraws := s.ioDraws + 1, ioEvents := e :: s.ioEvents }

/-- A handler write: the event is recorded and nothing else changes (20 R58). -/
def State.recordWrite (e : IoEvent) (s : State) : State := { s with ioEvents := e :: s.ioEvents }

/-! ## Reset -/

/-- All six flags clear (10 R26). -/
def Flags.clear : Flags := { n := false, v := false, d := false, i := false, z := false, c := false }

/-- Nothing pending (10 R38). -/
def IrqSet.empty : IrqSet :=
  { nmi := false, hblank := false, dmaDone := false, vluDone := false,
    apuBufEmpty := false, timer0 := false, padEvent := false, swi := false }

/-- A machine just constructed, with no image loaded, no handler registered and the default OPCODE_MAP (log 7), after the host's `reset()` (70 R270, R272). The reset vector of the zero-filled BIOS is 0x000000 (70 R273, log 8); A, X, Y and R0 to R7 are `Config.resetRegs` (log 1). -/
def State.reset : State where
  a := Config.resetRegs.a
  x := Config.resetRegs.x
  y := Config.resetRegs.y
  r := Config.resetRegs.r
  sp := 0xFFFF
  pc := 0x000000
  flags := Flags.clear
  halted := false
  waiting := false
  fault := none
  cycles := 0
  pending := IrqSet.empty
  mem := []
  handlers := []
  opcodes := defaultMap
  ioDraws := 0
  ioEvents := []

end Sys2Proof.Machine
end

