-- ==== Sys2Proof/Machine/Flags.lean ====
section
/-! DEFINITION. Every flag computation of the spec: the flags byte (10_state.md R33), the arithmetic flags (41 R140) and the flags of MUL, DIV and BIT (42 R170, R171, R176). -/

namespace Sys2Proof.Machine

/-- `FlagsByte()`: N V 0 0 D I Z C, bit 7 down to bit 0 (10 R33, log 24). -/
def flagsByte (f : Flags) : Byte :=
  BitVec.ofBool f.n ++ BitVec.ofBool f.v ++ (0 : BitVec 2) ++ BitVec.ofBool f.d ++
    BitVec.ofBool f.i ++ BitVec.ofBool f.z ++ BitVec.ofBool f.c

/-- `SetFlagsByte(b)`: bits 5 and 4 are ignored (10 R33, log 24). -/
def flagsOfByte (b : Byte) : Flags where
  n := b.getLsbD 7
  v := b.getLsbD 6
  d := b.getLsbD 3
  i := b.getLsbD 2
  z := b.getLsbD 1
  c := b.getLsbD 0

/-- `I <- b` (44 R211, R212, 60 R247). -/
def flagsSetI (b : Bool) (f : Flags) : Flags := { f with i := b }

/-- `ZN(r)`: Z iff the result is 0, N its bit 15 (41 R140). -/
def flagsZN (res : Word) (f : Flags) : Flags := { f with z := res == 0, n := res.getLsbD 15 }

/-- `zext_17(a) + zext_17(b)` (41 R140). -/
def sum17 (a b : Word) : BitVec 17 := a.setWidth 17 + b.setWidth 17

/-- `s[15:0]` of an addition (41 R140). -/
def addResult (a b : Word) : Word := (sum17 a b).setWidth 16

/-- The flags of `a + b`: C the carry out of bit 15, V signed overflow, Z and N of the result (41 R140). -/
def flagsAdd (a b : Word) (f : Flags) : Flags :=
  flagsZN (addResult a b)
    { f with
      c := (sum17 a b).getLsbD 16
      v := (a.getLsbD 15 == b.getLsbD 15) && ((addResult a b).getLsbD 15 != a.getLsbD 15) }

/-- The flags of `a - b`: C the borrow, V signed overflow, Z and N of the result (41 R140). -/
def flagsSub (a b : Word) (f : Flags) : Flags :=
  flagsZN (a - b)
    { f with
      c := decide (a.toNat < b.toNat)
      v := (a.getLsbD 15 != b.getLsbD 15) && ((a - b).getLsbD 15 != a.getLsbD 15) }

/-- The exact 32-bit product (42 R170). -/
def product (a m : Word) : BitVec 32 := a.setWidth 32 * m.setWidth 32

/-- `p[15:0]` and `p[31:16]` (42 R170). -/
def productLow (a m : Word) : Word := (product a m).extractLsb' 0 16
def productHigh (a m : Word) : Word := (product a m).extractLsb' 16 16

/-- The flags of MUL: Z and N of the low half, C iff the high half is not 0 (42 R170). -/
def flagsMul (a m : Word) (f : Flags) : Flags :=
  flagsZN (productLow a m) { f with c := productHigh a m != 0 }

/-- Quotient and remainder of DIV; a divisor of 0 gives 0xFFFF and the dividend (42 R171, log 29). -/
def quotient (n d : Word) : Word := if d = 0 then 0xFFFF else n / d
def remainder (n d : Word) : Word := if d = 0 then n else n % d

/-- The flags of DIV: Z and N of the quotient, V iff the divisor is 0 (42 R171). -/
def flagsDiv (n d : Word) (f : Flags) : Flags :=
  flagsZN (quotient n d) { f with v := d == 0 }

/-- The flag of BIT: Z iff the tested bit is 0 (42 R176). -/
def flagsBit (v : Word) (b : Nat) (f : Flags) : Flags := { f with z := !v.getLsbD b }

end Sys2Proof.Machine
end

