-- ==== Sys2Proof/Machine/Memory.lean ====
section
/-! DEFINITION. Backing storage as a list of (address, byte) pairs in one canonical form (10_state.md R39, 70 R272). -/

namespace Sys2Proof.Machine

/-- What an unlisted address holds: storage is "zero-filled except where explicitly loaded" (10 R39, 70 R272, log 9). -/
def zeroFill : Byte := 0x00

/-- The byte stored at an address. -/
def memGet : Memory → Nat → Byte
  | [], _ => zeroFill
  | (k, b) :: m, a => if k = a then b else memGet m a

/-- Storing a byte; the zero fill is never listed, so storing it removes the entry. -/
def memSet : Memory → Nat → Byte → Memory
  | [], a, v => if v = zeroFill then [] else [(a, v)]
  | (k, b) :: m, a, v =>
    if a < k then (if v = zeroFill then (k, b) :: m else (a, v) :: (k, b) :: m)
    else if a = k then (if v = zeroFill then m else (a, v) :: m)
    else (k, b) :: memSet m a v

/-- Storing bytes at consecutive addresses. -/
def memSetMany : Memory → Nat → List Byte → Memory
  | m, _, [] => m
  | m, a, v :: vs => memSetMany (memSet m a v) (a + 1) vs

/-- The canonical form: addresses strictly rising and no entry equal to the zero fill. -/
def Memory.wf : Memory → Bool
  | [] => true
  | (k, b) :: m => (b != zeroFill) && m.all (fun c => decide (k < c.1)) && Memory.wf m

end Sys2Proof.Machine
end

