-- ==== Sys2Proof/Machine/Operands.lean ====
section
/-! DEFINITION. Operand forms: registers by name (30_encoding.md R96), the effective address (40 R129) and the branch target (43 R193). -/

namespace Sys2Proof.Machine

/-- `reg[i]` (00 R11, 30 R96). No register is hard-wired (10 R20). -/
def readReg (r : Reg) (s : State) : Word :=
  match r with
  | .r k => s.r.get k
  | .a => s.a
  | .x => s.x
  | .y => s.y
  | .sp => s.sp

/-- `reg[i] <- v` (00 R11, 30 R96). -/
def writeReg (r : Reg) (v : Word) (s : State) : State :=
  match r with
  | .r k => s.setR k v
  | .a => s.setA v
  | .x => s.setX v
  | .y => s.setY v
  | .sp => s.setSp v

/-- Absolute mode: `EA = addr24`, no index and no base (40 R129). -/
def effectiveAddress (addr : Addr) : Addr := addr

/-- `T = (PC_next + off) mod 2^24`; PC holds PC_next when execution begins (43 R193). -/
def branchTarget (off : Int) (s : State) : Addr := s.pc + BitVec.ofInt 24 off

/-- `1 << b` (42 R177). -/
def bitMask (b : Nat) : Word := (1 : Word) <<< b

end Sys2Proof.Machine
end

