-- ==== Sys2Proof/Machine/Timing.lean ====
section
/-! DEFINITION. The cycle costs of 70_reset_and_hazards.md R277 to R279. -/

namespace Sys2Proof.Machine

/-- `CYCLES_BASE(op)`, a natural number of at least 1 (70 R278, log 2). -/
def baseCycles (o : Op) : Nat := Config.cyclesBaseLessOne o + 1

/-- `DIV_CYCLES(n, d)`, an integer in 2..12 (70 R279, log 3). -/
def divCycles (n d : Word) : Nat := 2 + Config.divCyclesDraw n d % 11

/-- A conditional branch: 3 when taken, 2 when not (43 R193). -/
def branchCycles (taken : Bool) : Nat := if taken then 3 else 2

/-- Interrupt dispatch (60 R230 (4)). -/
def dispatchCycles : Nat := 5

/-- RTI (44 R213). -/
def rtiCycles : Nat := 5

/-- HLT (44 R216). -/
def hltCycles : Nat := 1

/-- A step while waiting (60 R231). -/
def waitCycles : Nat := 1

/-- A step that raises a decode fault (60 R230 (5), log 35). -/
def faultCycles : Nat := 1

end Sys2Proof.Machine
end

