-- ==== Sys2Proof/Machine/Ops.lean ====
section
/-! DEFINITION. The Bus, the stack, the InterruptController, interrupt entry and return, and the decode fault (20_memory.md, 60_exceptions.md). -/

namespace Sys2Proof.Machine

/-! ## The region table -/

/-- The eight regions (20 R50). -/
inductive Region where
  | workRam
  | expandedRam
  | io
  | vram
  | cram
  | cartRom
  | cartSave
  | bios
  deriving DecidableEq, Repr

/-- A region's access policy (20 R50). -/
inductive Policy where
  | readWrite
  | readOnly
  deriving DecidableEq, Repr

/-- A row of the region table: first and last address, both included, and policy (20 R50). -/
structure RegionRow where
  region : Region
  first : Nat
  last : Nat
  policy : Policy
  deriving DecidableEq, Repr

/-- The row of a region (20 R50). -/
def regionRow : Region → RegionRow
  | .workRam => ⟨.workRam, 0x000000, 0x00FFFF, .readWrite⟩
  | .expandedRam => ⟨.expandedRam, 0x010000, 0x03FFFF, .readWrite⟩
  | .io => ⟨.io, 0x100000, 0x10FFFF, .readWrite⟩
  | .vram => ⟨.vram, 0x200000, 0x27FFFF, .readWrite⟩
  | .cram => ⟨.cram, 0x280000, 0x28FFFF, .readWrite⟩
  | .cartRom => ⟨.cartRom, 0x400000, 0x9FFFFF, .readOnly⟩
  | .cartSave => ⟨.cartSave, 0xA00000, 0xA3FFFF, .readWrite⟩
  | .bios => ⟨.bios, 0xFF0000, 0xFFFFFF, .readOnly⟩

/-- The region table (20 R50). -/
def regionTable : List RegionRow :=
  [regionRow .workRam, regionRow .expandedRam, regionRow .io, regionRow .vram,
   regionRow .cram, regionRow .cartRom, regionRow .cartSave, regionRow .bios]

/-- Whether an address lies in a row's range. -/
def RegionRow.covers (row : RegionRow) (n : Nat) : Bool := decide (row.first ≤ n) && decide (n ≤ row.last)

/-- The region containing an address, none in the gaps (20 R52, R53). -/
def regionAt (a : Addr) : Option RegionRow := regionTable.find? (fun row => row.covers a.toNat)

/-- The value a read of an unmapped address returns (20 R52). -/
def openBus : Byte := 0x00

/-! ## I/O handlers -/

/-- Whether an address lies in a handler's range (20 R57). -/
def HandlerRange.covers (h : HandlerRange) (a : Addr) : Bool :=
  decide (h.first.toNat ≤ a.toNat) && decide (a.toNat ≤ h.last.toNat)

/-- Whether an address lies in the I/O region, the only one with handlers (20 R50, R57). -/
def inIoRegion (a : Addr) : Bool := (regionRow .io).covers a.toNat

/-- The registered handler range an address lies in. Ranges lie inside the I/O region (20 R57), so the registry is consulted there only (log 10). -/
def handlerAt (hs : List HandlerRange) (a : Addr) : Option HandlerRange :=
  if inIoRegion a then hs.find? (fun h => h.covers a) else none

/-! ## One-byte Bus accesses -/

/-- What a read of an address outside every handler range returns: the stored byte of its region, or open bus (20 R53). -/
def storedByte (s : State) (a : Addr) : Byte :=
  match regionAt a with
  | none => openBus
  | some _ => memGet s.mem a.toNat

/-- `Bus.read` (20 R53, R58): the byte and the machine after the access. -/
def busRead (a : Addr) (s : State) : Byte × State :=
  match handlerAt s.handlers a with
  | some h =>
    (Config.ioReadByte s.ioDraws, s.recordRead (.read a (a - h.first) (Config.ioReadByte s.ioDraws)))
  | none => (storedByte s a, s)

/-- `Bus.write` (20 R54, R58). -/
def busWrite (a : Addr) (v : Byte) (s : State) : State :=
  match handlerAt s.handlers a with
  | some h => s.recordWrite (.write a (a - h.first) v)
  | none =>
    match regionAt a with
    | none => s
    | some row =>
      match row.policy with
      | .readOnly => s
      | .readWrite => s.setMem (memSet s.mem a.toNat v)

/-! ## Wider accesses, low byte first -/

/-- `MemRead(addr, 2)` (00 R12). -/
def memRead16 (a : Addr) (s : State) : Word × State :=
  let lo := busRead a s
  let hi := busRead (a + 1) lo.2
  (wordOfBytes hi.1 lo.1, hi.2)

/-- `MemRead(addr, 3)` (00 R12). -/
def memRead24 (a : Addr) (s : State) : Addr × State :=
  let b0 := busRead a s
  let b1 := busRead (a + 1) b0.2
  let b2 := busRead (a + 2) b1.2
  (addrOfBytes b2.1 b1.1 b0.1, b2.2)

/-- `MemWrite(addr, 2, v)`: low byte, then high byte (00 R12, log 28). -/
def memWrite16 (a : Addr) (v : Word) (s : State) : State :=
  busWrite (a + 1) (byteOf 1 v) (busWrite a (byteOf 0 v) s)

/-! ## The stack -/

/-- The stack byte address for a stack pointer value: `zext24(s)` (20 R69, log 21). -/
def stackAddr (sp : Word) : Addr := sp.setWidth 24

/-- `Push8` (20 R70, log 22). -/
def push8 (v : Byte) (s : State) : State :=
  let s' := busWrite (stackAddr s.sp) v s
  s'.setSp (s'.sp - 1)

/-- `Push24`: high, middle, low byte (20 R70, log 22). -/
def push24 (v : Addr) (s : State) : State :=
  push8 (byteOf 0 v) (push8 (byteOf 1 v) (push8 (byteOf 2 v) s))

/-- `Pop8` (20 R71). -/
def pop8 (s : State) : Byte × State :=
  let s' := s.setSp (s.sp + 1)
  busRead (stackAddr s'.sp) s'

/-- `Pop24`: low, middle, high byte (20 R71). -/
def pop24 (s : State) : Addr × State :=
  let lo := pop8 s
  let mid := pop8 lo.2
  let hi := pop8 mid.2
  (addrOfBytes hi.1 mid.1 lo.1, hi.2)

/-! ## The interrupt controller -/

/-- Whether a source is pending (10 R38). -/
def IrqSet.has (p : IrqSet) : IrqSource → Bool
  | .nmi => p.nmi
  | .hblank => p.hblank
  | .dmaDone => p.dmaDone
  | .vluDone => p.vluDone
  | .apuBufEmpty => p.apuBufEmpty
  | .timer0 => p.timer0
  | .padEvent => p.padEvent
  | .swi => p.swi

/-- A set with one source's bit set or cleared. -/
def IrqSet.put (p : IrqSet) (b : Bool) : IrqSource → IrqSet
  | .nmi => { p with nmi := b }
  | .hblank => { p with hblank := b }
  | .dmaDone => { p with dmaDone := b }
  | .vluDone => { p with vluDone := b }
  | .apuBufEmpty => { p with apuBufEmpty := b }
  | .timer0 => { p with timer0 := b }
  | .padEvent => { p with padEvent := b }
  | .swi => { p with swi := b }

/-- `IntRaise(id)`: sets the pending bit, idempotent (60 R243). -/
def intRaise (id : IrqSource) (s : State) : State := s.setPending (s.pending.put true id)

/-- `acknowledge(id)`: clears the pending bit (60 R246). -/
def acknowledge (id : IrqSource) (s : State) : State := s.setPending (s.pending.put false id)

/-- The fixed priority order, highest first (60 R244). -/
def priorityOrder : List IrqSource :=
  [.nmi, .hblank, .dmaDone, .vluDone, .apuBufEmpty, .timer0, .padEvent, .swi]

/-- Eligible: pending, and NMI or I clear (60 R245). -/
def eligible (p : IrqSet) (i : Bool) (id : IrqSource) : Bool :=
  p.has id && (decide (id = .nmi) || !i)

/-- `NextEligible(pending, I)` (60 R245). -/
def nextEligible (p : IrqSet) (i : Bool) : Option IrqSource :=
  priorityOrder.find? (fun id => eligible p i id)

/-- The base of the vector table, which is the slot of the reset vector (60 R242). -/
def vectorBase : Addr := 0xFF0000

/-- The offset column of 60 R242. -/
def vectorOffset : IrqSource → Addr
  | .swi => 0x03
  | .padEvent => 0x06
  | .timer0 => 0x09
  | .apuBufEmpty => 0x0C
  | .vluDone => 0x0F
  | .dmaDone => 0x12
  | .hblank => 0x15
  | .nmi => 0x18

/-- The slot of a source (60 R242). -/
def vectorAddr (id : IrqSource) : Addr := vectorBase + vectorOffset id

/-! ## Taking an interrupt, returning from one, and the decode fault -/

/-- `Dispatch(s, ret)` (60 R247, log 23): acknowledge, push PC and then the flags byte, set I, load PC from the vector. The 5 cycles are charged by the step. -/
def dispatch (id : IrqSource) (ret : Addr) (s : State) : State :=
  let s1 := acknowledge id s
  let s2 := push24 ret s1
  let s3 := push8 (flagsByte s2.flags) s2
  let s4 := s3.setFlags (flagsSetI true s3.flags)
  let v := memRead24 (vectorAddr id) s4
  v.2.setPc v.1

/-- The return of RTI (44 R213, 60 R248): the flags byte, then PC. -/
def returnFromInterrupt (s : State) : State :=
  let fb := pop8 s
  let s1 := fb.2.setFlags (flagsOfByte fb.1)
  let p := pop24 s1
  p.2.setPc p.1

/-- `raise DecodeFault(kind, op, a0)` (60 R240, log 35): the Engine halts with the record; PC stays where the fetch left it. -/
def raiseDecodeFault (kind : DecodeFaultKind) (op : Byte) (a0 : Addr) (s : State) : State :=
  (s.setHalted true).setFault (some { kind := kind, opcode := op, addr := a0 })

/-- A step taken while waiting (60 R231): one cycle, and the wait ends iff a source is eligible. -/
def waitStep (s : State) : State :=
  match nextEligible s.pending s.flags.i with
  | none => s.charge waitCycles
  | some _ => (s.setWaiting false).charge waitCycles

end Sys2Proof.Machine
end

