-- ==== Sys2Proof/Machine/ArithLogic.lean ====
section
/-! DEFINITION. ADD, SUB, AND, OR, XOR with an immediate (41_arith_logic.md). -/

namespace Sys2Proof.Machine

/-- A result to A with its flags, then the base cost. -/
def finishAlu (o : Op) (v : Word) (f : Flags) (s : State) : Result :=
  .next (((s.setA v).setFlags f).charge (baseCycles o))

/-- ADD #imm16 (41 R141, log 26). -/
def execAddImm (imm : Word) (s : State) : Result :=
  finishAlu .addImm (addResult s.a imm) (flagsAdd s.a imm s.flags) s

/-- SUB #imm16 (41 R142, log 26). -/
def execSubImm (imm : Word) (s : State) : Result :=
  finishAlu .subImm (s.a - imm) (flagsSub s.a imm s.flags) s

/-- AND #imm16 (41 R143). -/
def execAndImm (imm : Word) (s : State) : Result :=
  finishAlu .andImm (s.a &&& imm) (flagsZN (s.a &&& imm) s.flags) s

/-- OR #imm16 (41 R144). -/
def execOrImm (imm : Word) (s : State) : Result :=
  finishAlu .orImm (s.a ||| imm) (flagsZN (s.a ||| imm) s.flags) s

/-- XOR #imm16 (41 R145). -/
def execXorImm (imm : Word) (s : State) : Result :=
  finishAlu .xorImm (s.a ^^^ imm) (flagsZN (s.a ^^^ imm) s.flags) s

end Sys2Proof.Machine
end

