-- ==== Sys2Proof/Machine/Control.lean ====
section
/-! DEFINITION. JMP, JSR, RTS and the branches (43_control_flow.md). When execution begins PC holds PC_next. -/

namespace Sys2Proof.Machine

/-- Every branch (43 R193): to the target and 3 cycles when taken, else 2 cycles; no flag. -/
def branch (taken : Bool) (off : Int) (s : State) : Result :=
  .next ((if taken then s.setPc (branchTarget off s) else s).charge (branchCycles taken))

/-- JMP abs24 (43 R190). -/
def execJmp (addr : Addr) (s : State) : Result := .next ((s.setPc addr).charge (baseCycles .jmp))

/-- JSR abs24 (43 R191). -/
def execJsr (addr : Addr) (s : State) : Result :=
  .next (((push24 s.pc s).setPc addr).charge (baseCycles .jsr))

/-- RTS (43 R192). -/
def execRts (s : State) : Result :=
  let p := pop24 s
  .next ((p.2.setPc p.1).charge (baseCycles .rts))

/-- BRA rel8: always taken (43 R194). -/
def execBra (off : Int) (s : State) : Result := branch true off s

/-- BEQ rel8: Z = 1 (43 R195). -/
def execBeq (off : Int) (s : State) : Result := branch s.flags.z off s

/-- BNE rel8: Z = 0 (43 R196). -/
def execBne (off : Int) (s : State) : Result := branch (!s.flags.z) off s

/-- BCS rel8: C = 1 (43 R197). -/
def execBcs (off : Int) (s : State) : Result := branch s.flags.c off s

/-- BCC rel8: C = 0 (43 R198). -/
def execBcc (off : Int) (s : State) : Result := branch (!s.flags.c) off s

/-- BMI rel8: N = 1 (43 R199). -/
def execBmi (off : Int) (s : State) : Result := branch s.flags.n off s

/-- BPL rel8: N = 0 (43 R200). -/
def execBpl (off : Int) (s : State) : Result := branch (!s.flags.n) off s

/-- BVS rel8: V = 1 (43 R201). -/
def execBvs (off : Int) (s : State) : Result := branch s.flags.v off s

/-- BVC rel8: V = 0 (43 R202). -/
def execBvc (off : Int) (s : State) : Result := branch (!s.flags.v) off s

end Sys2Proof.Machine
end

