-- ==== Sys2Proof/Machine/LoadStore.lean ====
section
/-! DEFINITION. LDA, STA, LDX, STX, LDY, STY (40_load_store.md). -/

namespace Sys2Proof.Machine

/-- The end of every load: Z and N of the loaded value (40 R120 to R127), then the base cost. -/
def finishLoad (o : Op) (v : Word) (s : State) : Result :=
  .next ((s.setFlags (flagsZN v s.flags)).charge (baseCycles o))

/-- A store of 16 bits (40 R122, R125, R128): no flag, then the base cost. -/
def storeAbs (o : Op) (addr : Addr) (v : Word) (s : State) : Result :=
  .next ((memWrite16 (effectiveAddress addr) v s).charge (baseCycles o))

/-- LDA #imm16 (40 R120). -/
def execLdaImm (imm : Word) (s : State) : Result := finishLoad .ldaImm imm (s.setA imm)

/-- LDA abs24 (40 R121). -/
def execLdaAbs (addr : Addr) (s : State) : Result :=
  let m := memRead16 (effectiveAddress addr) s
  finishLoad .ldaAbs m.1 (m.2.setA m.1)

/-- STA abs24 (40 R122). -/
def execStaAbs (addr : Addr) (s : State) : Result := storeAbs .staAbs addr s.a s

/-- LDX #imm16 (40 R123). -/
def execLdxImm (imm : Word) (s : State) : Result := finishLoad .ldxImm imm (s.setX imm)

/-- LDX abs24 (40 R124). -/
def execLdxAbs (addr : Addr) (s : State) : Result :=
  let m := memRead16 (effectiveAddress addr) s
  finishLoad .ldxAbs m.1 (m.2.setX m.1)

/-- STX abs24 (40 R125). -/
def execStxAbs (addr : Addr) (s : State) : Result := storeAbs .stxAbs addr s.x s

/-- LDY #imm16 (40 R126). -/
def execLdyImm (imm : Word) (s : State) : Result := finishLoad .ldyImm imm (s.setY imm)

/-- LDY abs24 (40 R127). -/
def execLdyAbs (addr : Addr) (s : State) : Result :=
  let m := memRead16 (effectiveAddress addr) s
  finishLoad .ldyAbs m.1 (m.2.setY m.1)

/-- STY abs24 (40 R128). -/
def execStyAbs (addr : Addr) (s : State) : Result := storeAbs .styAbs addr s.y s

end Sys2Proof.Machine
end

