-- ==== Sys2Proof/Machine/RegisterOps.lean ====
section
/-! DEFINITION. MUL, DIV, MOV, INC, DEC, BIT, BSET, BCLR (42_register_ops.md). Every register operand is read before any destination is written (R175); the operand check of R175 is the decoder's and the step's (30 R98, log 16). -/

namespace Sys2Proof.Machine

/-- MUL r (42 R170). -/
def execMul (r : Reg) (s : State) : Result :=
  let m := readReg r s
  .next ((((s.setA (productLow s.a m)).setX (productHigh s.a m)).setFlags
    (flagsMul s.a m s.flags)).charge (baseCycles .mul))

/-- DIV r (42 R171). -/
def execDiv (r : Reg) (s : State) : Result :=
  let d := readReg r s
  .next ((((s.setA (quotient s.a d)).setX (remainder s.a d)).setFlags
    (flagsDiv s.a d s.flags)).charge (divCycles s.a d))

/-- MOV d, s (42 R172). -/
def execMov (d src : Reg) (s : State) : Result :=
  .next ((writeReg d (readReg src s) s).charge (baseCycles .mov))

/-- A result to a register with its Z and N, then the base cost. -/
def finishReg (o : Op) (r : Reg) (v : Word) (s : State) : Result :=
  .next (((writeReg r v s).setFlags (flagsZN v s.flags)).charge (baseCycles o))

/-- INC r (42 R173). -/
def execInc (r : Reg) (s : State) : Result := finishReg .inc r (readReg r s + 1) s

/-- DEC r (42 R174). -/
def execDec (r : Reg) (s : State) : Result := finishReg .dec r (readReg r s - 1) s

/-- BIT r, #b (42 R176). -/
def execBit (r : Reg) (b : Nat) (s : State) : Result :=
  .next ((s.setFlags (flagsBit (readReg r s) b s.flags)).charge (baseCycles .bit))

/-- BSET r, #b (42 R177). -/
def execBset (r : Reg) (b : Nat) (s : State) : Result :=
  .next ((writeReg r (readReg r s ||| bitMask b) s).charge (baseCycles .bset))

/-- BCLR r, #b (42 R178). -/
def execBclr (r : Reg) (b : Nat) (s : State) : Result :=
  .next ((writeReg r (readReg r s &&& ~~~(bitMask b)) s).charge (baseCycles .bclr))

end Sys2Proof.Machine
end

