-- ==== Sys2Proof/Machine/System.lean ====
section
/-! DEFINITION. NOP, SEI, CLI, RTI, WFI, COP, HLT (44_system.md). None is privileged (R217). -/

namespace Sys2Proof.Machine

/-- NOP (44 R210). -/
def execNop (s : State) : Result := .next (s.charge (baseCycles .nop))

/-- SEI (44 R211). -/
def execSei (s : State) : Result :=
  .next ((s.setFlags (flagsSetI true s.flags)).charge (baseCycles .sei))

/-- CLI (44 R212). -/
def execCli (s : State) : Result :=
  .next ((s.setFlags (flagsSetI false s.flags)).charge (baseCycles .cli))

/-- RTI (44 R213). -/
def execRti (s : State) : Result := .next ((returnFromInterrupt s).charge rtiCycles)

/-- WFI (44 R214): the wait itself is `waitStep`. -/
def execWfi (s : State) : Result := .next ((s.setWaiting true).charge (baseCycles .wfi))

/-- COP (44 R215, log 32): raises SWI and nothing else. -/
def execCop (s : State) : Result := .next ((intRaise .swi s).charge (baseCycles .cop))

/-- HLT (44 R216): `fault` stays as it is. -/
def execHlt (s : State) : Result := .next ((s.setHalted true).charge hltCycles)

end Sys2Proof.Machine
end

