-- ==== Sys2Proof/Machine/Dispatch.lean ====
section
/-! DEFINITION. `Execute(e, operands)` of 60_exceptions.md R230 (5): one arm per instruction. The state is the one after the fetch, PC at the next instruction. -/

namespace Sys2Proof.Machine

def exec (i : Instr) (s : State) : Host.Outcome State Fault Refusal :=
  match i with
  | .ldaImm imm => Sys2Proof.Machine.execLdaImm imm s
  | .ldaAbs addr => Sys2Proof.Machine.execLdaAbs addr s
  | .staAbs addr => Sys2Proof.Machine.execStaAbs addr s
  | .ldxImm imm => Sys2Proof.Machine.execLdxImm imm s
  | .ldxAbs addr => Sys2Proof.Machine.execLdxAbs addr s
  | .stxAbs addr => Sys2Proof.Machine.execStxAbs addr s
  | .ldyImm imm => Sys2Proof.Machine.execLdyImm imm s
  | .ldyAbs addr => Sys2Proof.Machine.execLdyAbs addr s
  | .styAbs addr => Sys2Proof.Machine.execStyAbs addr s
  | .addImm imm => Sys2Proof.Machine.execAddImm imm s
  | .subImm imm => Sys2Proof.Machine.execSubImm imm s
  | .andImm imm => Sys2Proof.Machine.execAndImm imm s
  | .orImm imm => Sys2Proof.Machine.execOrImm imm s
  | .xorImm imm => Sys2Proof.Machine.execXorImm imm s
  | .mul r => Sys2Proof.Machine.execMul r s
  | .div r => Sys2Proof.Machine.execDiv r s
  | .mov d src => Sys2Proof.Machine.execMov d src s
  | .inc r => Sys2Proof.Machine.execInc r s
  | .dec r => Sys2Proof.Machine.execDec r s
  | .bit r b => Sys2Proof.Machine.execBit r b s
  | .bset r b => Sys2Proof.Machine.execBset r b s
  | .bclr r b => Sys2Proof.Machine.execBclr r b s
  | .jmp addr => Sys2Proof.Machine.execJmp addr s
  | .jsr addr => Sys2Proof.Machine.execJsr addr s
  | .rts => Sys2Proof.Machine.execRts s
  | .bra off => Sys2Proof.Machine.execBra off s
  | .beq off => Sys2Proof.Machine.execBeq off s
  | .bne off => Sys2Proof.Machine.execBne off s
  | .bcs off => Sys2Proof.Machine.execBcs off s
  | .bcc off => Sys2Proof.Machine.execBcc off s
  | .bmi off => Sys2Proof.Machine.execBmi off s
  | .bpl off => Sys2Proof.Machine.execBpl off s
  | .bvs off => Sys2Proof.Machine.execBvs off s
  | .bvc off => Sys2Proof.Machine.execBvc off s
  | .nop => Sys2Proof.Machine.execNop s
  | .sei => Sys2Proof.Machine.execSei s
  | .cli => Sys2Proof.Machine.execCli s
  | .rti => Sys2Proof.Machine.execRti s
  | .wfi => Sys2Proof.Machine.execWfi s
  | .cop => Sys2Proof.Machine.execCop s
  | .hlt => Sys2Proof.Machine.execHlt s

end Sys2Proof.Machine
end

