-- ==== Sys2Proof/Machine/Cycle.lean ====
section
/-! DEFINITION. Fetching an instruction (30_encoding.md R92), the sequence of one step (60_exceptions.md R230) and the count it returns (60 R233, 70 R277). -/

namespace Sys2Proof.Machine

/-- One byte at PC through the Bus, then PC moves on (30 R92). -/
def fetchByte (s : State) : Byte × State :=
  let m := busRead s.pc s
  (m.1, m.2.setPc (m.2.pc + 1))

/-- So many bytes at PC, the first fetched first. -/
def fetchBytes : Nat → State → List Byte × State
  | 0, s => ([], s)
  | k + 1, s =>
    let b := fetchByte s
    let bs := fetchBytes k b.2
    (b.1 :: bs.1, bs.2)

/-- What a fetch leaves: the opcode byte, the instruction or why there is none, and the machine with PC past the fetched bytes. -/
structure Fetched where
  opcode : Byte
  instr : Except DecodeFaultKind Instr
  after : State

/-- The fetch of 30 R92: the opcode byte, then the operand bytes of the row the machine's OPCODE_MAP gives it; an unassigned opcode fetches no operand byte. -/
def fetch (s : State) : Fetched :=
  let op := fetchByte s
  match opOfByte s.opcodes op.1 with
  | none => { opcode := op.1, instr := .error .unknownOpcode, after := op.2 }
  | some o =>
    let bs := fetchBytes o.operandBytes op.2
    match decodeOperands o bs.1 with
    | none => { opcode := op.1, instr := .error .reservedOperand, after := bs.2 }
    | some i => { opcode := op.1, instr := .ok i, after := bs.2 }

/-- The interrupt check of 60 R230 (4): skipped when the fetched opcode is RTI's. -/
def interruptToTake (f : Fetched) : Option IrqSource :=
  if f.opcode = f.after.opcodes.byte .rti then none else nextEligible f.after.pending f.after.flags.i

/-- `step()` (60 R230): halted, waiting, interrupt, decode fault, execution, in this order (60 R250). -/
def runStep (s : State) : Result :=
  if s.halted then .next s
  else if s.waiting then .next (waitStep s)
  else
    let f := fetch s
    match interruptToTake f with
    | some id => .next ((dispatch id s.pc f.after).charge dispatchCycles)
    | none =>
      match f.instr with
      | .error kind => .next ((raiseDecodeFault kind f.opcode s.pc f.after).charge faultCycles)
      | .ok i => exec i f.after

/-- The cost of executing an instruction in a state (70 R277). -/
def instrCycles (i : Instr) (s : State) : Nat :=
  match i with
  | .bra _ => branchCycles true
  | .beq _ => branchCycles s.flags.z
  | .bne _ => branchCycles (!s.flags.z)
  | .bcs _ => branchCycles s.flags.c
  | .bcc _ => branchCycles (!s.flags.c)
  | .bmi _ => branchCycles s.flags.n
  | .bpl _ => branchCycles (!s.flags.n)
  | .bvs _ => branchCycles s.flags.v
  | .bvc _ => branchCycles (!s.flags.v)
  | .div r => divCycles s.a (readReg r s)
  | .rti => rtiCycles
  | .hlt => hltCycles
  | .ldaImm _ | .ldaAbs _ | .staAbs _ | .ldxImm _ | .ldxAbs _ | .stxAbs _ => baseCycles i.op
  | .ldyImm _ | .ldyAbs _ | .styAbs _ => baseCycles i.op
  | .addImm _ | .subImm _ | .andImm _ | .orImm _ | .xorImm _ => baseCycles i.op
  | .mul _ | .mov _ _ | .inc _ | .dec _ | .bit _ _ | .bset _ _ | .bclr _ _ => baseCycles i.op
  | .jmp _ | .jsr _ | .rts => baseCycles i.op
  | .nop | .sei | .cli | .wfi | .cop => baseCycles i.op

/-- The number of cycles `step()` returns (60 R230, R233, log 11). -/
def stepCycles (s : State) : Nat :=
  if s.halted then 0
  else if s.waiting then waitCycles
  else
    let f := fetch s
    match interruptToTake f with
    | some _ => dispatchCycles
    | none =>
      match f.instr with
      | .error _ => faultCycles
      | .ok i => instrCycles i f.after

/-! ## Placing an instruction where the next step fetches it -/

/-- Whether an address is plain storage: in a region and in no handler range. -/
def plainStorage (s : State) (a : Addr) : Bool :=
  (regionAt a).isSome && (handlerAt s.handlers a).isNone

/-- A byte put into storage from outside the Bus, as `load` does (20 R68). -/
def placeByte (a : Addr) (v : Byte) (s : State) : State := s.setMem (memSet s.mem a.toNat v)

/-- Bytes put into storage from an address on, which wraps (20 R51). -/
def placeBytes : Addr → List Byte → State → State
  | _, [], s => s
  | a, v :: vs, s => placeBytes (a + 1) vs (placeByte a v s)

/-- PC stays where it is if the four bytes there are plain storage, else it goes to WorkRAM address 0 (log 19). -/
def fetchPlace (s : State) : Addr :=
  if plainStorage s s.pc && plainStorage s (s.pc + 1) && plainStorage s (s.pc + 2) && plainStorage s (s.pc + 3)
  then s.pc else 0

/-- Whether an interrupt would replace the instruction these bytes begin (60 R230 (4)). -/
def wouldDispatch (bs : List Byte) (s : State) : Bool :=
  decide (operandByte bs 0 ≠ s.opcodes.byte .rti) && (nextEligible s.pending s.flags.i).isSome

/-- A machine whose next step executes the bytes: running, with the map they are numbered by, no interrupt dispatched in front of them, the bytes at PC (log 19). -/
def placeFetch (bs : List Byte) (s : State) : State :=
  let s1 := ((s.setHalted false).setWaiting false).setOpcodes defaultMap
  let s2 := if wouldDispatch bs s1 then s1.setPending IrqSet.empty else s1
  let s3 := s2.setPc (fetchPlace s2)
  placeBytes s3.pc bs s3

end Sys2Proof.Machine
end

