-- ==== Sys2Proof/Machine/Step.lean ====
section
/-! DEFINITION. The Engine's only transition (60_exceptions.md R230) and the host's way to place one instruction before it. -/

namespace Sys2Proof.Machine

/-- `step()` (60 R230). -/
def step (s : State) : Host.Outcome State Fault Refusal := runStep s

/-- s with the opcode table's word stored where the next step fetches (log 19). -/
def State.withFetchWord (s : State) (nbits w : Nat) : State := placeFetch (bytesOfTableWord nbits w) s

end Sys2Proof.Machine
end

