-- ==== Sys2Proof/Machine/HostOps.lean ====
section
/-! DEFINITION. The host's operations on the CORE besides `step()` (60_exceptions.md R255): reset, load, raise_interrupt, the configuration of a machine at construction (I/O handlers, OPCODE_MAP), and the diagnostic accessors. All act between steps (20 R72). -/

namespace Sys2Proof.Machine

/-! ## reset() -/

/-- `reset()` for given RESET_REGS (70 R270, log 34): storage, handlers, the opcode map and the record of handler accesses are kept. -/
def hostReset (regs : ResetRegs) (s : State) : State :=
  let s1 : State :=
    { s with
      a := regs.a
      x := regs.x
      y := regs.y
      r := regs.r
      sp := 0xFFFF
      flags := Flags.clear
      halted := false
      waiting := false
      fault := none
      cycles := 0
      pending := IrqSet.empty }
  let v := memRead24 vectorBase s1
  v.2.setPc v.1

/-! ## load() -/

/-- The size column of 20 R50. -/
def regionSize (g : Region) : Nat := (regionRow g).last - (regionRow g).first + 1

/-- `load(region, bytes)` (20 R68, log 36): into storage itself, past the ReadOnly policy and past handlers; SizeExceeded writes nothing. -/
def load (g : Region) (bytes : List Byte) (s : State) : Result :=
  if regionSize g < bytes.length then .fault .sizeExceeded
  else .next (s.setMem (memSetMany s.mem (regionRow g).first bytes))

/-! ## raise_interrupt() -/

/-- The ids a host may name: the eight sources, and the three the spec refuses (60 R242, R243, 90 C1). -/
inductive RaiseId where
  | source (id : IrqSource)
  | timer1
  | timer2
  | reserved
  deriving DecidableEq, Repr

/-- `raise_interrupt(id)` (60 R243, log 33). -/
def raiseInterrupt (id : RaiseId) (s : State) : Result :=
  match id with
  | .source k => .next (intRaise k s)
  | .timer1 => .refused .notASource
  | .timer2 => .refused .notASource
  | .reserved => .refused .notASource

/-! ## register_io_handler(), at construction -/

/-- The conditions on a range: not empty, wholly inside the I/O region (20 R57, log 17). -/
def HandlerRange.inside (h : HandlerRange) : Bool :=
  decide (h.first.toNat ≤ h.last.toNat) && inIoRegion h.first && inIoRegion h.last

/-- Two ranges that share no address (20 R57). -/
def HandlerRange.apart (h k : HandlerRange) : Bool :=
  decide (h.last.toNat < k.first.toNat) || decide (k.last.toNat < h.first.toNat)

/-- An admitted registry: every range inside the I/O region, no two overlapping (20 R57). -/
def handlersOk : List HandlerRange → Bool
  | [] => true
  | h :: hs => h.inside && hs.all (fun k => h.apart k) && handlersOk hs

/-- `register_io_handler(range, handler)` (20 R57), called while the machine is constructed and at no other time (60 R255): a range that breaks a condition is refused. -/
def registerIoHandler (h : HandlerRange) (s : State) : Result :=
  if h.inside && s.handlers.all (fun k => h.apart k) then .next (s.setHandlers (h :: s.handlers))
  else .refused .handlerRangeNotAdmitted

/-! ## OPCODE_MAP, at construction -/

/-- The machine constructed with this OPCODE_MAP (00 R8: a parameter taken as an argument, fixed once construction is over): a map that is not admitted is refused (log 7). -/
def setOpcodeMap (m : OpcodeMap) (s : State) : Result :=
  if m.ok then .next (s.setOpcodes m) else .refused .opcodeMapNotAdmitted

/-! ## The accessors -/

/-- What the diagnostic accessors return (60 R256), and `pending`, which a model may expose. -/
structure Diagnostics where
  a : Word
  x : Word
  y : Word
  r : Vector Word 8
  sp : Word
  pc : Addr
  flags : Flags
  halted : Bool
  waiting : Bool
  fault : Option DecodeFault
  cycles : BitVec 64
  pending : IrqSet
  deriving DecidableEq, Repr

/-- The accessors (60 R256): they read, and memory is none of theirs. -/
def diagnostics (s : State) : Diagnostics :=
  { a := s.a, x := s.x, y := s.y, r := s.r, sp := s.sp, pc := s.pc, flags := s.flags,
    halted := s.halted, waiting := s.waiting, fault := s.fault, cycles := s.cycles, pending := s.pending }

/-! ## What can happen between and in steps -/

/-- Everything that changes a constructed machine (00 R9, 60 R255). -/
inductive HostAction where
  | step
  | reset (regs : ResetRegs)
  | load (g : Region) (bytes : List Byte)
  | raise (id : RaiseId)
  deriving DecidableEq, Repr

/-- One action of the host on the machine. -/
def hostAct (act : HostAction) (s : State) : Result :=
  match act with
  | .step => step s
  | .reset regs => .next (hostReset regs s)
  | .load g bytes => load g bytes s
  | .raise id => raiseInterrupt id s

end Sys2Proof.Machine
end

