-- ==== Sys2Proof/Safety.lean ====
section
/-! DEFINITION. The terms claims are stated in: the invariant, what a step does, the end of a run, and the tables of what each instruction may write (10_state.md R43, R44). -/

namespace Sys2Proof.Machine

/-! ## The invariant -/

/-- A storage key is an address of some region (10 R39). -/
def storageKey (n : Nat) : Bool := regionTable.any (fun row => row.covers n)

/-- A recorded access lies in a registered range and carries the offset from its start (20 R57, R58). -/
def eventOk (hs : List HandlerRange) (e : IoEvent) : Bool :=
  match e with
  | .read a off _ => hs.any (fun h => h.covers a && (off == a - h.first))
  | .write a off _ => hs.any (fun h => h.covers a && (off == a - h.first))

/-- Whether a recorded access is a read. -/
def IoEvent.isRead : IoEvent → Bool
  | .read _ _ _ => true
  | .write _ _ _ => false

/-- What holds of every state a constructed machine reaches, whatever the host does between steps. -/
structure State.Inv (s : State) : Prop where
  /-- Memory keeps its canonical form. -/
  memCanonical : s.mem.wf = true
  /-- Storage exists at the addresses of regions only (10 R39, 20 R52). -/
  memMapped : ∀ c ∈ s.mem, storageKey c.1 = true
  /-- The registry is an admitted one (20 R57). -/
  handlersAdmitted : handlersOk s.handlers = true
  /-- The opcode map is an admitted one (00 R8). -/
  opcodesAdmitted : s.opcodes.ok = true
  /-- A recorded fault means a halted Engine (10 R36, 60 R240). -/
  faultHalts : s.fault ≠ none → s.halted = true
  /-- Halted and waiting exclude each other (60 R263). -/
  notBothStopped : s.halted = true → s.waiting = false
  /-- Only handler ranges are recorded, with the offset the handler sees (20 R58). -/
  eventsInRanges : ∀ e ∈ s.ioEvents, eventOk s.handlers e = true
  /-- The model's draw index counts the handler reads recorded (log 5). -/
  drawsCounted : s.ioDraws = s.ioEvents.countP IoEvent.isRead

/-! ## What a step does -/

/-- The step takes this interrupt (60 R230 (4)). -/
def takesInterrupt (s : State) (id : IrqSource) : Prop :=
  s.halted = false ∧ s.waiting = false ∧ interruptToTake (fetch s) = some id

/-- The step raises a decode fault of this kind (60 R230 (5)). -/
def raisesFault (s : State) (k : DecodeFaultKind) : Prop :=
  s.halted = false ∧ s.waiting = false ∧ interruptToTake (fetch s) = none ∧ (fetch s).instr = .error k

/-- The step executes this instruction (60 R230 (5)). -/
def executes (s : State) (i : Instr) : Prop :=
  s.halted = false ∧ s.waiting = false ∧ interruptToTake (fetch s) = none ∧ (fetch s).instr = .ok i

/-- Reading so many consecutive bytes through the Bus, PC untouched: the Bus side of a fetch (30 R92). -/
def busReadRun : Nat → Addr → State → List Byte × State
  | 0, _, s => ([], s)
  | k + 1, a, s =>
    ((busRead a s).1 :: (busReadRun k (a + 1) (busRead a s).2).1, (busReadRun k (a + 1) (busRead a s).2).2)

/-! ## The end of a run -/

/-- A run has ended when the Engine is halted (60 R257). -/
def ended (s : State) : Prop := s.halted = true

/-- Normal end: no fault recorded (60 R257). -/
def endedNormally (s : State) : Prop := s.halted = true ∧ s.fault = none

/-- Abnormal end: a fault recorded (60 R257). -/
def endedAbnormally (s : State) : Prop := s.halted = true ∧ s.fault ≠ none

/-! ## Addresses -/

/-- A ReadWrite address outside every handler range: plain, writable storage (20 R56, R59). -/
def writable (s : State) (a : Addr) : Prop :=
  handlerAt s.handlers a = none ∧ ∃ row, regionAt a = some row ∧ row.policy = .readWrite

/-- An address of CartROM or BIOS (20 R55). -/
def readOnlyAddr (a : Addr) : Prop := ∃ row, regionAt a = some row ∧ row.policy = .readOnly

/-! ## What an instruction may write -/

/-- The registers an instruction may write (10 R43). -/
def writtenRegs : Instr → List Reg
  | .ldaImm _ | .ldaAbs _ => [.a]
  | .ldxImm _ | .ldxAbs _ => [.x]
  | .ldyImm _ | .ldyAbs _ => [.y]
  | .staAbs _ | .stxAbs _ | .styAbs _ => []
  | .addImm _ | .subImm _ | .andImm _ | .orImm _ | .xorImm _ => [.a]
  | .mul _ | .div _ => [.a, .x]
  | .mov d _ => [d]
  | .inc r | .dec r | .bset r _ | .bclr r _ => [r]
  | .bit _ _ => []
  | .jsr _ | .rts | .rti => [.sp]
  | .jmp _ => []
  | .bra _ | .beq _ | .bne _ | .bcs _ | .bcc _ | .bmi _ | .bpl _ | .bvs _ | .bvc _ => []
  | .nop | .sei | .cli | .wfi | .cop | .hlt => []

/-- The flags an instruction may write, marked true (10 R44). -/
def writtenFlags : Instr → Flags
  | .ldaImm _ | .ldaAbs _ | .ldxImm _ | .ldxAbs _ | .ldyImm _ | .ldyAbs _ => { Flags.clear with n := true, z := true }
  | .addImm _ | .subImm _ => { Flags.clear with n := true, z := true, c := true, v := true }
  | .andImm _ | .orImm _ | .xorImm _ => { Flags.clear with n := true, z := true }
  | .mul _ => { Flags.clear with n := true, z := true, c := true }
  | .div _ => { Flags.clear with n := true, z := true, v := true }
  | .inc _ | .dec _ => { Flags.clear with n := true, z := true }
  | .bit _ _ => { Flags.clear with z := true }
  | .sei | .cli => { Flags.clear with i := true }
  | .rti => { n := true, v := true, d := true, i := true, z := true, c := true }
  | .staAbs _ | .stxAbs _ | .styAbs _ => Flags.clear
  | .mov _ _ | .bset _ _ | .bclr _ _ => Flags.clear
  | .jmp _ | .jsr _ | .rts => Flags.clear
  | .bra _ | .beq _ | .bne _ | .bcs _ | .bcc _ | .bmi _ | .bpl _ | .bvs _ | .bvc _ => Flags.clear
  | .nop | .wfi | .cop | .hlt => Flags.clear

/-- The addresses an instruction sends Bus writes to: the absolute stores at their effective address, JSR at its three stack bytes (20 R63, R70). -/
def storedAddrs (i : Instr) (s : State) : List Addr :=
  match i with
  | .staAbs addr | .stxAbs addr | .styAbs addr => [effectiveAddress addr, effectiveAddress addr + 1]
  | .jsr _ => [stackAddr s.sp, stackAddr (s.sp - 1), stackAddr (s.sp - 2)]
  | .ldaImm _ | .ldaAbs _ | .ldxImm _ | .ldxAbs _ | .ldyImm _ | .ldyAbs _ => []
  | .addImm _ | .subImm _ | .andImm _ | .orImm _ | .xorImm _ => []
  | .mul _ | .div _ | .mov _ _ | .inc _ | .dec _ | .bit _ _ | .bset _ _ | .bclr _ _ => []
  | .jmp _ | .rts => []
  | .bra _ | .beq _ | .bne _ | .bcs _ | .bcc _ | .bmi _ | .bpl _ | .bvs _ | .bvc _ => []
  | .nop | .sei | .cli | .rti | .wfi | .cop | .hlt => []

/-- The registers of s replaced by those of t, everything else of s. -/
def State.withRegsOf (s t : State) : State := { s with a := t.a, x := t.x, y := t.y, r := t.r, sp := t.sp }

end Sys2Proof.Machine
end

