-- ==== Sys2Proof/Certificates/Slice0/Obligations.lean ====
section
/-! DEFINITION. The statements for the provers. Each docstring names the rules of spec/ it formalises and, where it rests on a decision of the spec itself (92_eei_decisions.md) or on a choice of the model, says so. Costs are stated through `baseCycles` and `divCycles`, which rest on free values. -/

open Sys2Proof Sys2Proof.Machine

/-! ## Encoding -/

/-- Under every admitted OPCODE_MAP (00 R8) every well-formed instruction decodes back from its own bytes, whatever follows them. Rests on the spec's own formats (D2) and, in what an admitted map is, on log 7. -/
def Obligations.DecodeOfEncodedInstruction : Prop :=
  ∀ (m : OpcodeMap) (i : Instr) (rest : List Byte), m.ok = true → i.wellFormed = true →
    decodeBy m (encodeBy m i ++ rest) = .ok (i, rest)

/-- Bytes that decode under an OPCODE_MAP (00 R8), admitted or not, are the encoding of the instruction they decode to, followed by the bytes left over, and that instruction is well formed: no instruction has two encodings (30 R99, R102). Rests on D1, D2. -/
def Obligations.EncodeOfDecodedBytes : Prop :=
  ∀ (m : OpcodeMap) (bs rest : List Byte) (i : Instr), decodeBy m bs = .ok (i, rest) →
    i.wellFormed = true ∧ encodeBy m i ++ rest = bs

/-- Decoding is total and rejects by name (30 R97, R100): whatever bytes follow, an opcode byte is unassigned exactly when the OPCODE_MAP gives it to no row, and under the default map those bytes are the ones R97 lists; under any map four bytes decode to an instruction of one to four bytes or to one of the two faults, never to a demand for more. Under every admitted map the two opcode bytes the source fixes mean LDA #imm16 and HLT (00 R8). The default map is the spec's own (D1), which maps are admitted is log 7. -/
def Obligations.DecodingIsTotalAndRejectsR97s : Prop :=
  (∀ (b : Byte) (rest : List Byte), decode (b :: rest) = .error .unknownOpcode ↔
    ((0x0A ≤ b.toNat ∧ b.toNat ≤ 0x0F) ∨ (0x15 ≤ b.toNat ∧ b.toNat ≤ 0x1F) ∨
     (0x23 ≤ b.toNat ∧ b.toNat ≤ 0x2F) ∨ (0x39 ≤ b.toNat ∧ b.toNat ≤ 0x3F) ∨
     (0x44 ≤ b.toNat ∧ b.toNat ≤ 0x4F) ∨ (0x58 ≤ b.toNat ∧ b.toNat ≤ 0x5F) ∨
     (0x61 ≤ b.toNat ∧ b.toNat ≤ 0xFE))) ∧
  (∀ (m : OpcodeMap) (b : Byte) (rest : List Byte),
    decodeBy m (b :: rest) = .error .unknownOpcode ↔ ∀ o, m.byte o ≠ b) ∧
  (∀ (m : OpcodeMap) (lo hi : Byte) (rest : List Byte), m.ok = true →
    decodeBy m (0x01 :: lo :: hi :: rest) = .ok (.ldaImm (hi ++ lo), rest) ∧
    decodeBy m (0xFF :: rest) = .ok (.hlt, rest)) ∧
  (∀ (m : OpcodeMap) (b0 b1 b2 b3 : Byte) (rest : List Byte),
    (∃ i n, 1 ≤ n ∧ n ≤ 4 ∧
      decodeBy m (b0 :: b1 :: b2 :: b3 :: rest) = .ok (i, (b0 :: b1 :: b2 :: b3 :: rest).drop n)) ∨
    decodeBy m (b0 :: b1 :: b2 :: b3 :: rest) = .error .unknownOpcode ∨
    decodeBy m (b0 :: b1 :: b2 :: b3 :: rest) = .error .reservedOperand)

/-- Register ids and reserved operand bytes (30 R96, R98): R0 to R7 are 0 to 7, A 8, X 9, Y 10, SP 11, no id names two registers, and a register-format instruction is rejected as reserved exactly when an id is 12 to 15 or, in format R1, the low nibble is not 0. Rests on the spec's decisions D3 and D33. -/
def Obligations.RegisterIdsAndReservedOperands : Prop :=
  (∀ k : Fin 8, (regId (.r k)).toNat = k.val) ∧ (regId .a).toNat = 8 ∧ (regId .x).toNat = 9 ∧
  (regId .y).toNat = 10 ∧ (regId .sp).toNat = 11 ∧
  (∀ (id : BitVec 4) (r : Reg), regOfId id = some r ↔ regId r = id) ∧
  ∀ (b1 : Byte) (rest : List Byte),
    (∀ op ∈ ([0x50, 0x51, 0x53, 0x54] : List Byte),
      decode (op :: b1 :: rest) = .error .reservedOperand ↔ (12 ≤ b1.toNat / 16 ∨ b1.toNat % 16 ≠ 0)) ∧
    (decode (0x52 :: b1 :: rest) = .error .reservedOperand ↔ (12 ≤ b1.toNat / 16 ∨ 12 ≤ b1.toNat % 16)) ∧
    (∀ op ∈ ([0x55, 0x56, 0x57] : List Byte),
      decode (op :: b1 :: rest) = .error .reservedOperand ↔ 12 ≤ b1.toNat / 16)

/-- A few words written out from the spec's encodings (30 R91, R93; 95 section 2.1): a sanity statement on fixed words. -/
def Obligations.SpecWordsDecode : Prop :=
  decode [0x00] = .ok (.nop, []) ∧
  decode [0x01, 0x34, 0x12, 0xFF] = .ok (.ldaImm 0x1234, [0xFF]) ∧
  decode [0x02, 0x00, 0x10, 0x00] = .ok (.ldaAbs 0x001000, []) ∧
  decode [0x11, 0x07, 0x00] = .ok (.subImm 7, []) ∧
  decode [0x21, 0x00, 0x01, 0xFF] = .ok (.jsr 0xFF0100, []) ∧
  decode [0x32, 0xF9] = .ok (.bne (-7), []) ∧
  decode [0x52, 0x78] = .ok (.mov (.r 7) .a, []) ∧
  decode [0x55, 0x3F] = .ok (.bit (.r 3) 15, []) ∧
  decode [0x42] = .ok (.rti, []) ∧
  decode [0xFF] = .ok (.hlt, [])

/-! ## The step -/

/-- A step runs the decoded instruction: if the Engine runs, no interrupt goes first, and the bytes at PC decode, under the machine's OPCODE_MAP (00 R8), to i with n bytes and lie outside every handler range, the step is `exec` of i with PC moved past the n bytes (60 R230, 30 R92). -/
def Obligations.StepRunsTheDecodedInstruction : Prop :=
  ∀ (s : State) (i : Instr) (n : Nat),
    s.halted = false → s.waiting = false →
    (i = .rti ∨ nextEligible s.pending s.flags.i = none) →
    decodeBy s.opcodes ((List.range n).map fun k => storedByte s (s.pc + BitVec.ofNat 24 k)) = .ok (i, []) →
    (∀ k, k < n → handlerAt s.handlers (s.pc + BitVec.ofNat 24 k) = none) →
    step s = exec i { s with pc := s.pc + BitVec.ofNat 24 n }

/-- The fetch (30 R92): the opcode byte through the Bus at PC, then the operand bytes of the row the machine's OPCODE_MAP gives it at the following addresses in order, each one Bus read; PC ends past the bytes fetched, modulo 2^24; an unassigned opcode fetches no operand byte. -/
def Obligations.FetchReadsEachByteThroughTheBus : Prop :=
  ∀ s : State,
    (fetch s).opcode = (busRead s.pc s).1 ∧
    (opOfByte s.opcodes (busRead s.pc s).1 = none →
      (fetch s).instr = .error .unknownOpcode ∧
      (fetch s).after = { (busRead s.pc s).2 with pc := s.pc + 1 }) ∧
    (∀ o, opOfByte s.opcodes (busRead s.pc s).1 = some o →
      (fetch s).after = { (busReadRun (o.format.length - 1) (s.pc + 1) (busRead s.pc s).2).2 with
          pc := s.pc + BitVec.ofNat 24 o.format.length } ∧
      (decodeOperands o (busReadRun (o.format.length - 1) (s.pc + 1) (busRead s.pc s).2).1 = none →
        (fetch s).instr = .error .reservedOperand) ∧
      (∀ i, decodeOperands o (busReadRun (o.format.length - 1) (s.pc + 1) (busRead s.pc s).2).1 = some i →
        (fetch s).instr = .ok i))

/-- One step resolves its events in the order of R250 and exactly one of them happens: halted, waiting, the highest eligible interrupt unless RTI was fetched, the decode faults, execution. With I set and NMI and a maskable source pending, NMI is dispatched and the maskable source stays pending. That the step which ends waiting only wakes is the spec's decision D20 (log 30), that an interrupt goes before a decode fault D21 (log 31), and the fault's record and its cost D22 (log 35). -/
def Obligations.StepResolvesEventsInOrder : Prop :=
  (∀ s : State, s.halted = true → step s = .next s) ∧
  (∀ s : State, s.halted = false → s.waiting = true → nextEligible s.pending s.flags.i = none →
    step s = .next { s with cycles := s.cycles + 1 }) ∧
  (∀ (s : State) (id : IrqSource), s.halted = false → s.waiting = true →
    nextEligible s.pending s.flags.i = some id →
    step s = .next { s with waiting := false, cycles := s.cycles + 1 }) ∧
  (∀ (s : State) (id : IrqSource), s.halted = false → s.waiting = false → (fetch s).opcode ≠ s.opcodes.byte .rti →
    nextEligible s.pending s.flags.i = some id →
    step s = .next { dispatch id s.pc (fetch s).after with cycles := s.cycles + 5 }) ∧
  (∀ (s : State) (k : DecodeFaultKind), s.halted = false → s.waiting = false →
    ((fetch s).opcode = s.opcodes.byte .rti ∨ nextEligible s.pending s.flags.i = none) → (fetch s).instr = .error k →
    step s = .next { (fetch s).after with
      halted := true, fault := some ⟨k, (fetch s).opcode, s.pc⟩, cycles := s.cycles + 1 }) ∧
  (∀ (s : State) (i : Instr), s.halted = false → s.waiting = false →
    ((fetch s).opcode = s.opcodes.byte .rti ∨ nextEligible s.pending s.flags.i = none) → (fetch s).instr = .ok i →
    step s = exec i (fetch s).after) ∧
  (∀ (s t : State) (k : IrqSource), s.halted = false → s.waiting = false → (fetch s).opcode ≠ s.opcodes.byte .rti →
    s.flags.i = true → s.pending.nmi = true → k ≠ .nmi → s.pending.has k = true → step s = .next t →
    t.pending.nmi = false ∧ t.pending.has k = true) ∧
  (∀ (s t : State), s.halted = false → s.waiting = false → (fetch s).opcode ≠ s.opcodes.byte .rti →
    s.flags.i = false → s.pending = { IrqSet.empty with timer0 := true, padEvent := true } → step s = .next t →
    t.pending = { IrqSet.empty with padEvent := true })

/-- No step and no instruction stops the model: from every state there is a next state (20 R51, 30 R100, 60 R240). -/
def Obligations.StepAlwaysAnswersNext : Prop :=
  (∀ s : State, ∃ t, step s = .next t) ∧ (∀ (i : Instr) (s : State), ∃ t, exec i s = .next t)

/-- `halted` (10 R34): set by HLT and by a decode fault and by nothing else, neither another step nor a load or a raise of the host; while set a step returns 0 and changes nothing; only reset clears it. -/
def Obligations.HaltedIsLeftByResetAlone : Prop :=
  (∀ s : State, ∃ t, exec .hlt s = .next t ∧ t.halted = true) ∧
  (∀ k op a0 s, (raiseDecodeFault k op a0 s).halted = true) ∧
  (∀ s t : State, s.halted = false → step s = .next t → t.halted = true →
    executes s .hlt ∨ ∃ k, raisesFault s k) ∧
  (∀ s : State, s.halted = true → step s = .next s ∧ stepCycles s = 0) ∧
  (∀ (act : HostAction) (s t : State), (∀ regs, act ≠ .reset regs) → s.halted = true →
    hostAct act s = .next t → t.halted = true) ∧
  (∀ (act : HostAction) (s t : State), (∀ regs, act ≠ .reset regs) → act ≠ .step →
    hostAct act s = .next t → t.halted = s.halted) ∧
  (∀ regs s, (hostReset regs s).halted = false) ∧
  State.reset.halted = false

/-- `waiting` (10 R35): set by WFI alone; cleared by reset or by the step that finds an eligible interrupt while it is set. -/
def Obligations.WaitingIsSetByWfiAlone : Prop :=
  (∀ s : State, ∃ t, exec .wfi s = .next t ∧ t.waiting = true) ∧
  (∀ s t : State, s.waiting = false → step s = .next t → t.waiting = true → executes s .wfi) ∧
  (∀ (s : State) (id : IrqSource), s.halted = false → s.waiting = true →
    nextEligible s.pending s.flags.i = some id → ∃ t, step s = .next t ∧ t.waiting = false) ∧
  (∀ s t : State, s.waiting = true → step s = .next t → t.waiting = false →
    ∃ id, nextEligible s.pending s.flags.i = some id) ∧
  (∀ (act : HostAction) (s t : State), (∀ regs, act ≠ .reset regs) → act ≠ .step →
    hostAct act s = .next t → t.waiting = s.waiting) ∧
  (∀ regs s, (hostReset regs s).waiting = false) ∧
  State.reset.waiting = false

/-- The value a step returns is the number added to `cycles`, and the only interrupt a step raises is the SWI of COP (60 R233). -/
def Obligations.StepAddsTheCyclesItReturns : Prop :=
  ∀ s t : State, step s = .next t →
    t.cycles = s.cycles + BitVec.ofNat 64 (stepCycles s) ∧
    ∀ id, t.pending.has id = true → s.pending.has id = true ∨ (id = .swi ∧ executes s .cop)

/-- The documented costs (70 R277 to R279): halted 0, waiting 1, dispatch 5, decode fault 1, RTI 5, HLT 1, branches 3 taken and 2 not, DIV in 2..12, every other instruction at least 1. The cost 1 of a decode fault and 3 of BRA are the spec's decisions D22 and D34; the costs left open are free values (log 2, log 3). -/
def Obligations.StepCostsAsDocumented : Prop :=
  (∀ s : State, s.halted = true → stepCycles s = 0) ∧
  (∀ s : State, s.halted = false → s.waiting = true → stepCycles s = 1) ∧
  (∀ s id, takesInterrupt s id → stepCycles s = 5) ∧
  (∀ s k, raisesFault s k → stepCycles s = 1) ∧
  (∀ s, executes s .rti → stepCycles s = 5) ∧
  (∀ s, executes s .hlt → stepCycles s = 1) ∧
  (∀ s off, executes s (.bra off) → stepCycles s = 3) ∧
  (∀ s off, executes s (.beq off) → stepCycles s = if s.flags.z then 3 else 2) ∧
  (∀ s off, executes s (.bne off) → stepCycles s = if s.flags.z then 2 else 3) ∧
  (∀ s off, executes s (.bcs off) → stepCycles s = if s.flags.c then 3 else 2) ∧
  (∀ s off, executes s (.bcc off) → stepCycles s = if s.flags.c then 2 else 3) ∧
  (∀ s off, executes s (.bmi off) → stepCycles s = if s.flags.n then 3 else 2) ∧
  (∀ s off, executes s (.bpl off) → stepCycles s = if s.flags.n then 2 else 3) ∧
  (∀ s off, executes s (.bvs off) → stepCycles s = if s.flags.v then 3 else 2) ∧
  (∀ s off, executes s (.bvc off) → stepCycles s = if s.flags.v then 2 else 3) ∧
  (∀ s r, executes s (.div r) → 2 ≤ stepCycles s ∧ stepCycles s ≤ 12) ∧
  (∀ s i, executes s i → 1 ≤ stepCycles s)

/-- A decode fault halts with its record and is precise (60 R240, R232): PC is past the fetched bytes, one byte for an unknown opcode and two for a reserved operand, and no register, flag or byte of memory changes; the draws and the record of handler accesses are those the fetch itself left (log 5, log 6), and nothing else changes. The record, the PC and the cost are the spec's decision D22 (log 35). -/
def Obligations.DecodeFaultHaltsWithItsRecord : Prop :=
  ∀ (s : State) (k : DecodeFaultKind), raisesFault s k →
    ∃ t, step s = .next t ∧ t.halted = true ∧
      t.fault = some { kind := k, opcode := (busRead s.pc s).1, addr := s.pc } ∧
      t.pc = s.pc + (match k with | .unknownOpcode => 1 | .reservedOperand => 2) ∧
      (∀ q, readReg q t = readReg q s) ∧ t.flags = s.flags ∧ t.mem = s.mem ∧
      t.pending = s.pending ∧ t.waiting = false ∧ t.cycles = s.cycles + 1 ∧
      t.handlers = s.handlers ∧ t.opcodes = s.opcodes ∧
      t.ioDraws = (fetch s).after.ioDraws ∧ t.ioEvents = (fetch s).after.ioEvents

/-! ## Interrupts -/

/-- `NextEligible` answers a pending source that is NMI or finds I clear and outranks every other such source in the order NMI, HBLANK, DMA_DONE, VLU_DONE, APU_BUF_EMPTY, TIMER0, PAD_EVENT, SWI, and none exactly when there is no such source; the check of a step asks it with the pending set and the I flag that step begins with (60 R245, the order of R244). -/
def Obligations.NextEligibleIsTheHighestPending : Prop :=
  (∀ (p : IrqSet) (i : Bool),
    let rank : IrqSource → Nat := fun
      | .nmi => 0 | .hblank => 1 | .dmaDone => 2 | .vluDone => 3
      | .apuBufEmpty => 4 | .timer0 => 5 | .padEvent => 6 | .swi => 7
    let ready : IrqSource → Prop := fun id => p.has id = true ∧ (id = .nmi ∨ i = false)
    (∀ id, nextEligible p i = some id ↔ (ready id ∧ ∀ k, ready k → rank id ≤ rank k)) ∧
    (nextEligible p i = none ↔ ∀ id, ¬ ready id)) ∧
  (∀ (s : State) (id : IrqSource), s.halted = false → s.waiting = false → (fetch s).opcode ≠ s.opcodes.byte .rti →
    (takesInterrupt s id ↔ nextEligible s.pending s.flags.i = some id))

/-- `pending` (60 R246, and 10 R38): IntRaise adds its source and nothing else, twice as once; a dispatch removes the source it dispatches and nothing else; COP adds SWI; every other step leaves it; load leaves it; reset empties it. That COP raises SWI is the spec's decision D18 (log 32). -/
def Obligations.PendingChangesAsStated : Prop :=
  (∀ id k s, (intRaise id s).pending.has k = (decide (k = id) || s.pending.has k)) ∧
  (∀ id s, intRaise id (intRaise id s) = intRaise id s) ∧
  (∀ id k s, (acknowledge id s).pending.has k = (!decide (k = id) && s.pending.has k)) ∧
  (∀ s t id, takesInterrupt s id → step s = .next t → t.pending = (acknowledge id s).pending) ∧
  (∀ s t, executes s .cop → step s = .next t → t.pending = (intRaise .swi s).pending) ∧
  (∀ s t, (∀ id, ¬ takesInterrupt s id) → ¬ executes s .cop → step s = .next t → t.pending = s.pending) ∧
  (∀ g bytes s t, load g bytes s = .next t → t.pending = s.pending) ∧
  (∀ id s t, raiseInterrupt (.source id) s = .next t → t.pending = (intRaise id s).pending) ∧
  (∀ regs s id, (hostReset regs s).pending.has id = false) ∧
  (∀ id, State.reset.pending.has id = false)

/-- Interrupt entry (60 R247, the vector slots of R242): the return address lies at SP, SP-1, SP-2 high byte first and the flags byte, with I as it was, at SP-3; SP is four lower, I is set, PC comes from the source's three-byte slot, low byte first, the source is no longer pending, and nothing else changes. The frame order is the spec's decision D7, the stack convention D5 and D6, the flags byte D8, the catalogue of sources D19. -/
def Obligations.InterruptEntryPushesTheFrame : Prop :=
  ∀ (id : IrqSource) (ret : Addr) (s : State), s.mem.wf = true →
    let slot : Addr := match id with
      | .swi => 0xFF0003 | .padEvent => 0xFF0006 | .timer0 => 0xFF0009 | .apuBufEmpty => 0xFF000C
      | .vluDone => 0xFF000F | .dmaDone => 0xFF0012 | .hblank => 0xFF0015 | .nmi => 0xFF0018
    ∃ t, dispatch id ret s = t ∧
      storedByte t (s.sp.setWidth 24) = ret.extractLsb' 16 8 ∧
      storedByte t ((s.sp - 1).setWidth 24) = ret.extractLsb' 8 8 ∧
      storedByte t ((s.sp - 2).setWidth 24) = ret.extractLsb' 0 8 ∧
      storedByte t ((s.sp - 3).setWidth 24) = flagsByte s.flags ∧
      (∀ b, b ≠ s.sp.setWidth 24 → b ≠ (s.sp - 1).setWidth 24 → b ≠ (s.sp - 2).setWidth 24 →
        b ≠ (s.sp - 3).setWidth 24 → storedByte t b = storedByte s b) ∧
      t = { s with
        sp := s.sp - 4
        flags := { s.flags with i := true }
        pending := (acknowledge id s).pending
        pc := (storedByte s (slot + 2) ++ storedByte s (slot + 1) ++ storedByte s slot : BitVec 24)
        mem := t.mem }

/-- RTI (44 R213): the flags from the byte above SP, PC from the three bytes above it, low byte first, SP four higher, five cycles, nothing else; memory keeps the popped bytes. The frame is the spec's decision D7. -/
def Obligations.RtiPopsFlagsThenPc : Prop :=
  ∀ s : State, exec .rti s = .next { s with
    flags :=
      let b := storedByte s ((s.sp + 1).setWidth 24)
      { n := b.getLsbD 7, v := b.getLsbD 6, d := b.getLsbD 3, i := b.getLsbD 2, z := b.getLsbD 1, c := b.getLsbD 0 }
    pc := (storedByte s ((s.sp + 4).setWidth 24) ++ storedByte s ((s.sp + 3).setWidth 24) ++
      storedByte s ((s.sp + 2).setWidth 24) : BitVec 24)
    sp := s.sp + 4
    cycles := s.cycles + 5 }

/-- An interrupt handler returns to the program it replaced. After interrupt entry, in any state with SP as entry left it and the four frame bytes untouched, RTI gives back the return address, all six flags and SP (60 R248). -/
def Obligations.RtiUndoesInterruptEntry : Prop :=
  ∀ (id : IrqSource) (ret : Addr) (s u : State), s.mem.wf = true →
    u.sp = (dispatch id ret s).sp →
    (∀ k : Nat, k < 4 → storedByte u ((s.sp - BitVec.ofNat 16 k).setWidth 24) =
      storedByte (dispatch id ret s) ((s.sp - BitVec.ofNat 16 k).setWidth 24)) →
    ∃ t, exec .rti u = .next t ∧ t.pc = ret ∧ t.flags = s.flags ∧ t.sp = s.sp ∧
      (∀ q, q ≠ .sp → readReg q t = readReg q u) ∧ t.mem = u.mem ∧ t.pending = u.pending

/-- Interrupt latency in steps (70 R276): a waiting Engine first only wakes and the step after that dispatches, pushing the address it waited at; a running Engine dispatches the highest eligible source at once; in both unless RTI is fetched. The wake step is the spec's decision D20. -/
def Obligations.WaitingEngineWakesThenDispatches : Prop :=
  ∀ (s : State) (id : IrqSource), s.halted = false → nextEligible s.pending s.flags.i = some id →
    (s.waiting = true →
      ∃ t, step s = .next t ∧ t = { s with waiting := false, cycles := s.cycles + 1 } ∧
        ((fetch t).opcode ≠ t.opcodes.byte .rti →
          step t = .next { dispatch id t.pc (fetch t).after with cycles := s.cycles + 6 })) ∧
    (s.waiting = false → (fetch s).opcode ≠ s.opcodes.byte .rti →
      step s = .next { dispatch id s.pc (fetch s).after with cycles := s.cycles + 5 })

/-! ## Flags -/

/-- The arithmetic flags (41 R140), in both forms the rule gives: of an addition and of a subtraction, C is the carry out of bit 15 or the borrow, V says that the signed result leaves the 16-bit range, Z and N are those of the result. -/
def Obligations.ArithmeticFlagsAreR140s : Prop :=
  ∀ (a b : Word) (f : Flags),
    addResult a b = a + b ∧
    (addResult a b).toNat = (a.toNat + b.toNat) % 65536 ∧
    ((flagsAdd a b f).c = true ↔ 65536 ≤ a.toNat + b.toNat) ∧
    (flagsAdd a b f).c = (a.setWidth 17 + b.setWidth 17).getLsbD 16 ∧
    ((flagsAdd a b f).v = true ↔ (a.toInt + b.toInt < -32768 ∨ 32767 < a.toInt + b.toInt)) ∧
    ((flagsAdd a b f).v = true ↔ (a.getLsbD 15 = b.getLsbD 15 ∧ (a + b).getLsbD 15 ≠ a.getLsbD 15)) ∧
    ((flagsAdd a b f).z = true ↔ a + b = 0) ∧ (flagsAdd a b f).n = (a + b).getLsbD 15 ∧
    ((flagsSub a b f).c = true ↔ a.toNat < b.toNat) ∧
    ((flagsSub a b f).v = true ↔ (a.toInt - b.toInt < -32768 ∨ 32767 < a.toInt - b.toInt)) ∧
    ((flagsSub a b f).v = true ↔ (a.getLsbD 15 ≠ b.getLsbD 15 ∧ (a - b).getLsbD 15 ≠ a.getLsbD 15)) ∧
    ((flagsSub a b f).z = true ↔ a - b = 0) ∧ (flagsSub a b f).n = (a - b).getLsbD 15 ∧
    (∀ r : Word, ((flagsZN r f).z = true ↔ r = 0) ∧ (flagsZN r f).n = r.getLsbD 15)

/-- The flags byte (10 R33): N V 0 0 D I Z C, and pulling a byte ignores bits 5 and 4. The layout is the spec's decision D8 (log 24). -/
def Obligations.FlagsByteLayout : Prop :=
  (∀ f : Flags,
    (flagsByte f).toNat = f.n.toNat * 128 + f.v.toNat * 64 + f.d.toNat * 8 + f.i.toNat * 4 + f.z.toNat * 2 + f.c.toNat) ∧
  (∀ f : Flags, flagsOfByte (flagsByte f) = f) ∧
  (∀ b : Byte, flagsByte (flagsOfByte b) = b &&& 0xCF)

/-- D, the decimal flag (10 R30): it has no effect on any instruction but RTI, which alone writes it, from bit 3 of the byte it pulls; interrupt entry pushes it there and keeps it; reset clears it. Where the byte lies, pulled at SP + 1 and pushed at SP - 3, is the spec's decisions D5, D6 and D7 (log 21, log 22, log 23), the flags byte's layout D8 (log 24). -/
def Obligations.DecimalFlagHasNoEffect : Prop :=
  (∀ (i : Instr) (s t : State) (b : Bool), i ≠ .rti → exec i s = .next t →
    t.flags.d = s.flags.d ∧
    exec i { s with flags := { s.flags with d := b } } = .next { t with flags := { t.flags with d := b } }) ∧
  (∀ s t : State, exec .rti s = .next t →
    t.flags.d = (storedByte s ((s.sp + 1).setWidth 24)).getLsbD 3) ∧
  (∀ id ret s, s.mem.wf = true →
    (storedByte (dispatch id ret s) ((s.sp - 3).setWidth 24)).getLsbD 3 = s.flags.d) ∧
  (∀ id ret s, (dispatch id ret s).flags.d = s.flags.d) ∧
  (∀ regs s, (hostReset regs s).flags.d = false) ∧ State.reset.flags.d = false

/-- I, the interrupt-disable flag (10 R29): set by SEI and by every interrupt entry, cleared by CLI, written by RTI from the stacked byte, left by every other instruction; with I set no maskable source is eligible; reset clears it. That RTI reads bit 2 (10 R33) of the byte at SP + 1 is the spec's decisions D8 (log 24), D5, D6 and D7 (log 21, log 22, log 23). -/
def Obligations.InterruptDisableFlagWriters : Prop :=
  (∀ s : State, ∃ t, exec .sei s = .next t ∧ t.flags.i = true) ∧
  (∀ s : State, ∃ t, exec .cli s = .next t ∧ t.flags.i = false) ∧
  (∀ id ret s, (dispatch id ret s).flags.i = true) ∧
  (∀ s t : State, exec .rti s = .next t → t.flags.i = (storedByte s ((s.sp + 1).setWidth 24)).getLsbD 2) ∧
  (∀ (i : Instr) (s t : State), i ≠ .sei → i ≠ .cli → i ≠ .rti → exec i s = .next t → t.flags.i = s.flags.i) ∧
  (∀ (p : IrqSet) (id : IrqSource), nextEligible p true = some id → id = .nmi) ∧
  (∀ regs s, (hostReset regs s).flags.i = false) ∧ State.reset.flags.i = false

/-! ## Memory and the Bus -/

/-- The region table (20 R50), address by address. -/
def Obligations.RegionTableIsR50s : Prop :=
  ∀ a : Addr, regionAt a =
    if a.toNat ≤ 0x00FFFF then some ⟨.workRam, 0x000000, 0x00FFFF, .readWrite⟩
    else if a.toNat ≤ 0x03FFFF then some ⟨.expandedRam, 0x010000, 0x03FFFF, .readWrite⟩
    else if 0x100000 ≤ a.toNat ∧ a.toNat ≤ 0x10FFFF then some ⟨.io, 0x100000, 0x10FFFF, .readWrite⟩
    else if 0x200000 ≤ a.toNat ∧ a.toNat ≤ 0x27FFFF then some ⟨.vram, 0x200000, 0x27FFFF, .readWrite⟩
    else if 0x280000 ≤ a.toNat ∧ a.toNat ≤ 0x28FFFF then some ⟨.cram, 0x280000, 0x28FFFF, .readWrite⟩
    else if 0x400000 ≤ a.toNat ∧ a.toNat ≤ 0x9FFFFF then some ⟨.cartRom, 0x400000, 0x9FFFFF, .readOnly⟩
    else if 0xA00000 ≤ a.toNat ∧ a.toNat ≤ 0xA3FFFF then some ⟨.cartSave, 0xA00000, 0xA3FFFF, .readWrite⟩
    else if 0xFF0000 ≤ a.toNat then some ⟨.bios, 0xFF0000, 0xFFFFFF, .readOnly⟩
    else none

/-- Side effects on read exist only in handler ranges (20 R65): every other read answers 0x00 in a gap and the stored byte in a region, and changes nothing; a read that changes the machine lies in a handler range, inside the I/O region. The gaps are those of R52, which the spec derives from R50; that handler ranges lie inside the I/O region is R57 (the spec's decision D25), and that the registry is consulted for addresses of that region only, whatever it holds, is DEDUCED from it (log 10). -/
def Obligations.BusReadIsPlainOutsideHandlers : Prop :=
  (∀ (s : State) (a : Addr),
    (∀ h ∈ s.handlers, ¬ (h.first.toNat ≤ a.toNat ∧ a.toNat ≤ h.last.toNat)) →
      busRead a s =
        (if (0x040000 ≤ a.toNat ∧ a.toNat ≤ 0x0FFFFF) ∨ (0x110000 ≤ a.toNat ∧ a.toNat ≤ 0x1FFFFF) ∨
            (0x290000 ≤ a.toNat ∧ a.toNat ≤ 0x3FFFFF) ∨ (0xA40000 ≤ a.toNat ∧ a.toNat ≤ 0xFEFFFF)
          then 0x00 else memGet s.mem a.toNat, s)) ∧
  (∀ (s : State) (a : Addr), (busRead a s).2 ≠ s →
    (∃ h ∈ s.handlers, h.first.toNat ≤ a.toNat ∧ a.toNat ≤ h.last.toNat) ∧ 0x100000 ≤ a.toNat ∧ a.toNat ≤ 0x10FFFF)

/-- `Bus.write` outside the handler ranges (20 R54): in a gap, CartROM or BIOS nothing happens; elsewhere that one byte of storage becomes v and memory keeps its canonical form. -/
def Obligations.BusWriteRoutesByAddress : Prop :=
  ∀ (s : State) (a : Addr) (v : Byte), s.mem.wf = true →
    (∀ h ∈ s.handlers, ¬ (h.first.toNat ≤ a.toNat ∧ a.toNat ≤ h.last.toNat)) →
      if (0x040000 ≤ a.toNat ∧ a.toNat ≤ 0x0FFFFF) ∨ (0x110000 ≤ a.toNat ∧ a.toNat ≤ 0x1FFFFF) ∨
          (0x290000 ≤ a.toNat ∧ a.toNat ≤ 0x9FFFFF) ∨ 0xA40000 ≤ a.toNat
      then busWrite a v s = s
      else ∃ m : Memory, busWrite a v s = { s with mem := m } ∧ m.wf = true ∧
        ∀ n, memGet m n = if n = a.toNat then v else memGet s.mem n

/-- A registered handler serves every address of its range (20 R57, R58): a read answers the next free byte, a write is handed the byte, each is recorded with its offset from the start of the range, and nothing else changes. The offset is the spec's decision D25, the form of the record and of the free byte the model's (log 5, log 6). -/
def Obligations.HandlersServeTheirRanges : Prop :=
  ∀ (s : State) (a : Addr) (v : Byte), handlersOk s.handlers = true →
    ∀ h ∈ s.handlers, h.first.toNat ≤ a.toNat → a.toNat ≤ h.last.toNat →
      busRead a s = (Config.ioReadByte s.ioDraws,
        { s with
          ioDraws := s.ioDraws + 1
          ioEvents := .read a (a - h.first) (Config.ioReadByte s.ioDraws) :: s.ioEvents }) ∧
      busWrite a v s = { s with ioEvents := .write a (a - h.first) v :: s.ioEvents }

/-- A byte written to a ReadWrite address outside the handler ranges is read back (20 R56), and an I/O address in no handler range is such an address (R59). -/
def Obligations.ReadBackAfterWrite : Prop :=
  (∀ (s : State) (a : Addr) (v : Byte), s.mem.wf = true → writable s a →
    (busRead a (busWrite a v s)).1 = v ∧
    (∀ b, b ≠ a → storedByte (busWrite a v s) b = storedByte s b)) ∧
  (∀ (s : State) (a : Addr), 0x100000 ≤ a.toNat → a.toNat ≤ 0x10FFFF →
    handlerAt s.handlers a = none → writable s a)

/-- CartROM and BIOS are ReadOnly to every Bus write (20 R55): no write, no step, no reset and no raise changes a byte of them, and a load of another region does not either. -/
def Obligations.ReadOnlyStorageChangesByLoadAlone : Prop :=
  ∀ (s t : State) (a : Addr),
    ((0x400000 ≤ a.toNat ∧ a.toNat ≤ 0x9FFFFF) ∨ 0xFF0000 ≤ a.toNat) →
    (∀ (b : Addr) (v : Byte), storedByte (busWrite b v s) a = storedByte s a) ∧
    (step s = .next t → storedByte t a = storedByte s a) ∧
    (∀ regs, storedByte (hostReset regs s) a = storedByte s a) ∧
    (∀ id, raiseInterrupt id s = .next t → storedByte t a = storedByte s a) ∧
    (∀ g bytes, g ≠ .cartRom → g ≠ .bios → load g bytes s = .next t → storedByte t a = storedByte s a)

/-- Little-endian (20 R60): the immediate and the absolute address of LDA (those of the other rows are in their own statements), 16-bit loads and stores, vectors and the reset vector have their least significant byte at the lowest address. Stated for plain storage; a handler range is served byte by byte in the same order (HandlersServeTheirRanges, AbsoluteLoads, AbsoluteStores). -/
def Obligations.MultiByteValuesAreLittleEndian : Prop :=
  (∀ (lo hi : Byte) (rest : List Byte), decode (0x01 :: lo :: hi :: rest) = .ok (.ldaImm (hi ++ lo), rest)) ∧
  (∀ (b1 b2 b3 : Byte) (rest : List Byte),
    decode (0x02 :: b1 :: b2 :: b3 :: rest) = .ok (.ldaAbs (b3 ++ b2 ++ b1), rest)) ∧
  (∀ (s : State) (a : Addr), handlerAt s.handlers a = none → handlerAt s.handlers (a + 1) = none →
    memRead16 a s = (storedByte s (a + 1) ++ storedByte s a, s)) ∧
  (∀ (s : State) (a : Addr) (v : Word), s.mem.wf = true → writable s a → writable s (a + 1) →
    storedByte (memWrite16 a v s) a = v.extractLsb' 0 8 ∧
    storedByte (memWrite16 a v s) (a + 1) = v.extractLsb' 8 8) ∧
  (∀ id ret s, (dispatch id ret s).pc =
    storedByte s (vectorAddr id + 2) ++ storedByte s (vectorAddr id + 1) ++ storedByte s (vectorAddr id)) ∧
  (∀ regs s, (hostReset regs s).pc =
    storedByte s 0xFF0002 ++ storedByte s 0xFF0001 ++ storedByte s 0xFF0000)

/-- A mixed-width access sees bytes (20 R61): after a 16-bit store at a, a byte read of a gives its low byte, and a 16-bit read one address lower gives that low byte above the byte before. -/
def Obligations.MixedWidthAccessSeesBytes : Prop :=
  ∀ (s : State) (a : Addr) (v : Word), s.mem.wf = true → writable s a → writable s (a + 1) →
    handlerAt s.handlers (a - 1) = none →
    (busRead a (memWrite16 a v s)).1 = v.extractLsb' 0 8 ∧
    (memRead16 a (memWrite16 a v s)).1 = v ∧
    (memRead16 (a - 1) (memWrite16 a v s)).1 = v.extractLsb' 0 8 ++ storedByte s (a - 1)

/-- The stack (20 R69 to R71): a 24-bit push stores its high byte at SP, the middle and low bytes below it, all in WorkRAM, and lowers SP by 3 modulo 2^16; a pop right after gives the value back and restores SP. The discipline is the spec's decision D5 and D6. -/
def Obligations.PopReturnsWhatPushStored : Prop :=
  ∀ (s : State) (v : Addr), s.mem.wf = true →
    (push24 v s).sp = s.sp - 3 ∧
    storedByte (push24 v s) (s.sp.setWidth 24) = v.extractLsb' 16 8 ∧
    storedByte (push24 v s) ((s.sp - 1).setWidth 24) = v.extractLsb' 8 8 ∧
    storedByte (push24 v s) ((s.sp - 2).setWidth 24) = v.extractLsb' 0 8 ∧
    (∀ b : Addr, 0x10000 ≤ b.toNat → storedByte (push24 v s) b = storedByte s b) ∧
    (pop24 (push24 v s)).1 = v ∧ (pop24 (push24 v s)).2.sp = s.sp ∧
    (∀ b : Byte, (pop8 (push8 b s)).1 = b ∧ (pop8 (push8 b s)).2.sp = s.sp)

/-! ## Loads and stores -/

/-- LDA, LDX, LDY with an immediate (40 R120, R123, R126): the register, Z, N, the cost, and nothing else. The flag table is the spec's decision D9; opcode bytes other than 0x01 are D1. -/
def Obligations.ImmediateLoads : Prop :=
  ∀ (lo hi : Byte) (rest : List Byte) (s : State),
    let v : Word := hi ++ lo
    let f : Flags := { s.flags with z := decide (v = 0), n := v.getLsbD 15 }
    decode (0x01 :: lo :: hi :: rest) = .ok (.ldaImm v, rest) ∧
    exec (.ldaImm v) s =
      .next { s with a := v, flags := f, cycles := s.cycles + BitVec.ofNat 64 (baseCycles .ldaImm) } ∧
    decode (0x04 :: lo :: hi :: rest) = .ok (.ldxImm v, rest) ∧
    exec (.ldxImm v) s =
      .next { s with x := v, flags := f, cycles := s.cycles + BitVec.ofNat 64 (baseCycles .ldxImm) } ∧
    decode (0x07 :: lo :: hi :: rest) = .ok (.ldyImm v, rest) ∧
    exec (.ldyImm v) s =
      .next { s with y := v, flags := f, cycles := s.cycles + BitVec.ofNat 64 (baseCycles .ldyImm) }

/-- LDA, LDX, LDY absolute (40 R121, R124, R127): the byte at the address, then the byte at the next one modulo 2^24, each one Bus read; the register, Z, N, the cost, and nothing else but what the Bus reads themselves record (the form of that record is the model's, log 5 and log 6). Rests on D9 (flags) and D12 (16 bits). -/
def Obligations.AbsoluteLoads : Prop :=
  ∀ (b1 b2 b3 : Byte) (rest : List Byte) (s : State),
    let addr : Addr := b3 ++ b2 ++ b1
    let lo := busRead addr s
    let hi := busRead (addr + 1) lo.2
    let v : Word := hi.1 ++ lo.1
    let f : Flags := { s.flags with z := decide (v = 0), n := v.getLsbD 15 }
    let u : State := { s with ioDraws := hi.2.ioDraws, ioEvents := hi.2.ioEvents }
    decode (0x02 :: b1 :: b2 :: b3 :: rest) = .ok (.ldaAbs addr, rest) ∧
    exec (.ldaAbs addr) s =
      .next { u with a := v, flags := f, cycles := s.cycles + BitVec.ofNat 64 (baseCycles .ldaAbs) } ∧
    decode (0x05 :: b1 :: b2 :: b3 :: rest) = .ok (.ldxAbs addr, rest) ∧
    exec (.ldxAbs addr) s =
      .next { u with x := v, flags := f, cycles := s.cycles + BitVec.ofNat 64 (baseCycles .ldxAbs) } ∧
    decode (0x08 :: b1 :: b2 :: b3 :: rest) = .ok (.ldyAbs addr, rest) ∧
    exec (.ldyAbs addr) s =
      .next { u with y := v, flags := f, cycles := s.cycles + BitVec.ofNat 64 (baseCycles .ldyAbs) }

/-- STA, STX, STY (40 R122, R125, R128): the low byte to the address, then the high byte to the next one modulo 2^24. A writable byte takes its value, a ReadOnly, unmapped or handler byte of storage stays, a handler sees its byte, every other byte and every register and flag stays. The order and the width are the spec's decisions D13 and D12. What a handler sees is 20 R57 and R58 with the offset of D25, and its record, newest first, is the model's own (log 6, DESIGN CHOICE). -/
def Obligations.AbsoluteStores : Prop :=
  ∀ (b1 b2 b3 : Byte) (rest : List Byte) (s : State), s.mem.wf = true →
    let addr : Addr := b3 ++ b2 ++ b1
    let seen : Addr → Byte → List IoEvent := fun a v =>
      match handlerAt s.handlers a with
      | some h => [.write a (a - h.first) v]
      | none => []
    let stores : Instr → Op → Word → Prop := fun i o v =>
      ∃ t, exec i s = .next t ∧
        t = { s with
          mem := t.mem
          ioEvents := t.ioEvents
          cycles := s.cycles + BitVec.ofNat 64 (baseCycles o) } ∧
        t.ioEvents = seen (addr + 1) (v.extractLsb' 8 8) ++ seen addr (v.extractLsb' 0 8) ++ s.ioEvents ∧
        (writable s addr → storedByte t addr = v.extractLsb' 0 8) ∧
        (¬ writable s addr → storedByte t addr = storedByte s addr) ∧
        (writable s (addr + 1) → storedByte t (addr + 1) = v.extractLsb' 8 8) ∧
        (¬ writable s (addr + 1) → storedByte t (addr + 1) = storedByte s (addr + 1)) ∧
        (∀ b, b ≠ addr → b ≠ addr + 1 → storedByte t b = storedByte s b)
    decode (0x03 :: b1 :: b2 :: b3 :: rest) = .ok (.staAbs addr, rest) ∧ stores (.staAbs addr) .staAbs s.a ∧
    decode (0x06 :: b1 :: b2 :: b3 :: rest) = .ok (.stxAbs addr, rest) ∧ stores (.stxAbs addr) .stxAbs s.x ∧
    decode (0x09 :: b1 :: b2 :: b3 :: rest) = .ok (.styAbs addr, rest) ∧ stores (.styAbs addr) .styAbs s.y

/-! ## Arithmetic and logic -/

/-- ADD and SUB (41 R141, R142): the result modulo 2^16 in A with no carry or borrow taken in (the spec's decision D10), C, V, Z and N by the exact unsigned and signed results, and nothing else. -/
def Obligations.AddAndSubtract : Prop :=
  ∀ (lo hi : Byte) (rest : List Byte) (s : State),
    let v : Word := hi ++ lo
    decode (0x10 :: lo :: hi :: rest) = .ok (.addImm v, rest) ∧
    (∃ t, exec (.addImm v) s = .next t ∧
      t = { s with a := t.a, flags := t.flags, cycles := s.cycles + BitVec.ofNat 64 (baseCycles .addImm) } ∧
      t.a.toNat = (s.a.toNat + v.toNat) % 65536 ∧
      (t.flags.c = true ↔ 65536 ≤ s.a.toNat + v.toNat) ∧
      (t.flags.v = true ↔ (s.a.toInt + v.toInt < -32768 ∨ 32767 < s.a.toInt + v.toInt)) ∧
      (t.flags.z = true ↔ t.a = 0) ∧ t.flags.n = t.a.getLsbD 15 ∧
      t.flags.i = s.flags.i ∧ t.flags.d = s.flags.d) ∧
    decode (0x11 :: lo :: hi :: rest) = .ok (.subImm v, rest) ∧
    (∃ t, exec (.subImm v) s = .next t ∧
      t = { s with a := t.a, flags := t.flags, cycles := s.cycles + BitVec.ofNat 64 (baseCycles .subImm) } ∧
      (t.a.toNat : Int) = ((s.a.toNat : Int) - v.toNat) % 65536 ∧
      (t.flags.c = true ↔ s.a.toNat < v.toNat) ∧
      (t.flags.v = true ↔ (s.a.toInt - v.toInt < -32768 ∨ 32767 < s.a.toInt - v.toInt)) ∧
      (t.flags.z = true ↔ t.a = 0) ∧ t.flags.n = t.a.getLsbD 15 ∧
      t.flags.i = s.flags.i ∧ t.flags.d = s.flags.d)

/-- AND, OR, XOR (41 R143, R144, R145): bit by bit into A, Z and N of the result, nothing else. The flag table is the spec's decision D9. -/
def Obligations.BitwiseLogic : Prop :=
  ∀ (lo hi : Byte) (rest : List Byte) (s : State),
    let v : Word := hi ++ lo
    let result : Instr → Op → (Bool → Bool → Bool) → Prop := fun i o g =>
      ∃ t, exec i s = .next t ∧
        t = { s with
          a := t.a
          flags := { s.flags with z := decide (t.a = 0), n := t.a.getLsbD 15 }
          cycles := s.cycles + BitVec.ofNat 64 (baseCycles o) } ∧
        ∀ k, k < 16 → t.a.getLsbD k = g (s.a.getLsbD k) (v.getLsbD k)
    decode (0x12 :: lo :: hi :: rest) = .ok (.andImm v, rest) ∧ result (.andImm v) .andImm (fun p q => p && q) ∧
    decode (0x13 :: lo :: hi :: rest) = .ok (.orImm v, rest) ∧ result (.orImm v) .orImm (fun p q => p || q) ∧
    decode (0x14 :: lo :: hi :: rest) = .ok (.xorImm v, rest) ∧ result (.xorImm v) .xorImm (fun p q => p ^^ q)

/-! ## Register operations -/

/-- MUL r (42 R170, R179): X and A together are the exact unsigned product of the old A and the old register; Z and N of A, C iff X is not 0; V, I, D and everything else stay. Operands, result registers and flags are the spec's decisions D14, D3 and D9. -/
def Obligations.MultiplyIsExact : Prop :=
  ∀ (r : Reg) (rest : List Byte) (s : State),
    decode (0x50 :: (regId r ++ (0 : BitVec 4)) :: rest) = .ok (.mul r, rest) ∧
    ∃ t, exec (.mul r) s = .next t ∧
      t.x.toNat * 65536 + t.a.toNat = s.a.toNat * (readReg r s).toNat ∧
      (t.flags.z = true ↔ t.a = 0) ∧ t.flags.n = t.a.getLsbD 15 ∧ (t.flags.c = true ↔ t.x ≠ 0) ∧
      t = { s with
        a := t.a
        x := t.x
        flags := { s.flags with z := t.flags.z, n := t.flags.n, c := t.flags.c }
        cycles := s.cycles + BitVec.ofNat 64 (baseCycles .mul) }

/-- DIV r (42 R171, R179): for a divisor that is not 0, dividend = quotient * divisor + remainder with the remainder smaller, quotient in A, remainder in X, V clear; for 0, A = 0xFFFF, X = the dividend, V set, no trap; Z and N of A; C, I, D and everything else stay; the cost lies in 2..12. Operands, results and the divide-by-zero result are the spec's decisions D15 and D16 (log 29, log 3). -/
def Obligations.DivideQuotientAndRemainder : Prop :=
  ∀ (r : Reg) (rest : List Byte) (s : State),
    decode (0x51 :: (regId r ++ (0 : BitVec 4)) :: rest) = .ok (.div r, rest) ∧
    ∃ t, exec (.div r) s = .next t ∧
      (readReg r s ≠ 0 →
        s.a.toNat = t.a.toNat * (readReg r s).toNat + t.x.toNat ∧ t.x.toNat < (readReg r s).toNat ∧
        t.flags.v = false) ∧
      (readReg r s = 0 → t.a = 0xFFFF ∧ t.x = s.a ∧ t.flags.v = true) ∧
      (t.flags.z = true ↔ t.a = 0) ∧ t.flags.n = t.a.getLsbD 15 ∧
      (∃ c, 2 ≤ c ∧ c ≤ 12 ∧ t.cycles = s.cycles + BitVec.ofNat 64 c) ∧
      t = { s with
        a := t.a
        x := t.x
        flags := { s.flags with z := t.flags.z, n := t.flags.n, v := t.flags.v }
        cycles := t.cycles }

/-- MOV d, s (42 R172): the destination gets the source's old value, every other register, every flag and everything else stays. The form and its flags are the spec's decisions D3, D9 and D32 (SP can be named). -/
def Obligations.MoveCopiesOneRegister : Prop :=
  ∀ (d src : Reg) (rest : List Byte) (s : State),
    decode (0x52 :: (regId d ++ regId src) :: rest) = .ok (.mov d src, rest) ∧
    ∃ t, exec (.mov d src) s = .next t ∧
      (∀ q, readReg q t = if q = d then readReg src s else readReg q s) ∧
      t = { s.withRegsOf t with cycles := s.cycles + BitVec.ofNat 64 (baseCycles .mov) }

/-- INC r and DEC r (42 R173, R174): the register plus or minus one modulo 2^16, Z and N of the result, C and V and everything else stay. The flags are the spec's decision D9, naming SP is D32. -/
def Obligations.IncrementAndDecrement : Prop :=
  ∀ (r : Reg) (rest : List Byte) (s : State),
    let result : Instr → Op → Nat → Prop := fun i o step =>
      ∃ t, exec i s = .next t ∧
        (readReg r t).toNat = ((readReg r s).toNat + step) % 65536 ∧
        (∀ q, q ≠ r → readReg q t = readReg q s) ∧
        t = { s.withRegsOf t with
          flags := { s.flags with z := decide (readReg r t = 0), n := (readReg r t).getLsbD 15 }
          cycles := s.cycles + BitVec.ofNat 64 (baseCycles o) }
    decode (0x53 :: (regId r ++ (0 : BitVec 4)) :: rest) = .ok (.inc r, rest) ∧ result (.inc r) .inc 1 ∧
    decode (0x54 :: (regId r ++ (0 : BitVec 4)) :: rest) = .ok (.dec r, rest) ∧ result (.dec r) .dec 65535

/-- BIT, BSET, BCLR (42 R176, R177, R178): BIT sets Z iff the bit is 0 and changes nothing else; BSET and BCLR change that one bit of the register and no flag. Flags are the spec's decision D9, naming SP is D32. -/
def Obligations.BitTestSetClear : Prop :=
  ∀ (r : Reg) (b : BitVec 4) (rest : List Byte) (s : State),
    let result : Instr → Op → Bool → Prop := fun i o w =>
      ∃ t, exec i s = .next t ∧
        (∀ k, k < 16 → (readReg r t).getLsbD k = if k = b.toNat then w else (readReg r s).getLsbD k) ∧
        (∀ q, q ≠ r → readReg q t = readReg q s) ∧
        t = { s.withRegsOf t with cycles := s.cycles + BitVec.ofNat 64 (baseCycles o) }
    decode (0x55 :: (regId r ++ b) :: rest) = .ok (.bit r b.toNat, rest) ∧
    exec (.bit r b.toNat) s = .next { s with
      flags := { s.flags with z := !(readReg r s).getLsbD b.toNat }
      cycles := s.cycles + BitVec.ofNat 64 (baseCycles .bit) } ∧
    decode (0x56 :: (regId r ++ b) :: rest) = .ok (.bset r b.toNat, rest) ∧ result (.bset r b.toNat) .bset true ∧
    decode (0x57 :: (regId r ++ b) :: rest) = .ok (.bclr r b.toNat, rest) ∧ result (.bclr r b.toNat) .bclr false

/-! ## Control transfer -/

/-- JMP (43 R190): PC becomes the address, whatever it is; nothing else but the cost. -/
def Obligations.JumpGoesToItsAddress : Prop :=
  ∀ (b1 b2 b3 : Byte) (rest : List Byte) (s : State),
    decode (0x20 :: b1 :: b2 :: b3 :: rest) = .ok (.jmp (b3 ++ b2 ++ b1), rest) ∧
    exec (.jmp (b3 ++ b2 ++ b1)) s =
      .next { s with pc := b3 ++ b2 ++ b1, cycles := s.cycles + BitVec.ofNat 64 (baseCycles .jmp) }

/-- JSR (43 R191): the address of the next instruction on the stack, SP three lower modulo 2^16, PC the target, nothing else. The byte order of the push is the spec's decision D6. -/
def Obligations.CallPushesTheReturnAddress : Prop :=
  ∀ (b1 b2 b3 : Byte) (rest : List Byte) (s : State), s.mem.wf = true →
    decode (0x21 :: b1 :: b2 :: b3 :: rest) = .ok (.jsr (b3 ++ b2 ++ b1), rest) ∧
    ∃ t, exec (.jsr (b3 ++ b2 ++ b1)) s = .next t ∧
      storedByte t (s.sp.setWidth 24) = s.pc.extractLsb' 16 8 ∧
      storedByte t ((s.sp - 1).setWidth 24) = s.pc.extractLsb' 8 8 ∧
      storedByte t ((s.sp - 2).setWidth 24) = s.pc.extractLsb' 0 8 ∧
      (∀ b, b ≠ s.sp.setWidth 24 → b ≠ (s.sp - 1).setWidth 24 → b ≠ (s.sp - 2).setWidth 24 →
        storedByte t b = storedByte s b) ∧
      t = { s with
        sp := s.sp - 3
        pc := b3 ++ b2 ++ b1
        mem := t.mem
        cycles := s.cycles + BitVec.ofNat 64 (baseCycles .jsr) }

/-- RTS (43 R192): PC from the three bytes above SP, whatever they hold, SP three higher modulo 2^16, nothing else. -/
def Obligations.ReturnPopsPc : Prop :=
  ∀ (rest : List Byte) (s : State),
    decode (0x22 :: rest) = .ok (.rts, rest) ∧
    exec .rts s = .next { s with
      pc := storedByte s ((s.sp + 3).setWidth 24) ++ storedByte s ((s.sp + 2).setWidth 24) ++
        storedByte s ((s.sp + 1).setWidth 24)
      sp := s.sp + 3
      cycles := s.cycles + BitVec.ofNat 64 (baseCycles .rts) }

/-- A subroutine returns to its caller. After JSR, in any state with SP as the call left it and the three stacked bytes untouched, RTS goes to the instruction after the JSR with SP as before the call (43 R192, the source's property S6). -/
def Obligations.ReturnUndoesCall : Prop :=
  ∀ (addr : Addr) (s : State), s.mem.wf = true →
    ∃ t, exec (.jsr addr) s = .next t ∧ t.pc = addr ∧
      ∀ u : State, u.sp = t.sp →
        (∀ k : Nat, k < 3 → storedByte u ((s.sp - BitVec.ofNat 16 k).setWidth 24) =
          storedByte t ((s.sp - BitVec.ofNat 16 k).setWidth 24)) →
        ∃ w, exec .rts u = .next w ∧ w.pc = s.pc ∧ w.sp = s.sp ∧
          (∀ q, q ≠ .sp → readReg q w = readReg q u) ∧ w.flags = u.flags ∧ w.mem = u.mem

/-- The nine branches (43 R193 to R202): to PC_next plus the sign-extended displacement modulo 2^24 in 3 cycles when the condition holds, else on to PC_next in 2; no flag and nothing else. The displacement form is the spec's decision D11, BRA's cost D34. -/
def Obligations.BranchesGoOnTheirCondition : Prop :=
  ∀ (b : Byte) (rest : List Byte) (s : State),
    let taken : State := { s with pc := s.pc + b.signExtend 24, cycles := s.cycles + 3 }
    let passed : State := { s with cycles := s.cycles + 2 }
    let branches : Byte → Instr → Bool → Prop := fun op i cond =>
      decode (op :: b :: rest) = .ok (i, rest) ∧ exec i s = .next (if cond then taken else passed)
    branches 0x30 (.bra b.toInt) true ∧
    branches 0x31 (.beq b.toInt) s.flags.z ∧ branches 0x32 (.bne b.toInt) (!s.flags.z) ∧
    branches 0x33 (.bcs b.toInt) s.flags.c ∧ branches 0x34 (.bcc b.toInt) (!s.flags.c) ∧
    branches 0x35 (.bmi b.toInt) s.flags.n ∧ branches 0x36 (.bpl b.toInt) (!s.flags.n) ∧
    branches 0x37 (.bvs b.toInt) s.flags.v ∧ branches 0x38 (.bvc b.toInt) (!s.flags.v)

/-! ## System instructions -/

/-- SEI and CLI (44 R211, R212): I and the cost alone. The very next interrupt check sees the new I: with I set only a pending NMI is eligible, and the next step takes no other source; with I clear every pending source is eligible, and the next step of a running Engine that does not fetch RTI takes an interrupt. -/
def Obligations.SetAndClearInterruptDisable : Prop :=
  ∀ (rest : List Byte) (s : State),
    decode (0x40 :: rest) = .ok (.sei, rest) ∧
    exec .sei s = .next { s with
      flags := { s.flags with i := true }
      cycles := s.cycles + BitVec.ofNat 64 (baseCycles .sei) } ∧
    decode (0x41 :: rest) = .ok (.cli, rest) ∧
    exec .cli s = .next { s with
      flags := { s.flags with i := false }
      cycles := s.cycles + BitVec.ofNat 64 (baseCycles .cli) } ∧
    (∀ t, exec .sei s = .next t →
      (nextEligible t.pending t.flags.i = if s.pending.nmi then some .nmi else none) ∧
      ∀ k, takesInterrupt t k → k = .nmi) ∧
    (∀ t id, exec .cli s = .next t → s.pending.has id = true →
      eligible t.pending t.flags.i id = true ∧
      (t.halted = false → t.waiting = false → (fetch t).opcode ≠ t.opcodes.byte .rti →
        ∃ k, takesInterrupt t k))

/-- NOP, WFI, COP (44 R210, R214, R215): nothing; `waiting` set; SWI pending, twice as once; each with its cost and no flag, and nothing else. NOP's byte is the spec's decision D1, COP's role D18 (log 32). -/
def Obligations.NopWfiCop : Prop :=
  ∀ (rest : List Byte) (s : State),
    decode (0x00 :: rest) = .ok (.nop, rest) ∧
    exec .nop s = .next { s with cycles := s.cycles + BitVec.ofNat 64 (baseCycles .nop) } ∧
    decode (0x43 :: rest) = .ok (.wfi, rest) ∧
    exec .wfi s = .next { s with waiting := true, cycles := s.cycles + BitVec.ofNat 64 (baseCycles .wfi) } ∧
    decode (0x60 :: rest) = .ok (.cop, rest) ∧
    exec .cop s = .next { s with
      pending := { s.pending with swi := true }
      cycles := s.cycles + BitVec.ofNat 64 (baseCycles .cop) }

/-- HLT (44 R216): opcode 0xFF sets `halted`, leaves `fault`, charges one cycle; every later step returns 0 and changes nothing, whatever is pending. -/
def Obligations.HaltStopsTheEngine : Prop :=
  ∀ (rest : List Byte) (s : State),
    decode (0xFF :: rest) = .ok (.hlt, rest) ∧
    ∃ t, exec .hlt s = .next t ∧ t = { s with halted := true, cycles := s.cycles + 1 } ∧
      ∀ p, step { t with pending := p } = .next { t with pending := p } ∧ stepCycles { t with pending := p } = 0

/-! ## Frames of all instructions -/

/-- No instruction changes a register outside its row of the access table (10 R43; what JSR, RTS and RTI change is SP) or a flag outside its row of the flag table (10 R44, the spec's decision D9). -/
def Obligations.OnlyListedRegistersAndFlagsChange : Prop :=
  ∀ (i : Instr) (s t : State), exec i s = .next t →
    (∀ q, q ∉ writtenRegs i → readReg q t = readReg q s) ∧
    ((writtenFlags i).n = false → t.flags.n = s.flags.n) ∧ ((writtenFlags i).v = false → t.flags.v = s.flags.v) ∧
    ((writtenFlags i).d = false → t.flags.d = s.flags.d) ∧ ((writtenFlags i).i = false → t.flags.i = s.flags.i) ∧
    ((writtenFlags i).z = false → t.flags.z = s.flags.z) ∧ ((writtenFlags i).c = false → t.flags.c = s.flags.c)

/-- No instruction changes a byte of memory but those it sends Bus writes to: the two bytes at the effective address of STA, STX, STY and the three stack bytes of JSR (20 R63, R70). -/
def Obligations.OnlyStoredBytesChange : Prop :=
  ∀ (i : Instr) (s t : State), exec i s = .next t →
    ∀ b, b ∉ storedAddrs i s → storedByte t b = storedByte s b

/-- The control state in execution: `halted` changes by HLT alone, `waiting` by WFI alone, `pending` by COP alone, `fault`, the registry and the opcode map never (20 R57, 00 R8); PC moves past the fetch only for jumps, calls, returns and branches; only absolute loads and stores reach a handler (20 R57, R58, R63), since the stack lies in no handler range (the spec's decision D5). The record of handler accesses and the count of draws are the model's own fields (log 4, log 5, log 6). -/
def Obligations.OnlyNamedInstructionsChangeControlState : Prop :=
  ∀ (i : Instr) (s t : State), exec i s = .next t →
    (i ≠ .hlt → t.halted = s.halted) ∧ (i ≠ .wfi → t.waiting = s.waiting) ∧
    (i ≠ .cop → t.pending = s.pending) ∧ t.fault = s.fault ∧ t.handlers = s.handlers ∧ t.opcodes = s.opcodes ∧
    (t.pc ≠ s.pc → i.op ∈ [.jmp, .jsr, .rts, .rti, .bra, .beq, .bne, .bcs, .bcc, .bmi, .bpl, .bvs, .bvc]) ∧
    (i.op ∉ [.ldaAbs, .ldxAbs, .ldyAbs] → t.ioDraws = s.ioDraws) ∧
    (i.op ∉ [.ldaAbs, .ldxAbs, .ldyAbs, .staAbs, .stxAbs, .styAbs] → t.ioEvents = s.ioEvents)

/-! ## The invariant -/

/-- Headline: every step keeps the invariant, from every state that has it. -/
def Obligations.StepKeepsInvariant : Prop :=
  ∀ s t : State, s.Inv → step s = .next t → t.Inv

/-- Headline: every action of the host keeps the invariant too (reset with any RESET_REGS, load of any image, any raise), and none changes the handler registry or the opcode map. -/
def Obligations.HostActionsKeepInvariant : Prop :=
  ∀ (act : HostAction) (s t : State), s.Inv → hostAct act s = .next t →
    t.Inv ∧ t.handlers = s.handlers ∧ t.opcodes = s.opcodes

/-- The reset state has the invariant, and so has a machine under construction after an admitted registration or an admitted OPCODE_MAP. -/
def Obligations.ResetHasInvariant : Prop :=
  State.reset.Inv ∧
  (∀ (h : HandlerRange) (s t : State), s.Inv → s.ioEvents = [] → registerIoHandler h s = .next t → t.Inv) ∧
  (∀ (m : OpcodeMap) (s t : State), s.Inv → setOpcodeMap m s = .next t → t.Inv)

/-! ## The host -/

/-- `reset()` (70 R270) for any RESET_REGS: every field. Storage and registry are kept and `cycles` is 0 by the spec's decision D24; RESET_REGS is D23. That the count of draws and the record of handler accesses are kept too is the model's choice (log 5, log 6, DESIGN CHOICE), and so is carrying the OPCODE_MAP, a parameter no reset touches, in the state (log 7). The fixed reset state is that of a machine nothing was loaded into; its zeros in A, X, Y and R0 to R7 are the model's choice (log 1). -/
def Obligations.ResetSetsEveryField : Prop :=
  (∀ (regs : ResetRegs) (s : State), hostReset regs s =
    { a := regs.a, x := regs.x, y := regs.y, r := regs.r
      sp := 0xFFFF
      pc := (storedByte s 0xFF0002 ++ storedByte s 0xFF0001 ++ storedByte s 0xFF0000 : BitVec 24)
      flags := ⟨false, false, false, false, false, false⟩
      halted := false, waiting := false, fault := none, cycles := 0
      pending := ⟨false, false, false, false, false, false, false, false⟩
      mem := s.mem, handlers := s.handlers, opcodes := s.opcodes, ioDraws := s.ioDraws, ioEvents := s.ioEvents }) ∧
  (∀ s : State, s.mem = [] → s.handlers = [] → s.opcodes = defaultMap → s.ioDraws = 0 → s.ioEvents = [] →
    hostReset Config.resetRegs s = State.reset)

/-- `load(region, bytes)` (20 R68): too many bytes fail with SizeExceeded; otherwise byte k lands at the region's first address plus k, past the ReadOnly policy, and everything else stays. That a failed load writes nothing and that load passes policy and handlers are the spec's decision D26 (log 36). -/
def Obligations.LoadCopiesTheImage : Prop :=
  ∀ (g : Region) (bytes : List Byte) (s : State), s.mem.wf = true →
    (regionSize g < bytes.length → load g bytes s = .fault .sizeExceeded) ∧
    (bytes.length ≤ regionSize g → ∃ m : Memory, load g bytes s = .next { s with mem := m } ∧ m.wf = true ∧
      (∀ k (hk : k < bytes.length), memGet m ((regionRow g).first + k) = bytes[k]) ∧
      (∀ n, n < (regionRow g).first ∨ (regionRow g).first + bytes.length ≤ n → memGet m n = memGet s.mem n))

/-- `raise_interrupt(id)` and what a machine is given at construction (60 R243, 20 R57, 00 R8): a raise of a source sets its pending bit and nothing else; a raise of TIMER1, TIMER2 or the reserved id is refused (the spec's decision D19); a handler range is refused exactly when it is empty (log 17), leaves the I/O region or overlaps a registered one (D25), and otherwise joins the registry and nothing else changes; an OPCODE_MAP in which no two rows share a byte, LDA #imm16 is 0x01 and HLT 0xFF becomes the machine's and nothing else changes, any other is refused (log 7). -/
def Obligations.HostRefusesWhatIsNotAdmitted : Prop :=
  (∀ id s, raiseInterrupt (.source id) s = .next { s with pending := s.pending.put true id }) ∧
  (∀ s, raiseInterrupt .timer1 s = .refused .notASource ∧ raiseInterrupt .timer2 s = .refused .notASource ∧
    raiseInterrupt .reserved s = .refused .notASource) ∧
  (∀ (h : HandlerRange) (s : State),
    registerIoHandler h s = .refused .handlerRangeNotAdmitted ↔
      (h.last.toNat < h.first.toNat ∨ h.first.toNat < 0x100000 ∨ 0x10FFFF < h.last.toNat ∨
        ∃ k ∈ s.handlers, h.first.toNat ≤ k.last.toNat ∧ k.first.toNat ≤ h.last.toNat)) ∧
  (∀ (h : HandlerRange) (s : State), h.first.toNat ≤ h.last.toNat → 0x100000 ≤ h.first.toNat →
    h.last.toNat ≤ 0x10FFFF →
    (∀ k ∈ s.handlers, h.last.toNat < k.first.toNat ∨ k.last.toNat < h.first.toNat) →
    registerIoHandler h s = .next { s with handlers := h :: s.handlers }) ∧
  (∀ (m : OpcodeMap) (s : State),
    let admitted : Prop := (∀ o p, m.byte o = m.byte p → o = p) ∧ m.byte .ldaImm = 0x01 ∧ m.byte .hlt = 0xFF
    (admitted → setOpcodeMap m s = .next { s with opcodes := m }) ∧
    (¬ admitted → setOpcodeMap m s = .refused .opcodeMapNotAdmitted))
end

