-- ==== Sys2Proof/Laws/Memory.lean ====
section
/-! SUPPORT. Reading after writing, and that every memory operation keeps the canonical form. -/

namespace Sys2Proof.Machine

theorem memory_wf_cons {k : Nat} {b : Byte} {m : Memory} :
    Memory.wf ((k, b) :: m) = true ↔ b ≠ zeroFill ∧ (∀ c ∈ m, k < c.1) ∧ Memory.wf m = true := by
  simp only [Memory.wf, Bool.and_eq_true, bne_iff_ne, List.all_eq_true, decide_eq_true_eq, and_assoc]

/-- Below every listed address memory holds the zero fill. -/
theorem memGet_of_lt_keys {m : Memory} {a : Nat} (h : ∀ c ∈ m, a < c.1) : memGet m a = zeroFill := by
  induction m with
  | nil => rfl
  | cons c m ih =>
    obtain ⟨k, b⟩ := c
    have hk : a < k := h (k, b) (by simp)
    rw [memGet, if_neg (by omega)]
    exact ih fun c hc => h c (List.mem_cons_of_mem _ hc)

/-- Reading the address just written gives the byte written. -/
theorem memGet_memSet_same {m : Memory} (hm : m.wf = true) (a : Nat) (v : Byte) :
    memGet (memSet m a v) a = v := by
  induction m with
  | nil => by_cases hv : v = zeroFill <;> simp [memSet, memGet, hv]
  | cons c m ih =>
    obtain ⟨k, b⟩ := c
    obtain ⟨_, hkeys, hwf⟩ := memory_wf_cons.1 hm
    rcases Nat.lt_trichotomy a k with hlt | rfl | hgt
    · by_cases hv : v = zeroFill
      · have hz : memGet ((k, b) :: m) a = zeroFill :=
          memGet_of_lt_keys fun c hc => by
            rcases List.mem_cons.1 hc with rfl | hc
            · exact hlt
            · exact Nat.lt_trans hlt (hkeys c hc)
        simp [memSet, hlt, hv, hz]
      · simp [memSet, hlt, hv, memGet]
    · by_cases hv : v = zeroFill
      · simp [memSet, hv, memGet_of_lt_keys hkeys]
      · simp [memSet, hv, memGet]
    · simp [memSet, memGet, Nat.lt_asymm hgt, Nat.ne_of_gt hgt, Nat.ne_of_lt hgt, ih hwf]

/-- Writing leaves every other address alone. -/
theorem memGet_memSet_other (m : Memory) {a b : Nat} (h : b ≠ a) (v : Byte) :
    memGet (memSet m a v) b = memGet m b := by
  induction m with
  | nil => by_cases hv : v = zeroFill <;> simp [memSet, memGet, hv, Ne.symm h]
  | cons c m ih =>
    obtain ⟨k, w⟩ := c
    by_cases hlt : a < k
    · by_cases hv : v = zeroFill <;> simp [memSet, hlt, hv, memGet, Ne.symm h]
    · by_cases hk : a = k
      · subst hk
        by_cases hv : v = zeroFill <;> simp [memSet, hv, memGet, Ne.symm h]
      · simp [memSet, hlt, hk, memGet, ih]

/-- The keys after a write: the old ones and, for a byte that is listed, the address written. -/
theorem mem_memSet {m : Memory} {a : Nat} {v : Byte} {c : Host.Cell} (h : c ∈ memSet m a v) :
    c ∈ m ∨ c = (a, v) := by
  induction m with
  | nil => by_cases hv : v = zeroFill <;> simp_all [memSet]
  | cons d m ih =>
    obtain ⟨k, w⟩ := d
    by_cases hlt : a < k
    · by_cases hv : v = zeroFill
      · simp only [memSet, hlt, hv, if_true] at h
        exact .inl h
      · simp only [memSet, hlt, hv, if_true, if_false] at h
        rcases List.mem_cons.1 h with rfl | h
        · exact .inr rfl
        · exact .inl h
    · by_cases hk : a = k
      · by_cases hv : v = zeroFill
        · simp only [memSet, hk, hv, if_true] at h
          exact .inl (List.mem_cons_of_mem _ (by simpa using h))
        · simp only [memSet, hk, hv, if_true, if_false] at h
          rcases List.mem_cons.1 (by simpa using h) with rfl | h
          · exact .inr (by rw [hk])
          · exact .inl (List.mem_cons_of_mem _ h)
      · simp only [memSet, hlt, hk, if_false] at h
        rcases List.mem_cons.1 h with rfl | h
        · exact .inl (by simp)
        · exact (ih h).imp (List.mem_cons_of_mem _) id

/-- A write keeps the canonical form. -/
theorem memory_wf_memSet {m : Memory} (hm : m.wf = true) (a : Nat) (v : Byte) :
    (memSet m a v).wf = true := by
  induction m with
  | nil => by_cases hv : v = zeroFill <;> simp [memSet, Memory.wf, hv]
  | cons c m ih =>
    obtain ⟨k, b⟩ := c
    obtain ⟨hb, hkeys, hwf⟩ := memory_wf_cons.1 hm
    by_cases hlt : a < k
    · by_cases hv : v = zeroFill
      · simpa [memSet, hlt, hv] using hm
      · rw [memSet, if_pos hlt, if_neg hv]
        refine memory_wf_cons.2 ⟨hv, fun c hc => ?_, hm⟩
        rcases List.mem_cons.1 hc with rfl | hc
        · exact hlt
        · exact Nat.lt_trans hlt (hkeys c hc)
    · by_cases hk : a = k
      · by_cases hv : v = zeroFill
        · simpa [memSet, hlt, hk, hv] using hwf
        · rw [memSet, if_neg hlt, if_pos hk, if_neg hv]
          exact memory_wf_cons.2 ⟨hv, by rw [hk]; exact hkeys, hwf⟩
      · rw [memSet, if_neg hlt, if_neg hk]
        refine memory_wf_cons.2 ⟨hb, fun c hc => ?_, ih hwf⟩
        rcases mem_memSet hc with hc | rfl
        · exact hkeys c hc
        · show k < a
          omega

/-- Writing several bytes keeps the canonical form. -/
theorem memory_wf_memSetMany {m : Memory} (hm : m.wf = true) (a : Nat) (vs : List Byte) :
    (memSetMany m a vs).wf = true := by
  induction vs generalizing m a with
  | nil => exact hm
  | cons v vs ih => exact ih (memory_wf_memSet hm a v) (a + 1)

/-- The keys after writing several bytes. -/
theorem mem_memSetMany {m : Memory} {a : Nat} {vs : List Byte} {c : Host.Cell}
    (h : c ∈ memSetMany m a vs) : c ∈ m ∨ (a ≤ c.1 ∧ c.1 < a + vs.length) := by
  induction vs generalizing m a with
  | nil => exact .inl h
  | cons v vs ih =>
    rw [List.length_cons]
    rcases ih h with h | h
    · rcases mem_memSet h with h | rfl
      · exact .inl h
      · exact .inr ⟨Nat.le_refl _, by show a < _; omega⟩
    · exact .inr ⟨by omega, by omega⟩

/-- Outside the bytes written memory reads as before. -/
theorem memGet_memSetMany_other (m : Memory) (a : Nat) (vs : List Byte) {b : Nat}
    (h : b < a ∨ a + vs.length ≤ b) : memGet (memSetMany m a vs) b = memGet m b := by
  induction vs generalizing m a with
  | nil => rfl
  | cons v vs ih =>
    rw [List.length_cons] at h
    rw [memSetMany, ih _ _ (by omega), memGet_memSet_other _ (by omega)]

/-- Byte k of the bytes written is read back at address a + k. -/
theorem memGet_memSetMany_same {m : Memory} (hm : m.wf = true) (a : Nat) (vs : List Byte) {k : Nat}
    (h : k < vs.length) : memGet (memSetMany m a vs) (a + k) = vs[k] := by
  induction vs generalizing m a k with
  | nil => exact absurd h (Nat.not_lt_zero _)
  | cons v vs ih =>
    cases k with
    | zero =>
      rw [memSetMany, memGet_memSetMany_other _ _ _ (by omega)]
      exact memGet_memSet_same hm a v
    | succ k =>
      rw [memSetMany, show a + (k + 1) = a + 1 + k by omega]
      exact ih (memory_wf_memSet hm a v) (a + 1) (by simpa using h)

end Sys2Proof.Machine
end

