-- ==== Sys2Proof/Laws/State.lean ====
section
/-! SUPPORT. One lemma per field per update of State, so that no proof unfolds a record update. -/

namespace Sys2Proof.Machine

variable (s : State)

@[simp] theorem State.setA_a (v : Word) : (s.setA v).a = v := rfl
@[simp] theorem State.setA_x (v : Word) : (s.setA v).x = s.x := rfl
@[simp] theorem State.setA_y (v : Word) : (s.setA v).y = s.y := rfl
@[simp] theorem State.setA_r (v : Word) : (s.setA v).r = s.r := rfl
@[simp] theorem State.setA_sp (v : Word) : (s.setA v).sp = s.sp := rfl
@[simp] theorem State.setA_pc (v : Word) : (s.setA v).pc = s.pc := rfl
@[simp] theorem State.setA_flags (v : Word) : (s.setA v).flags = s.flags := rfl
@[simp] theorem State.setA_halted (v : Word) : (s.setA v).halted = s.halted := rfl
@[simp] theorem State.setA_waiting (v : Word) : (s.setA v).waiting = s.waiting := rfl
@[simp] theorem State.setA_fault (v : Word) : (s.setA v).fault = s.fault := rfl
@[simp] theorem State.setA_cycles (v : Word) : (s.setA v).cycles = s.cycles := rfl
@[simp] theorem State.setA_pending (v : Word) : (s.setA v).pending = s.pending := rfl
@[simp] theorem State.setA_mem (v : Word) : (s.setA v).mem = s.mem := rfl
@[simp] theorem State.setA_handlers (v : Word) : (s.setA v).handlers = s.handlers := rfl
@[simp] theorem State.setA_opcodes (v : Word) : (s.setA v).opcodes = s.opcodes := rfl
@[simp] theorem State.setA_ioDraws (v : Word) : (s.setA v).ioDraws = s.ioDraws := rfl
@[simp] theorem State.setA_ioEvents (v : Word) : (s.setA v).ioEvents = s.ioEvents := rfl

@[simp] theorem State.setX_a (v : Word) : (s.setX v).a = s.a := rfl
@[simp] theorem State.setX_x (v : Word) : (s.setX v).x = v := rfl
@[simp] theorem State.setX_y (v : Word) : (s.setX v).y = s.y := rfl
@[simp] theorem State.setX_r (v : Word) : (s.setX v).r = s.r := rfl
@[simp] theorem State.setX_sp (v : Word) : (s.setX v).sp = s.sp := rfl
@[simp] theorem State.setX_pc (v : Word) : (s.setX v).pc = s.pc := rfl
@[simp] theorem State.setX_flags (v : Word) : (s.setX v).flags = s.flags := rfl
@[simp] theorem State.setX_halted (v : Word) : (s.setX v).halted = s.halted := rfl
@[simp] theorem State.setX_waiting (v : Word) : (s.setX v).waiting = s.waiting := rfl
@[simp] theorem State.setX_fault (v : Word) : (s.setX v).fault = s.fault := rfl
@[simp] theorem State.setX_cycles (v : Word) : (s.setX v).cycles = s.cycles := rfl
@[simp] theorem State.setX_pending (v : Word) : (s.setX v).pending = s.pending := rfl
@[simp] theorem State.setX_mem (v : Word) : (s.setX v).mem = s.mem := rfl
@[simp] theorem State.setX_handlers (v : Word) : (s.setX v).handlers = s.handlers := rfl
@[simp] theorem State.setX_opcodes (v : Word) : (s.setX v).opcodes = s.opcodes := rfl
@[simp] theorem State.setX_ioDraws (v : Word) : (s.setX v).ioDraws = s.ioDraws := rfl
@[simp] theorem State.setX_ioEvents (v : Word) : (s.setX v).ioEvents = s.ioEvents := rfl

@[simp] theorem State.setY_a (v : Word) : (s.setY v).a = s.a := rfl
@[simp] theorem State.setY_x (v : Word) : (s.setY v).x = s.x := rfl
@[simp] theorem State.setY_y (v : Word) : (s.setY v).y = v := rfl
@[simp] theorem State.setY_r (v : Word) : (s.setY v).r = s.r := rfl
@[simp] theorem State.setY_sp (v : Word) : (s.setY v).sp = s.sp := rfl
@[simp] theorem State.setY_pc (v : Word) : (s.setY v).pc = s.pc := rfl
@[simp] theorem State.setY_flags (v : Word) : (s.setY v).flags = s.flags := rfl
@[simp] theorem State.setY_halted (v : Word) : (s.setY v).halted = s.halted := rfl
@[simp] theorem State.setY_waiting (v : Word) : (s.setY v).waiting = s.waiting := rfl
@[simp] theorem State.setY_fault (v : Word) : (s.setY v).fault = s.fault := rfl
@[simp] theorem State.setY_cycles (v : Word) : (s.setY v).cycles = s.cycles := rfl
@[simp] theorem State.setY_pending (v : Word) : (s.setY v).pending = s.pending := rfl
@[simp] theorem State.setY_mem (v : Word) : (s.setY v).mem = s.mem := rfl
@[simp] theorem State.setY_handlers (v : Word) : (s.setY v).handlers = s.handlers := rfl
@[simp] theorem State.setY_opcodes (v : Word) : (s.setY v).opcodes = s.opcodes := rfl
@[simp] theorem State.setY_ioDraws (v : Word) : (s.setY v).ioDraws = s.ioDraws := rfl
@[simp] theorem State.setY_ioEvents (v : Word) : (s.setY v).ioEvents = s.ioEvents := rfl

@[simp] theorem State.setR_a (k : Fin 8) (v : Word) : (s.setR k v).a = s.a := rfl
@[simp] theorem State.setR_x (k : Fin 8) (v : Word) : (s.setR k v).x = s.x := rfl
@[simp] theorem State.setR_y (k : Fin 8) (v : Word) : (s.setR k v).y = s.y := rfl
@[simp] theorem State.setR_r (k : Fin 8) (v : Word) : (s.setR k v).r = s.r.set k v := rfl
@[simp] theorem State.setR_sp (k : Fin 8) (v : Word) : (s.setR k v).sp = s.sp := rfl
@[simp] theorem State.setR_pc (k : Fin 8) (v : Word) : (s.setR k v).pc = s.pc := rfl
@[simp] theorem State.setR_flags (k : Fin 8) (v : Word) : (s.setR k v).flags = s.flags := rfl
@[simp] theorem State.setR_halted (k : Fin 8) (v : Word) : (s.setR k v).halted = s.halted := rfl
@[simp] theorem State.setR_waiting (k : Fin 8) (v : Word) : (s.setR k v).waiting = s.waiting := rfl
@[simp] theorem State.setR_fault (k : Fin 8) (v : Word) : (s.setR k v).fault = s.fault := rfl
@[simp] theorem State.setR_cycles (k : Fin 8) (v : Word) : (s.setR k v).cycles = s.cycles := rfl
@[simp] theorem State.setR_pending (k : Fin 8) (v : Word) : (s.setR k v).pending = s.pending := rfl
@[simp] theorem State.setR_mem (k : Fin 8) (v : Word) : (s.setR k v).mem = s.mem := rfl
@[simp] theorem State.setR_handlers (k : Fin 8) (v : Word) : (s.setR k v).handlers = s.handlers := rfl
@[simp] theorem State.setR_opcodes (k : Fin 8) (v : Word) : (s.setR k v).opcodes = s.opcodes := rfl
@[simp] theorem State.setR_ioDraws (k : Fin 8) (v : Word) : (s.setR k v).ioDraws = s.ioDraws := rfl
@[simp] theorem State.setR_ioEvents (k : Fin 8) (v : Word) : (s.setR k v).ioEvents = s.ioEvents := rfl

@[simp] theorem State.setSp_a (v : Word) : (s.setSp v).a = s.a := rfl
@[simp] theorem State.setSp_x (v : Word) : (s.setSp v).x = s.x := rfl
@[simp] theorem State.setSp_y (v : Word) : (s.setSp v).y = s.y := rfl
@[simp] theorem State.setSp_r (v : Word) : (s.setSp v).r = s.r := rfl
@[simp] theorem State.setSp_sp (v : Word) : (s.setSp v).sp = v := rfl
@[simp] theorem State.setSp_pc (v : Word) : (s.setSp v).pc = s.pc := rfl
@[simp] theorem State.setSp_flags (v : Word) : (s.setSp v).flags = s.flags := rfl
@[simp] theorem State.setSp_halted (v : Word) : (s.setSp v).halted = s.halted := rfl
@[simp] theorem State.setSp_waiting (v : Word) : (s.setSp v).waiting = s.waiting := rfl
@[simp] theorem State.setSp_fault (v : Word) : (s.setSp v).fault = s.fault := rfl
@[simp] theorem State.setSp_cycles (v : Word) : (s.setSp v).cycles = s.cycles := rfl
@[simp] theorem State.setSp_pending (v : Word) : (s.setSp v).pending = s.pending := rfl
@[simp] theorem State.setSp_mem (v : Word) : (s.setSp v).mem = s.mem := rfl
@[simp] theorem State.setSp_handlers (v : Word) : (s.setSp v).handlers = s.handlers := rfl
@[simp] theorem State.setSp_opcodes (v : Word) : (s.setSp v).opcodes = s.opcodes := rfl
@[simp] theorem State.setSp_ioDraws (v : Word) : (s.setSp v).ioDraws = s.ioDraws := rfl
@[simp] theorem State.setSp_ioEvents (v : Word) : (s.setSp v).ioEvents = s.ioEvents := rfl

@[simp] theorem State.setPc_a (v : Addr) : (s.setPc v).a = s.a := rfl
@[simp] theorem State.setPc_x (v : Addr) : (s.setPc v).x = s.x := rfl
@[simp] theorem State.setPc_y (v : Addr) : (s.setPc v).y = s.y := rfl
@[simp] theorem State.setPc_r (v : Addr) : (s.setPc v).r = s.r := rfl
@[simp] theorem State.setPc_sp (v : Addr) : (s.setPc v).sp = s.sp := rfl
@[simp] theorem State.setPc_pc (v : Addr) : (s.setPc v).pc = v := rfl
@[simp] theorem State.setPc_flags (v : Addr) : (s.setPc v).flags = s.flags := rfl
@[simp] theorem State.setPc_halted (v : Addr) : (s.setPc v).halted = s.halted := rfl
@[simp] theorem State.setPc_waiting (v : Addr) : (s.setPc v).waiting = s.waiting := rfl
@[simp] theorem State.setPc_fault (v : Addr) : (s.setPc v).fault = s.fault := rfl
@[simp] theorem State.setPc_cycles (v : Addr) : (s.setPc v).cycles = s.cycles := rfl
@[simp] theorem State.setPc_pending (v : Addr) : (s.setPc v).pending = s.pending := rfl
@[simp] theorem State.setPc_mem (v : Addr) : (s.setPc v).mem = s.mem := rfl
@[simp] theorem State.setPc_handlers (v : Addr) : (s.setPc v).handlers = s.handlers := rfl
@[simp] theorem State.setPc_opcodes (v : Addr) : (s.setPc v).opcodes = s.opcodes := rfl
@[simp] theorem State.setPc_ioDraws (v : Addr) : (s.setPc v).ioDraws = s.ioDraws := rfl
@[simp] theorem State.setPc_ioEvents (v : Addr) : (s.setPc v).ioEvents = s.ioEvents := rfl

@[simp] theorem State.setFlags_a (f : Flags) : (s.setFlags f).a = s.a := rfl
@[simp] theorem State.setFlags_x (f : Flags) : (s.setFlags f).x = s.x := rfl
@[simp] theorem State.setFlags_y (f : Flags) : (s.setFlags f).y = s.y := rfl
@[simp] theorem State.setFlags_r (f : Flags) : (s.setFlags f).r = s.r := rfl
@[simp] theorem State.setFlags_sp (f : Flags) : (s.setFlags f).sp = s.sp := rfl
@[simp] theorem State.setFlags_pc (f : Flags) : (s.setFlags f).pc = s.pc := rfl
@[simp] theorem State.setFlags_flags (f : Flags) : (s.setFlags f).flags = f := rfl
@[simp] theorem State.setFlags_halted (f : Flags) : (s.setFlags f).halted = s.halted := rfl
@[simp] theorem State.setFlags_waiting (f : Flags) : (s.setFlags f).waiting = s.waiting := rfl
@[simp] theorem State.setFlags_fault (f : Flags) : (s.setFlags f).fault = s.fault := rfl
@[simp] theorem State.setFlags_cycles (f : Flags) : (s.setFlags f).cycles = s.cycles := rfl
@[simp] theorem State.setFlags_pending (f : Flags) : (s.setFlags f).pending = s.pending := rfl
@[simp] theorem State.setFlags_mem (f : Flags) : (s.setFlags f).mem = s.mem := rfl
@[simp] theorem State.setFlags_handlers (f : Flags) : (s.setFlags f).handlers = s.handlers := rfl
@[simp] theorem State.setFlags_opcodes (f : Flags) : (s.setFlags f).opcodes = s.opcodes := rfl
@[simp] theorem State.setFlags_ioDraws (f : Flags) : (s.setFlags f).ioDraws = s.ioDraws := rfl
@[simp] theorem State.setFlags_ioEvents (f : Flags) : (s.setFlags f).ioEvents = s.ioEvents := rfl

@[simp] theorem State.setHalted_a (b : Bool) : (s.setHalted b).a = s.a := rfl
@[simp] theorem State.setHalted_x (b : Bool) : (s.setHalted b).x = s.x := rfl
@[simp] theorem State.setHalted_y (b : Bool) : (s.setHalted b).y = s.y := rfl
@[simp] theorem State.setHalted_r (b : Bool) : (s.setHalted b).r = s.r := rfl
@[simp] theorem State.setHalted_sp (b : Bool) : (s.setHalted b).sp = s.sp := rfl
@[simp] theorem State.setHalted_pc (b : Bool) : (s.setHalted b).pc = s.pc := rfl
@[simp] theorem State.setHalted_flags (b : Bool) : (s.setHalted b).flags = s.flags := rfl
@[simp] theorem State.setHalted_halted (b : Bool) : (s.setHalted b).halted = b := rfl
@[simp] theorem State.setHalted_waiting (b : Bool) : (s.setHalted b).waiting = s.waiting := rfl
@[simp] theorem State.setHalted_fault (b : Bool) : (s.setHalted b).fault = s.fault := rfl
@[simp] theorem State.setHalted_cycles (b : Bool) : (s.setHalted b).cycles = s.cycles := rfl
@[simp] theorem State.setHalted_pending (b : Bool) : (s.setHalted b).pending = s.pending := rfl
@[simp] theorem State.setHalted_mem (b : Bool) : (s.setHalted b).mem = s.mem := rfl
@[simp] theorem State.setHalted_handlers (b : Bool) : (s.setHalted b).handlers = s.handlers := rfl
@[simp] theorem State.setHalted_opcodes (b : Bool) : (s.setHalted b).opcodes = s.opcodes := rfl
@[simp] theorem State.setHalted_ioDraws (b : Bool) : (s.setHalted b).ioDraws = s.ioDraws := rfl
@[simp] theorem State.setHalted_ioEvents (b : Bool) : (s.setHalted b).ioEvents = s.ioEvents := rfl

@[simp] theorem State.setWaiting_a (b : Bool) : (s.setWaiting b).a = s.a := rfl
@[simp] theorem State.setWaiting_x (b : Bool) : (s.setWaiting b).x = s.x := rfl
@[simp] theorem State.setWaiting_y (b : Bool) : (s.setWaiting b).y = s.y := rfl
@[simp] theorem State.setWaiting_r (b : Bool) : (s.setWaiting b).r = s.r := rfl
@[simp] theorem State.setWaiting_sp (b : Bool) : (s.setWaiting b).sp = s.sp := rfl
@[simp] theorem State.setWaiting_pc (b : Bool) : (s.setWaiting b).pc = s.pc := rfl
@[simp] theorem State.setWaiting_flags (b : Bool) : (s.setWaiting b).flags = s.flags := rfl
@[simp] theorem State.setWaiting_halted (b : Bool) : (s.setWaiting b).halted = s.halted := rfl
@[simp] theorem State.setWaiting_waiting (b : Bool) : (s.setWaiting b).waiting = b := rfl
@[simp] theorem State.setWaiting_fault (b : Bool) : (s.setWaiting b).fault = s.fault := rfl
@[simp] theorem State.setWaiting_cycles (b : Bool) : (s.setWaiting b).cycles = s.cycles := rfl
@[simp] theorem State.setWaiting_pending (b : Bool) : (s.setWaiting b).pending = s.pending := rfl
@[simp] theorem State.setWaiting_mem (b : Bool) : (s.setWaiting b).mem = s.mem := rfl
@[simp] theorem State.setWaiting_handlers (b : Bool) : (s.setWaiting b).handlers = s.handlers := rfl
@[simp] theorem State.setWaiting_opcodes (b : Bool) : (s.setWaiting b).opcodes = s.opcodes := rfl
@[simp] theorem State.setWaiting_ioDraws (b : Bool) : (s.setWaiting b).ioDraws = s.ioDraws := rfl
@[simp] theorem State.setWaiting_ioEvents (b : Bool) : (s.setWaiting b).ioEvents = s.ioEvents := rfl

@[simp] theorem State.setFault_a (f : Option DecodeFault) : (s.setFault f).a = s.a := rfl
@[simp] theorem State.setFault_x (f : Option DecodeFault) : (s.setFault f).x = s.x := rfl
@[simp] theorem State.setFault_y (f : Option DecodeFault) : (s.setFault f).y = s.y := rfl
@[simp] theorem State.setFault_r (f : Option DecodeFault) : (s.setFault f).r = s.r := rfl
@[simp] theorem State.setFault_sp (f : Option DecodeFault) : (s.setFault f).sp = s.sp := rfl
@[simp] theorem State.setFault_pc (f : Option DecodeFault) : (s.setFault f).pc = s.pc := rfl
@[simp] theorem State.setFault_flags (f : Option DecodeFault) : (s.setFault f).flags = s.flags := rfl
@[simp] theorem State.setFault_halted (f : Option DecodeFault) : (s.setFault f).halted = s.halted := rfl
@[simp] theorem State.setFault_waiting (f : Option DecodeFault) : (s.setFault f).waiting = s.waiting := rfl
@[simp] theorem State.setFault_fault (f : Option DecodeFault) : (s.setFault f).fault = f := rfl
@[simp] theorem State.setFault_cycles (f : Option DecodeFault) : (s.setFault f).cycles = s.cycles := rfl
@[simp] theorem State.setFault_pending (f : Option DecodeFault) : (s.setFault f).pending = s.pending := rfl
@[simp] theorem State.setFault_mem (f : Option DecodeFault) : (s.setFault f).mem = s.mem := rfl
@[simp] theorem State.setFault_handlers (f : Option DecodeFault) : (s.setFault f).handlers = s.handlers := rfl
@[simp] theorem State.setFault_opcodes (f : Option DecodeFault) : (s.setFault f).opcodes = s.opcodes := rfl
@[simp] theorem State.setFault_ioDraws (f : Option DecodeFault) : (s.setFault f).ioDraws = s.ioDraws := rfl
@[simp] theorem State.setFault_ioEvents (f : Option DecodeFault) : (s.setFault f).ioEvents = s.ioEvents := rfl

@[simp] theorem State.setPending_a (p : IrqSet) : (s.setPending p).a = s.a := rfl
@[simp] theorem State.setPending_x (p : IrqSet) : (s.setPending p).x = s.x := rfl
@[simp] theorem State.setPending_y (p : IrqSet) : (s.setPending p).y = s.y := rfl
@[simp] theorem State.setPending_r (p : IrqSet) : (s.setPending p).r = s.r := rfl
@[simp] theorem State.setPending_sp (p : IrqSet) : (s.setPending p).sp = s.sp := rfl
@[simp] theorem State.setPending_pc (p : IrqSet) : (s.setPending p).pc = s.pc := rfl
@[simp] theorem State.setPending_flags (p : IrqSet) : (s.setPending p).flags = s.flags := rfl
@[simp] theorem State.setPending_halted (p : IrqSet) : (s.setPending p).halted = s.halted := rfl
@[simp] theorem State.setPending_waiting (p : IrqSet) : (s.setPending p).waiting = s.waiting := rfl
@[simp] theorem State.setPending_fault (p : IrqSet) : (s.setPending p).fault = s.fault := rfl
@[simp] theorem State.setPending_cycles (p : IrqSet) : (s.setPending p).cycles = s.cycles := rfl
@[simp] theorem State.setPending_pending (p : IrqSet) : (s.setPending p).pending = p := rfl
@[simp] theorem State.setPending_mem (p : IrqSet) : (s.setPending p).mem = s.mem := rfl
@[simp] theorem State.setPending_handlers (p : IrqSet) : (s.setPending p).handlers = s.handlers := rfl
@[simp] theorem State.setPending_opcodes (p : IrqSet) : (s.setPending p).opcodes = s.opcodes := rfl
@[simp] theorem State.setPending_ioDraws (p : IrqSet) : (s.setPending p).ioDraws = s.ioDraws := rfl
@[simp] theorem State.setPending_ioEvents (p : IrqSet) : (s.setPending p).ioEvents = s.ioEvents := rfl

@[simp] theorem State.setMem_a (m : Memory) : (s.setMem m).a = s.a := rfl
@[simp] theorem State.setMem_x (m : Memory) : (s.setMem m).x = s.x := rfl
@[simp] theorem State.setMem_y (m : Memory) : (s.setMem m).y = s.y := rfl
@[simp] theorem State.setMem_r (m : Memory) : (s.setMem m).r = s.r := rfl
@[simp] theorem State.setMem_sp (m : Memory) : (s.setMem m).sp = s.sp := rfl
@[simp] theorem State.setMem_pc (m : Memory) : (s.setMem m).pc = s.pc := rfl
@[simp] theorem State.setMem_flags (m : Memory) : (s.setMem m).flags = s.flags := rfl
@[simp] theorem State.setMem_halted (m : Memory) : (s.setMem m).halted = s.halted := rfl
@[simp] theorem State.setMem_waiting (m : Memory) : (s.setMem m).waiting = s.waiting := rfl
@[simp] theorem State.setMem_fault (m : Memory) : (s.setMem m).fault = s.fault := rfl
@[simp] theorem State.setMem_cycles (m : Memory) : (s.setMem m).cycles = s.cycles := rfl
@[simp] theorem State.setMem_pending (m : Memory) : (s.setMem m).pending = s.pending := rfl
@[simp] theorem State.setMem_mem (m : Memory) : (s.setMem m).mem = m := rfl
@[simp] theorem State.setMem_handlers (m : Memory) : (s.setMem m).handlers = s.handlers := rfl
@[simp] theorem State.setMem_opcodes (m : Memory) : (s.setMem m).opcodes = s.opcodes := rfl
@[simp] theorem State.setMem_ioDraws (m : Memory) : (s.setMem m).ioDraws = s.ioDraws := rfl
@[simp] theorem State.setMem_ioEvents (m : Memory) : (s.setMem m).ioEvents = s.ioEvents := rfl

@[simp] theorem State.setHandlers_a (hs : List HandlerRange) : (s.setHandlers hs).a = s.a := rfl
@[simp] theorem State.setHandlers_x (hs : List HandlerRange) : (s.setHandlers hs).x = s.x := rfl
@[simp] theorem State.setHandlers_y (hs : List HandlerRange) : (s.setHandlers hs).y = s.y := rfl
@[simp] theorem State.setHandlers_r (hs : List HandlerRange) : (s.setHandlers hs).r = s.r := rfl
@[simp] theorem State.setHandlers_sp (hs : List HandlerRange) : (s.setHandlers hs).sp = s.sp := rfl
@[simp] theorem State.setHandlers_pc (hs : List HandlerRange) : (s.setHandlers hs).pc = s.pc := rfl
@[simp] theorem State.setHandlers_flags (hs : List HandlerRange) : (s.setHandlers hs).flags = s.flags := rfl
@[simp] theorem State.setHandlers_halted (hs : List HandlerRange) : (s.setHandlers hs).halted = s.halted := rfl
@[simp] theorem State.setHandlers_waiting (hs : List HandlerRange) : (s.setHandlers hs).waiting = s.waiting := rfl
@[simp] theorem State.setHandlers_fault (hs : List HandlerRange) : (s.setHandlers hs).fault = s.fault := rfl
@[simp] theorem State.setHandlers_cycles (hs : List HandlerRange) : (s.setHandlers hs).cycles = s.cycles := rfl
@[simp] theorem State.setHandlers_pending (hs : List HandlerRange) : (s.setHandlers hs).pending = s.pending := rfl
@[simp] theorem State.setHandlers_mem (hs : List HandlerRange) : (s.setHandlers hs).mem = s.mem := rfl
@[simp] theorem State.setHandlers_handlers (hs : List HandlerRange) : (s.setHandlers hs).handlers = hs := rfl
@[simp] theorem State.setHandlers_opcodes (hs : List HandlerRange) : (s.setHandlers hs).opcodes = s.opcodes := rfl
@[simp] theorem State.setHandlers_ioDraws (hs : List HandlerRange) : (s.setHandlers hs).ioDraws = s.ioDraws := rfl
@[simp] theorem State.setHandlers_ioEvents (hs : List HandlerRange) : (s.setHandlers hs).ioEvents = s.ioEvents := rfl

@[simp] theorem State.setOpcodes_a (m : OpcodeMap) : (s.setOpcodes m).a = s.a := rfl
@[simp] theorem State.setOpcodes_x (m : OpcodeMap) : (s.setOpcodes m).x = s.x := rfl
@[simp] theorem State.setOpcodes_y (m : OpcodeMap) : (s.setOpcodes m).y = s.y := rfl
@[simp] theorem State.setOpcodes_r (m : OpcodeMap) : (s.setOpcodes m).r = s.r := rfl
@[simp] theorem State.setOpcodes_sp (m : OpcodeMap) : (s.setOpcodes m).sp = s.sp := rfl
@[simp] theorem State.setOpcodes_pc (m : OpcodeMap) : (s.setOpcodes m).pc = s.pc := rfl
@[simp] theorem State.setOpcodes_flags (m : OpcodeMap) : (s.setOpcodes m).flags = s.flags := rfl
@[simp] theorem State.setOpcodes_halted (m : OpcodeMap) : (s.setOpcodes m).halted = s.halted := rfl
@[simp] theorem State.setOpcodes_waiting (m : OpcodeMap) : (s.setOpcodes m).waiting = s.waiting := rfl
@[simp] theorem State.setOpcodes_fault (m : OpcodeMap) : (s.setOpcodes m).fault = s.fault := rfl
@[simp] theorem State.setOpcodes_cycles (m : OpcodeMap) : (s.setOpcodes m).cycles = s.cycles := rfl
@[simp] theorem State.setOpcodes_pending (m : OpcodeMap) : (s.setOpcodes m).pending = s.pending := rfl
@[simp] theorem State.setOpcodes_mem (m : OpcodeMap) : (s.setOpcodes m).mem = s.mem := rfl
@[simp] theorem State.setOpcodes_handlers (m : OpcodeMap) : (s.setOpcodes m).handlers = s.handlers := rfl
@[simp] theorem State.setOpcodes_opcodes (m : OpcodeMap) : (s.setOpcodes m).opcodes = m := rfl
@[simp] theorem State.setOpcodes_ioDraws (m : OpcodeMap) : (s.setOpcodes m).ioDraws = s.ioDraws := rfl
@[simp] theorem State.setOpcodes_ioEvents (m : OpcodeMap) : (s.setOpcodes m).ioEvents = s.ioEvents := rfl

@[simp] theorem State.charge_a (n : Nat) : (s.charge n).a = s.a := rfl
@[simp] theorem State.charge_x (n : Nat) : (s.charge n).x = s.x := rfl
@[simp] theorem State.charge_y (n : Nat) : (s.charge n).y = s.y := rfl
@[simp] theorem State.charge_r (n : Nat) : (s.charge n).r = s.r := rfl
@[simp] theorem State.charge_sp (n : Nat) : (s.charge n).sp = s.sp := rfl
@[simp] theorem State.charge_pc (n : Nat) : (s.charge n).pc = s.pc := rfl
@[simp] theorem State.charge_flags (n : Nat) : (s.charge n).flags = s.flags := rfl
@[simp] theorem State.charge_halted (n : Nat) : (s.charge n).halted = s.halted := rfl
@[simp] theorem State.charge_waiting (n : Nat) : (s.charge n).waiting = s.waiting := rfl
@[simp] theorem State.charge_fault (n : Nat) : (s.charge n).fault = s.fault := rfl
@[simp] theorem State.charge_cycles (n : Nat) : (s.charge n).cycles = s.cycles + BitVec.ofNat 64 n := rfl
@[simp] theorem State.charge_pending (n : Nat) : (s.charge n).pending = s.pending := rfl
@[simp] theorem State.charge_mem (n : Nat) : (s.charge n).mem = s.mem := rfl
@[simp] theorem State.charge_handlers (n : Nat) : (s.charge n).handlers = s.handlers := rfl
@[simp] theorem State.charge_opcodes (n : Nat) : (s.charge n).opcodes = s.opcodes := rfl
@[simp] theorem State.charge_ioDraws (n : Nat) : (s.charge n).ioDraws = s.ioDraws := rfl
@[simp] theorem State.charge_ioEvents (n : Nat) : (s.charge n).ioEvents = s.ioEvents := rfl

@[simp] theorem State.recordRead_a (e : IoEvent) : (s.recordRead e).a = s.a := rfl
@[simp] theorem State.recordRead_x (e : IoEvent) : (s.recordRead e).x = s.x := rfl
@[simp] theorem State.recordRead_y (e : IoEvent) : (s.recordRead e).y = s.y := rfl
@[simp] theorem State.recordRead_r (e : IoEvent) : (s.recordRead e).r = s.r := rfl
@[simp] theorem State.recordRead_sp (e : IoEvent) : (s.recordRead e).sp = s.sp := rfl
@[simp] theorem State.recordRead_pc (e : IoEvent) : (s.recordRead e).pc = s.pc := rfl
@[simp] theorem State.recordRead_flags (e : IoEvent) : (s.recordRead e).flags = s.flags := rfl
@[simp] theorem State.recordRead_halted (e : IoEvent) : (s.recordRead e).halted = s.halted := rfl
@[simp] theorem State.recordRead_waiting (e : IoEvent) : (s.recordRead e).waiting = s.waiting := rfl
@[simp] theorem State.recordRead_fault (e : IoEvent) : (s.recordRead e).fault = s.fault := rfl
@[simp] theorem State.recordRead_cycles (e : IoEvent) : (s.recordRead e).cycles = s.cycles := rfl
@[simp] theorem State.recordRead_pending (e : IoEvent) : (s.recordRead e).pending = s.pending := rfl
@[simp] theorem State.recordRead_mem (e : IoEvent) : (s.recordRead e).mem = s.mem := rfl
@[simp] theorem State.recordRead_handlers (e : IoEvent) : (s.recordRead e).handlers = s.handlers := rfl
@[simp] theorem State.recordRead_opcodes (e : IoEvent) : (s.recordRead e).opcodes = s.opcodes := rfl
@[simp] theorem State.recordRead_ioDraws (e : IoEvent) : (s.recordRead e).ioDraws = s.ioDraws + 1 := rfl
@[simp] theorem State.recordRead_ioEvents (e : IoEvent) : (s.recordRead e).ioEvents = e :: s.ioEvents := rfl

@[simp] theorem State.recordWrite_a (e : IoEvent) : (s.recordWrite e).a = s.a := rfl
@[simp] theorem State.recordWrite_x (e : IoEvent) : (s.recordWrite e).x = s.x := rfl
@[simp] theorem State.recordWrite_y (e : IoEvent) : (s.recordWrite e).y = s.y := rfl
@[simp] theorem State.recordWrite_r (e : IoEvent) : (s.recordWrite e).r = s.r := rfl
@[simp] theorem State.recordWrite_sp (e : IoEvent) : (s.recordWrite e).sp = s.sp := rfl
@[simp] theorem State.recordWrite_pc (e : IoEvent) : (s.recordWrite e).pc = s.pc := rfl
@[simp] theorem State.recordWrite_flags (e : IoEvent) : (s.recordWrite e).flags = s.flags := rfl
@[simp] theorem State.recordWrite_halted (e : IoEvent) : (s.recordWrite e).halted = s.halted := rfl
@[simp] theorem State.recordWrite_waiting (e : IoEvent) : (s.recordWrite e).waiting = s.waiting := rfl
@[simp] theorem State.recordWrite_fault (e : IoEvent) : (s.recordWrite e).fault = s.fault := rfl
@[simp] theorem State.recordWrite_cycles (e : IoEvent) : (s.recordWrite e).cycles = s.cycles := rfl
@[simp] theorem State.recordWrite_pending (e : IoEvent) : (s.recordWrite e).pending = s.pending := rfl
@[simp] theorem State.recordWrite_mem (e : IoEvent) : (s.recordWrite e).mem = s.mem := rfl
@[simp] theorem State.recordWrite_handlers (e : IoEvent) : (s.recordWrite e).handlers = s.handlers := rfl
@[simp] theorem State.recordWrite_opcodes (e : IoEvent) : (s.recordWrite e).opcodes = s.opcodes := rfl
@[simp] theorem State.recordWrite_ioDraws (e : IoEvent) : (s.recordWrite e).ioDraws = s.ioDraws := rfl
@[simp] theorem State.recordWrite_ioEvents (e : IoEvent) : (s.recordWrite e).ioEvents = e :: s.ioEvents := rfl

end Sys2Proof.Machine
end

