-- ==== Sys2Proof/Laws/Bus.lean ====
section
/-! SUPPORT. What the Bus, the stack and the interrupt operations do: one lemma per field a Bus access leaves alone, and for each operation what it answers. -/

namespace Sys2Proof.Machine

/-! ## Fields a Bus access leaves alone -/

@[simp] theorem busRead_a (a : Addr) (s : State) : (busRead a s).2.a = s.a := by
  unfold busRead; split <;> rfl

@[simp] theorem busRead_x (a : Addr) (s : State) : (busRead a s).2.x = s.x := by
  unfold busRead; split <;> rfl

@[simp] theorem busRead_y (a : Addr) (s : State) : (busRead a s).2.y = s.y := by
  unfold busRead; split <;> rfl

@[simp] theorem busRead_r (a : Addr) (s : State) : (busRead a s).2.r = s.r := by
  unfold busRead; split <;> rfl

@[simp] theorem busRead_sp (a : Addr) (s : State) : (busRead a s).2.sp = s.sp := by
  unfold busRead; split <;> rfl

@[simp] theorem busRead_pc (a : Addr) (s : State) : (busRead a s).2.pc = s.pc := by
  unfold busRead; split <;> rfl

@[simp] theorem busRead_flags (a : Addr) (s : State) : (busRead a s).2.flags = s.flags := by
  unfold busRead; split <;> rfl

@[simp] theorem busRead_halted (a : Addr) (s : State) : (busRead a s).2.halted = s.halted := by
  unfold busRead; split <;> rfl

@[simp] theorem busRead_waiting (a : Addr) (s : State) : (busRead a s).2.waiting = s.waiting := by
  unfold busRead; split <;> rfl

@[simp] theorem busRead_fault (a : Addr) (s : State) : (busRead a s).2.fault = s.fault := by
  unfold busRead; split <;> rfl

@[simp] theorem busRead_cycles (a : Addr) (s : State) : (busRead a s).2.cycles = s.cycles := by
  unfold busRead; split <;> rfl

@[simp] theorem busRead_pending (a : Addr) (s : State) : (busRead a s).2.pending = s.pending := by
  unfold busRead; split <;> rfl

@[simp] theorem busRead_mem (a : Addr) (s : State) : (busRead a s).2.mem = s.mem := by
  unfold busRead; split <;> rfl

@[simp] theorem busRead_handlers (a : Addr) (s : State) : (busRead a s).2.handlers = s.handlers := by
  unfold busRead; split <;> rfl
@[simp] theorem busRead_opcodes (a : Addr) (s : State) : (busRead a s).2.opcodes = s.opcodes := by
  unfold busRead; split <;> rfl

@[simp] theorem busWrite_a (a : Addr) (v : Byte) (s : State) : (busWrite a v s).a = s.a := by
  unfold busWrite; split
  · rfl
  · split
    · rfl
    · split <;> rfl

@[simp] theorem busWrite_x (a : Addr) (v : Byte) (s : State) : (busWrite a v s).x = s.x := by
  unfold busWrite; split
  · rfl
  · split
    · rfl
    · split <;> rfl

@[simp] theorem busWrite_y (a : Addr) (v : Byte) (s : State) : (busWrite a v s).y = s.y := by
  unfold busWrite; split
  · rfl
  · split
    · rfl
    · split <;> rfl

@[simp] theorem busWrite_r (a : Addr) (v : Byte) (s : State) : (busWrite a v s).r = s.r := by
  unfold busWrite; split
  · rfl
  · split
    · rfl
    · split <;> rfl

@[simp] theorem busWrite_sp (a : Addr) (v : Byte) (s : State) : (busWrite a v s).sp = s.sp := by
  unfold busWrite; split
  · rfl
  · split
    · rfl
    · split <;> rfl

@[simp] theorem busWrite_pc (a : Addr) (v : Byte) (s : State) : (busWrite a v s).pc = s.pc := by
  unfold busWrite; split
  · rfl
  · split
    · rfl
    · split <;> rfl

@[simp] theorem busWrite_flags (a : Addr) (v : Byte) (s : State) : (busWrite a v s).flags = s.flags := by
  unfold busWrite; split
  · rfl
  · split
    · rfl
    · split <;> rfl

@[simp] theorem busWrite_halted (a : Addr) (v : Byte) (s : State) : (busWrite a v s).halted = s.halted := by
  unfold busWrite; split
  · rfl
  · split
    · rfl
    · split <;> rfl

@[simp] theorem busWrite_waiting (a : Addr) (v : Byte) (s : State) : (busWrite a v s).waiting = s.waiting := by
  unfold busWrite; split
  · rfl
  · split
    · rfl
    · split <;> rfl

@[simp] theorem busWrite_fault (a : Addr) (v : Byte) (s : State) : (busWrite a v s).fault = s.fault := by
  unfold busWrite; split
  · rfl
  · split
    · rfl
    · split <;> rfl

@[simp] theorem busWrite_cycles (a : Addr) (v : Byte) (s : State) : (busWrite a v s).cycles = s.cycles := by
  unfold busWrite; split
  · rfl
  · split
    · rfl
    · split <;> rfl

@[simp] theorem busWrite_pending (a : Addr) (v : Byte) (s : State) : (busWrite a v s).pending = s.pending := by
  unfold busWrite; split
  · rfl
  · split
    · rfl
    · split <;> rfl

@[simp] theorem busWrite_handlers (a : Addr) (v : Byte) (s : State) : (busWrite a v s).handlers = s.handlers := by
  unfold busWrite; split
  · rfl
  · split
    · rfl
    · split <;> rfl
@[simp] theorem busWrite_opcodes (a : Addr) (v : Byte) (s : State) : (busWrite a v s).opcodes = s.opcodes := by
  unfold busWrite; split
  · rfl
  · split
    · rfl
    · split <;> rfl

@[simp] theorem busWrite_ioDraws (a : Addr) (v : Byte) (s : State) : (busWrite a v s).ioDraws = s.ioDraws := by
  unfold busWrite; split
  · rfl
  · split
    · rfl
    · split <;> rfl

@[simp] theorem memRead16_a (a : Addr) (s : State) : (memRead16 a s).2.a = s.a := by simp [memRead16]
@[simp] theorem memRead16_x (a : Addr) (s : State) : (memRead16 a s).2.x = s.x := by simp [memRead16]
@[simp] theorem memRead16_y (a : Addr) (s : State) : (memRead16 a s).2.y = s.y := by simp [memRead16]
@[simp] theorem memRead16_r (a : Addr) (s : State) : (memRead16 a s).2.r = s.r := by simp [memRead16]
@[simp] theorem memRead16_sp (a : Addr) (s : State) : (memRead16 a s).2.sp = s.sp := by simp [memRead16]
@[simp] theorem memRead16_pc (a : Addr) (s : State) : (memRead16 a s).2.pc = s.pc := by simp [memRead16]
@[simp] theorem memRead16_flags (a : Addr) (s : State) : (memRead16 a s).2.flags = s.flags := by simp [memRead16]
@[simp] theorem memRead16_halted (a : Addr) (s : State) : (memRead16 a s).2.halted = s.halted := by simp [memRead16]
@[simp] theorem memRead16_waiting (a : Addr) (s : State) : (memRead16 a s).2.waiting = s.waiting := by simp [memRead16]
@[simp] theorem memRead16_fault (a : Addr) (s : State) : (memRead16 a s).2.fault = s.fault := by simp [memRead16]
@[simp] theorem memRead16_cycles (a : Addr) (s : State) : (memRead16 a s).2.cycles = s.cycles := by simp [memRead16]
@[simp] theorem memRead16_pending (a : Addr) (s : State) : (memRead16 a s).2.pending = s.pending := by simp [memRead16]
@[simp] theorem memRead16_mem (a : Addr) (s : State) : (memRead16 a s).2.mem = s.mem := by simp [memRead16]
@[simp] theorem memRead16_handlers (a : Addr) (s : State) : (memRead16 a s).2.handlers = s.handlers := by simp [memRead16]
@[simp] theorem memRead16_opcodes (a : Addr) (s : State) : (memRead16 a s).2.opcodes = s.opcodes := by simp [memRead16]
@[simp] theorem memRead24_a (a : Addr) (s : State) : (memRead24 a s).2.a = s.a := by simp [memRead24]
@[simp] theorem memRead24_x (a : Addr) (s : State) : (memRead24 a s).2.x = s.x := by simp [memRead24]
@[simp] theorem memRead24_y (a : Addr) (s : State) : (memRead24 a s).2.y = s.y := by simp [memRead24]
@[simp] theorem memRead24_r (a : Addr) (s : State) : (memRead24 a s).2.r = s.r := by simp [memRead24]
@[simp] theorem memRead24_sp (a : Addr) (s : State) : (memRead24 a s).2.sp = s.sp := by simp [memRead24]
@[simp] theorem memRead24_pc (a : Addr) (s : State) : (memRead24 a s).2.pc = s.pc := by simp [memRead24]
@[simp] theorem memRead24_flags (a : Addr) (s : State) : (memRead24 a s).2.flags = s.flags := by simp [memRead24]
@[simp] theorem memRead24_halted (a : Addr) (s : State) : (memRead24 a s).2.halted = s.halted := by simp [memRead24]
@[simp] theorem memRead24_waiting (a : Addr) (s : State) : (memRead24 a s).2.waiting = s.waiting := by simp [memRead24]
@[simp] theorem memRead24_fault (a : Addr) (s : State) : (memRead24 a s).2.fault = s.fault := by simp [memRead24]
@[simp] theorem memRead24_cycles (a : Addr) (s : State) : (memRead24 a s).2.cycles = s.cycles := by simp [memRead24]
@[simp] theorem memRead24_pending (a : Addr) (s : State) : (memRead24 a s).2.pending = s.pending := by simp [memRead24]
@[simp] theorem memRead24_mem (a : Addr) (s : State) : (memRead24 a s).2.mem = s.mem := by simp [memRead24]
@[simp] theorem memRead24_handlers (a : Addr) (s : State) : (memRead24 a s).2.handlers = s.handlers := by simp [memRead24]
@[simp] theorem memRead24_opcodes (a : Addr) (s : State) : (memRead24 a s).2.opcodes = s.opcodes := by simp [memRead24]
@[simp] theorem memWrite16_a (a : Addr) (v : Word) (s : State) : (memWrite16 a v s).a = s.a := by simp [memWrite16]
@[simp] theorem memWrite16_x (a : Addr) (v : Word) (s : State) : (memWrite16 a v s).x = s.x := by simp [memWrite16]
@[simp] theorem memWrite16_y (a : Addr) (v : Word) (s : State) : (memWrite16 a v s).y = s.y := by simp [memWrite16]
@[simp] theorem memWrite16_r (a : Addr) (v : Word) (s : State) : (memWrite16 a v s).r = s.r := by simp [memWrite16]
@[simp] theorem memWrite16_sp (a : Addr) (v : Word) (s : State) : (memWrite16 a v s).sp = s.sp := by simp [memWrite16]
@[simp] theorem memWrite16_pc (a : Addr) (v : Word) (s : State) : (memWrite16 a v s).pc = s.pc := by simp [memWrite16]
@[simp] theorem memWrite16_flags (a : Addr) (v : Word) (s : State) : (memWrite16 a v s).flags = s.flags := by simp [memWrite16]
@[simp] theorem memWrite16_halted (a : Addr) (v : Word) (s : State) : (memWrite16 a v s).halted = s.halted := by simp [memWrite16]
@[simp] theorem memWrite16_waiting (a : Addr) (v : Word) (s : State) : (memWrite16 a v s).waiting = s.waiting := by simp [memWrite16]
@[simp] theorem memWrite16_fault (a : Addr) (v : Word) (s : State) : (memWrite16 a v s).fault = s.fault := by simp [memWrite16]
@[simp] theorem memWrite16_cycles (a : Addr) (v : Word) (s : State) : (memWrite16 a v s).cycles = s.cycles := by simp [memWrite16]
@[simp] theorem memWrite16_pending (a : Addr) (v : Word) (s : State) : (memWrite16 a v s).pending = s.pending := by simp [memWrite16]
@[simp] theorem memWrite16_handlers (a : Addr) (v : Word) (s : State) : (memWrite16 a v s).handlers = s.handlers := by simp [memWrite16]
@[simp] theorem memWrite16_opcodes (a : Addr) (v : Word) (s : State) : (memWrite16 a v s).opcodes = s.opcodes := by simp [memWrite16]
@[simp] theorem memWrite16_ioDraws (a : Addr) (v : Word) (s : State) : (memWrite16 a v s).ioDraws = s.ioDraws := by simp [memWrite16]

/-! ## The region table -/

theorem covers_iff (row : RegionRow) (n : Nat) : row.covers n = true ↔ row.first ≤ n ∧ n ≤ row.last := by
  rw [RegionRow.covers, Bool.and_eq_true, decide_eq_true_eq, decide_eq_true_eq]

/-- No address lies in two rows (20 R50). -/
theorem regionRow_disjoint {g h : Region} {n : Nat} (hg : (regionRow g).covers n = true) (hh : (regionRow h).covers n = true) :
    g = h := by
  rw [covers_iff] at hg hh
  have p : ∀ g h : Region, g = h ∨ (regionRow g).last < (regionRow h).first ∨ (regionRow h).last < (regionRow g).first := by
    intro g h
    cases g <;> cases h <;> simp only [regionRow, reduceCtorEq, true_or, false_or] <;> decide
  rcases p g h with e | e | e
  · exact e
  · omega
  · omega

theorem mem_regionTable {row : RegionRow} : row ∈ regionTable ↔ ∃ g, row = regionRow g := by
  constructor
  · intro h
    simp only [regionTable, List.mem_cons, List.not_mem_nil, or_false] at h
    rcases h with h | h | h | h | h | h | h | h <;> exact ⟨_, h⟩
  · rintro ⟨g, rfl⟩
    cases g <;> simp [regionTable]

/-- The region of an address is the row that covers it (20 R50). -/
theorem regionAt_of_covers {g : Region} {a : Addr} (h : (regionRow g).covers a.toNat = true) :
    regionAt a = some (regionRow g) := by
  cases hf : regionAt a with
  | none => exact absurd h (List.find?_eq_none.1 hf _ (mem_regionTable.2 ⟨g, rfl⟩))
  | some row =>
    obtain ⟨k, rfl⟩ := mem_regionTable.1 (List.mem_of_find?_eq_some hf)
    rw [regionRow_disjoint h (List.find?_some (p := fun row : RegionRow => row.covers a.toNat) (l := regionTable) hf)]

/-- Everything the region table answers (20 R50, R52). -/
theorem regionAt_cases (a : Addr) :
    (regionAt a = none ∧ ∀ g, ¬ ((regionRow g).first ≤ a.toNat ∧ a.toNat ≤ (regionRow g).last)) ∨
    (∃ g, regionAt a = some (regionRow g) ∧ (regionRow g).first ≤ a.toNat ∧ a.toNat ≤ (regionRow g).last) := by
  cases hf : regionAt a with
  | none =>
    refine .inl ⟨rfl, fun g h => ?_⟩
    exact List.find?_eq_none.1 hf _ (mem_regionTable.2 ⟨g, rfl⟩) ((covers_iff _ _).2 h)
  | some row =>
    obtain ⟨k, rfl⟩ := mem_regionTable.1 (List.mem_of_find?_eq_some hf)
    exact .inr ⟨k, rfl, (covers_iff _ _).1 (List.find?_some (p := fun row : RegionRow => row.covers a.toNat) (l := regionTable) hf)⟩

/-! ## One-byte accesses -/

/-- `storedByte` depends on storage alone. -/
theorem storedByte_congr {s t : State} (h : s.mem = t.mem) (a : Addr) : storedByte s a = storedByte t a := by
  unfold storedByte; rw [h]

@[simp] theorem storedByte_charge (n : Nat) (s : State) (a : Addr) :
    storedByte (s.charge n) a = storedByte s a := storedByte_congr rfl a
@[simp] theorem storedByte_setPc (p : Addr) (s : State) (a : Addr) :
    storedByte (s.setPc p) a = storedByte s a := storedByte_congr rfl a
@[simp] theorem storedByte_setFlags (f : Flags) (s : State) (a : Addr) :
    storedByte (s.setFlags f) a = storedByte s a := storedByte_congr rfl a
@[simp] theorem storedByte_setSp (v : Word) (s : State) (a : Addr) :
    storedByte (s.setSp v) a = storedByte s a := storedByte_congr rfl a
@[simp] theorem storedByte_setPending (p : IrqSet) (s : State) (a : Addr) :
    storedByte (s.setPending p) a = storedByte s a := storedByte_congr rfl a
@[simp] theorem storedByte_setHalted (b : Bool) (s : State) (a : Addr) :
    storedByte (s.setHalted b) a = storedByte s a := storedByte_congr rfl a
@[simp] theorem storedByte_setWaiting (b : Bool) (s : State) (a : Addr) :
    storedByte (s.setWaiting b) a = storedByte s a := storedByte_congr rfl a

/-- Outside every handler range a read answers the stored byte and changes nothing. -/
theorem busRead_plain {a : Addr} {s : State} (h : handlerAt s.handlers a = none) :
    busRead a s = (storedByte s a, s) := by
  unfold busRead; rw [h]

/-- In a handler range a read answers the next draw and records the access. -/
theorem busRead_handler {a : Addr} {s : State} {h : HandlerRange} (hh : handlerAt s.handlers a = some h) :
    busRead a s = (Config.ioReadByte s.ioDraws,
      s.recordRead (.read a (a - h.first) (Config.ioReadByte s.ioDraws))) := by
  unfold busRead; rw [hh]

/-- In a handler range a write records the access and stores nothing. -/
theorem busWrite_handler {a : Addr} {s : State} {h : HandlerRange} (hh : handlerAt s.handlers a = some h)
    (v : Byte) : busWrite a v s = s.recordWrite (.write a (a - h.first) v) := by
  unfold busWrite; rw [hh]

/-- To an unmapped address a write changes nothing. -/
theorem busWrite_unmapped {a : Addr} {s : State} (h : handlerAt s.handlers a = none) (hr : regionAt a = none)
    (v : Byte) : busWrite a v s = s := by
  unfold busWrite; rw [h, hr]

/-- To a ReadOnly region a write changes nothing. -/
theorem busWrite_readOnly {a : Addr} {s : State} {row : RegionRow} (h : handlerAt s.handlers a = none)
    (hr : regionAt a = some row) (hp : row.policy = .readOnly) (v : Byte) : busWrite a v s = s := by
  unfold busWrite; simp only [h, hr, hp]

/-- To a ReadWrite region a write stores the byte. -/
theorem busWrite_stores {a : Addr} {s : State} {row : RegionRow} (h : handlerAt s.handlers a = none)
    (hr : regionAt a = some row) (hp : row.policy = .readWrite) (v : Byte) :
    busWrite a v s = s.setMem (memSet s.mem a.toNat v) := by
  unfold busWrite; simp only [h, hr, hp]

/-- Everything a write can do: record an access in a handler range, nothing, or store the byte in a ReadWrite region. -/
theorem busWrite_cases (a : Addr) (v : Byte) (s : State) :
    (∃ h, handlerAt s.handlers a = some h ∧ busWrite a v s = s.recordWrite (.write a (a - h.first) v)) ∨
    (handlerAt s.handlers a = none ∧ (∀ row, regionAt a = some row → row.policy = .readOnly) ∧
      busWrite a v s = s) ∨
    (handlerAt s.handlers a = none ∧ ∃ row, regionAt a = some row ∧ row.policy = .readWrite ∧
      busWrite a v s = s.setMem (memSet s.mem a.toNat v)) := by
  cases hh : handlerAt s.handlers a with
  | some h => exact .inl ⟨h, rfl, busWrite_handler hh v⟩
  | none =>
    cases hr : regionAt a with
    | none => exact .inr (.inl ⟨rfl, by simp, busWrite_unmapped hh hr v⟩)
    | some row =>
      cases hp : row.policy with
      | readOnly => exact .inr (.inl ⟨rfl, by rintro _ ⟨⟩; exact hp, busWrite_readOnly hh hr hp v⟩)
      | readWrite => exact .inr (.inr ⟨rfl, row, rfl, hp, busWrite_stores hh hr hp v⟩)

theorem toNat_ne_of_ne {a b : Addr} (h : b ≠ a) : b.toNat ≠ a.toNat :=
  fun e => h (BitVec.eq_of_toNat_eq e)

/-- A write leaves the stored byte of every other address. -/
theorem storedByte_busWrite_other {a b : Addr} (h : b ≠ a) (v : Byte) (s : State) :
    storedByte (busWrite a v s) b = storedByte s b := by
  rcases busWrite_cases a v s with ⟨_, _, e⟩ | ⟨_, _, e⟩ | ⟨_, _, _, _, e⟩ <;> rw [e]
  · rfl
  · unfold storedByte
    split
    · rfl
    · exact memGet_memSet_other _ (toNat_ne_of_ne h) v

/-- Reading writable storage just written gives the byte written. -/
theorem storedByte_busWrite_same {a : Addr} {s : State} {row : RegionRow} (hm : s.mem.wf = true)
    (h : handlerAt s.handlers a = none) (hr : regionAt a = some row) (hp : row.policy = .readWrite) (v : Byte) :
    storedByte (busWrite a v s) a = v := by
  rw [busWrite_stores h hr hp, storedByte, hr]
  exact memGet_memSet_same hm _ v

/-- A write keeps the canonical form of memory. -/
theorem memory_wf_busWrite {s : State} (hm : s.mem.wf = true) (a : Addr) (v : Byte) :
    (busWrite a v s).mem.wf = true := by
  rcases busWrite_cases a v s with ⟨_, _, e⟩ | ⟨_, _, e⟩ | ⟨_, _, _, _, e⟩ <;> rw [e]
  · exact hm
  · exact hm
  · exact memory_wf_memSet hm _ v

theorem memory_wf_memWrite16 {s : State} (hm : s.mem.wf = true) (a : Addr) (v : Word) :
    (memWrite16 a v s).mem.wf = true :=
  memory_wf_busWrite (memory_wf_busWrite hm _ _) _ _

/-! ## Wider reads of plain memory -/

theorem memRead16_plain {a : Addr} {s : State} (h0 : handlerAt s.handlers a = none)
    (h1 : handlerAt s.handlers (a + 1) = none) :
    memRead16 a s = (wordOfBytes (storedByte s (a + 1)) (storedByte s a), s) := by
  simp only [memRead16, busRead_plain h0, busRead_plain h1]

theorem memRead24_plain {a : Addr} {s : State} (h0 : handlerAt s.handlers a = none)
    (h1 : handlerAt s.handlers (a + 1) = none) (h2 : handlerAt s.handlers (a + 2) = none) :
    memRead24 a s = (addrOfBytes (storedByte s (a + 2)) (storedByte s (a + 1)) (storedByte s a), s) := by
  simp only [memRead24, busRead_plain h0, busRead_plain h1, busRead_plain h2]

/-! ## The stack lies in WorkRAM -/

theorem handlerAt_of_not_io {a : Addr} (h : inIoRegion a = false) (hs : List HandlerRange) :
    handlerAt hs a = none := by
  simp [handlerAt, h]

theorem stackAddr_toNat (sp : Word) : (stackAddr sp).toNat = sp.toNat := by
  have := sp.isLt
  simp [stackAddr, BitVec.toNat_setWidth]; omega

@[simp] theorem handlerAt_stackAddr (hs : List HandlerRange) (sp : Word) : handlerAt hs (stackAddr sp) = none := by
  refine handlerAt_of_not_io ?_ hs
  have := sp.isLt
  simp [inIoRegion, RegionRow.covers, regionRow, stackAddr_toNat]; omega

@[simp] theorem regionAt_stackAddr (sp : Word) : regionAt (stackAddr sp) = some (regionRow .workRam) := by
  have h : (regionRow .workRam).covers (stackAddr sp).toNat = true := by
    have := sp.isLt
    simp [RegionRow.covers, regionRow, stackAddr_toNat]; omega
  simp [regionAt, regionTable, h]

theorem stackAddr_inj {p q : Word} (h : stackAddr p = stackAddr q) : p = q := by
  apply BitVec.eq_of_toNat_eq
  rw [← stackAddr_toNat p, ← stackAddr_toNat q, h]

theorem push8_eq (v : Byte) (s : State) :
    push8 v s = (s.setMem (memSet s.mem (stackAddr s.sp).toNat v)).setSp (s.sp - 1) := by
  rw [push8, busWrite_stores (handlerAt_stackAddr _ _) (regionAt_stackAddr _) rfl]
  rfl

theorem pop8_eq (s : State) : pop8 s = (storedByte s (stackAddr (s.sp + 1)), s.setSp (s.sp + 1)) := by
  rw [pop8, busRead_plain (by simp)]
  rfl

/-- The three bytes of a pop, low byte first, and SP three higher (20 R71). -/
theorem pop24_eq (s : State) :
    pop24 s = (addrOfBytes (storedByte s (stackAddr (s.sp + 3))) (storedByte s (stackAddr (s.sp + 2)))
      (storedByte s (stackAddr (s.sp + 1))), s.setSp (s.sp + 3)) := by
  have e2 : s.sp + 1 + 1 = s.sp + 2 := by rw [BitVec.add_assoc]; rfl
  have e3 : s.sp + 2 + 1 = s.sp + 3 := by rw [BitVec.add_assoc]; rfl
  simp only [pop24, pop8_eq, State.setSp_sp, e2, e3]
  rfl

@[simp] theorem push8_a (v : Byte) (s : State) : (push8 v s).a = s.a := by simp [push8_eq]
@[simp] theorem push8_x (v : Byte) (s : State) : (push8 v s).x = s.x := by simp [push8_eq]
@[simp] theorem push8_y (v : Byte) (s : State) : (push8 v s).y = s.y := by simp [push8_eq]
@[simp] theorem push8_r (v : Byte) (s : State) : (push8 v s).r = s.r := by simp [push8_eq]
@[simp] theorem push8_pc (v : Byte) (s : State) : (push8 v s).pc = s.pc := by simp [push8_eq]
@[simp] theorem push8_flags (v : Byte) (s : State) : (push8 v s).flags = s.flags := by simp [push8_eq]
@[simp] theorem push8_halted (v : Byte) (s : State) : (push8 v s).halted = s.halted := by simp [push8_eq]
@[simp] theorem push8_waiting (v : Byte) (s : State) : (push8 v s).waiting = s.waiting := by simp [push8_eq]
@[simp] theorem push8_fault (v : Byte) (s : State) : (push8 v s).fault = s.fault := by simp [push8_eq]
@[simp] theorem push8_cycles (v : Byte) (s : State) : (push8 v s).cycles = s.cycles := by simp [push8_eq]
@[simp] theorem push8_pending (v : Byte) (s : State) : (push8 v s).pending = s.pending := by simp [push8_eq]
@[simp] theorem push8_handlers (v : Byte) (s : State) : (push8 v s).handlers = s.handlers := by simp [push8_eq]
@[simp] theorem push8_opcodes (v : Byte) (s : State) : (push8 v s).opcodes = s.opcodes := by simp [push8_eq]
@[simp] theorem push8_ioDraws (v : Byte) (s : State) : (push8 v s).ioDraws = s.ioDraws := by simp [push8_eq]
@[simp] theorem push8_ioEvents (v : Byte) (s : State) : (push8 v s).ioEvents = s.ioEvents := by simp [push8_eq]
@[simp] theorem push8_sp (v : Byte) (s : State) : (push8 v s).sp = s.sp - 1 := by simp [push8_eq]

@[simp] theorem push24_a (v : Addr) (s : State) : (push24 v s).a = s.a := by simp [push24]
@[simp] theorem push24_x (v : Addr) (s : State) : (push24 v s).x = s.x := by simp [push24]
@[simp] theorem push24_y (v : Addr) (s : State) : (push24 v s).y = s.y := by simp [push24]
@[simp] theorem push24_r (v : Addr) (s : State) : (push24 v s).r = s.r := by simp [push24]
@[simp] theorem push24_pc (v : Addr) (s : State) : (push24 v s).pc = s.pc := by simp [push24]
@[simp] theorem push24_flags (v : Addr) (s : State) : (push24 v s).flags = s.flags := by simp [push24]
@[simp] theorem push24_halted (v : Addr) (s : State) : (push24 v s).halted = s.halted := by simp [push24]
@[simp] theorem push24_waiting (v : Addr) (s : State) : (push24 v s).waiting = s.waiting := by simp [push24]
@[simp] theorem push24_fault (v : Addr) (s : State) : (push24 v s).fault = s.fault := by simp [push24]
@[simp] theorem push24_cycles (v : Addr) (s : State) : (push24 v s).cycles = s.cycles := by simp [push24]
@[simp] theorem push24_pending (v : Addr) (s : State) : (push24 v s).pending = s.pending := by simp [push24]
@[simp] theorem push24_handlers (v : Addr) (s : State) : (push24 v s).handlers = s.handlers := by simp [push24]
@[simp] theorem push24_opcodes (v : Addr) (s : State) : (push24 v s).opcodes = s.opcodes := by simp [push24]
@[simp] theorem push24_ioDraws (v : Addr) (s : State) : (push24 v s).ioDraws = s.ioDraws := by simp [push24]
@[simp] theorem push24_ioEvents (v : Addr) (s : State) : (push24 v s).ioEvents = s.ioEvents := by simp [push24]

@[simp] theorem push24_sp (v : Addr) (s : State) : (push24 v s).sp = s.sp - 3 := by
  simp only [push24, push8_sp]
  bv_omega

theorem memory_wf_push8 {s : State} (hm : s.mem.wf = true) (v : Byte) : (push8 v s).mem.wf = true := by
  rw [push8_eq]; exact memory_wf_memSet hm _ _

theorem memory_wf_push24 {s : State} (hm : s.mem.wf = true) (v : Addr) : (push24 v s).mem.wf = true :=
  memory_wf_push8 (memory_wf_push8 (memory_wf_push8 hm _) _) _

theorem storedByte_push8_same {s : State} (hm : s.mem.wf = true) (v : Byte) :
    storedByte (push8 v s) (stackAddr s.sp) = v := by
  rw [push8_eq, storedByte, regionAt_stackAddr]
  exact memGet_memSet_same hm _ v

theorem storedByte_push8_other {s : State} {b : Addr} (h : b ≠ stackAddr s.sp) (v : Byte) :
    storedByte (push8 v s) b = storedByte s b := by
  rw [push8_eq, storedByte, storedByte]
  split
  · rfl
  · exact memGet_memSet_other _ (toNat_ne_of_ne h) v

theorem stackAddr_sub_ne (sp : Word) {j k : Word} (h : j ≠ k) : stackAddr (sp - j) ≠ stackAddr (sp - k) :=
  fun e => h (by have := stackAddr_inj e; bv_omega)

theorem stackAddr_ne_sub (sp : Word) {k : Word} (h : k ≠ 0) : stackAddr sp ≠ stackAddr (sp - k) :=
  fun e => h (by have := stackAddr_inj e; bv_omega)

/-- Where a 24-bit push puts its bytes: high byte at SP, low byte at SP - 2 (20 R70). -/
theorem storedByte_push24 {s : State} (hm : s.mem.wf = true) (v : Addr) :
    storedByte (push24 v s) (stackAddr s.sp) = byteOf 2 v ∧
    storedByte (push24 v s) (stackAddr (s.sp - 1)) = byteOf 1 v ∧
    storedByte (push24 v s) (stackAddr (s.sp - 2)) = byteOf 0 v := by
  have h2 : (push8 (byteOf 1 v) (push8 (byteOf 2 v) s)).sp = s.sp - 2 := by simp; bv_omega
  have w1 := memory_wf_push8 hm (byteOf 2 v)
  have w2 := memory_wf_push8 w1 (byteOf 1 v)
  refine ⟨?_, ?_, ?_⟩
  · rw [push24, storedByte_push8_other (by rw [h2]; exact stackAddr_ne_sub _ (by decide)),
      storedByte_push8_other (by rw [push8_sp]; exact stackAddr_ne_sub _ (by decide)), storedByte_push8_same hm]
  · rw [push24, storedByte_push8_other (by rw [h2]; exact stackAddr_sub_ne _ (by decide))]
    have := storedByte_push8_same w1 (byteOf 1 v)
    rwa [push8_sp] at this
  · have := storedByte_push8_same w2 (byteOf 0 v)
    rwa [h2] at this

/-- A 24-bit push leaves every byte but its three. -/
theorem storedByte_push24_other {s : State} {b : Addr} (v : Addr) (h0 : b ≠ stackAddr s.sp)
    (h1 : b ≠ stackAddr (s.sp - 1)) (h2 : b ≠ stackAddr (s.sp - 2)) :
    storedByte (push24 v s) b = storedByte s b := by
  have e2 : (push8 (byteOf 1 v) (push8 (byteOf 2 v) s)).sp = s.sp - 2 := by simp; bv_omega
  rw [push24, storedByte_push8_other (by rwa [e2]), storedByte_push8_other (by rwa [push8_sp]),
    storedByte_push8_other h0]

/-! ## Vectors lie in BIOS -/

theorem handlerAt_vectorAddr (hs : List HandlerRange) (id : IrqSource) :
    handlerAt hs (vectorAddr id) = none ∧ handlerAt hs (vectorAddr id + 1) = none ∧
    handlerAt hs (vectorAddr id + 2) = none := by
  refine ⟨handlerAt_of_not_io ?_ hs, handlerAt_of_not_io ?_ hs, handlerAt_of_not_io ?_ hs⟩ <;>
    cases id <;> decide

theorem handlerAt_vectorBase (hs : List HandlerRange) :
    handlerAt hs vectorBase = none ∧ handlerAt hs (vectorBase + 1) = none ∧
    handlerAt hs (vectorBase + 2) = none :=
  ⟨handlerAt_of_not_io (by decide) hs, handlerAt_of_not_io (by decide) hs, handlerAt_of_not_io (by decide) hs⟩

/-- A vector byte is no stack byte. -/
theorem vector_ne_stackAddr (id : IrqSource) (sp : Word) :
    vectorAddr id ≠ stackAddr sp ∧ vectorAddr id + 1 ≠ stackAddr sp ∧ vectorAddr id + 2 ≠ stackAddr sp := by
  have key : ∀ a : Addr, 0x10000 ≤ a.toNat → a ≠ stackAddr sp := by
    intro a ha e
    have := sp.isLt
    rw [e, stackAddr_toNat] at ha
    omega
  refine ⟨key _ ?_, key _ ?_, key _ ?_⟩ <;> cases id <;> decide

/-! ## Bytes -/

theorem wordOfBytes_byteOf (v : Word) : wordOfBytes (byteOf 1 v) (byteOf 0 v) = v := by
  apply BitVec.eq_of_getLsbD_eq
  intro i hi
  simp only [wordOfBytes, byteOf, BitVec.getLsbD_append, BitVec.getLsbD_extractLsb']
  split
  · next h => simp [h]
  · next h =>
    have : i - 8 < 8 := by omega
    simp only [this, decide_true, Bool.true_and]
    congr 1; omega

theorem addrOfBytes_byteOf (v : Addr) : addrOfBytes (byteOf 2 v) (byteOf 1 v) (byteOf 0 v) = v := by
  apply BitVec.eq_of_getLsbD_eq
  intro i hi
  simp only [addrOfBytes, byteOf, BitVec.getLsbD_append, BitVec.getLsbD_extractLsb']
  split
  · next h => simp [h]
  · next h =>
    split
    · next h' =>
      simp only [h', decide_true, Bool.true_and]
      congr 1; omega
    · next h' =>
      have : i - 8 - 8 < 8 := by omega
      simp only [this, decide_true, Bool.true_and]
      congr 1; omega

/-! ## The interrupt set -/

/-- Setting or clearing one source's bit changes that bit alone. -/
theorem has_put (p : IrqSet) (b : Bool) (id k : IrqSource) :
    (p.put b id).has k = if k = id then b else p.has k := by
  cases id <;> cases k <;> rfl

/-! ## Entry, return and fault -/

/-- Interrupt entry in one equation: the frame on the stack, I set, PC from the vector as storage held it, the source acknowledged (60 R247). -/
theorem dispatch_eq (id : IrqSource) (ret : Addr) (s : State) :
    dispatch id ret s =
      ((push8 (flagsByte s.flags) (push24 ret (acknowledge id s))).setFlags (flagsSetI true s.flags)).setPc
        (addrOfBytes (storedByte s (vectorAddr id + 2)) (storedByte s (vectorAddr id + 1))
          (storedByte s (vectorAddr id))) := by
  generalize hP : push8 (flagsByte s.flags) (push24 ret (acknowledge id s)) = p
  have hv := handlerAt_vectorAddr (p.setFlags (flagsSetI true s.flags)).handlers id
  have hs : ∀ b : Addr, (∀ sp : Word, b ≠ stackAddr sp) →
      storedByte (p.setFlags (flagsSetI true s.flags)) b = storedByte s b := by
    intro b hb
    calc storedByte (p.setFlags (flagsSetI true s.flags)) b = storedByte p b := storedByte_congr rfl b
      _ = storedByte (push24 ret (acknowledge id s)) b := by rw [← hP, storedByte_push8_other (hb _)]
      _ = storedByte (acknowledge id s) b := storedByte_push24_other _ (hb _) (hb _) (hb _)
      _ = storedByte s b := storedByte_congr rfl b
  have hf : (acknowledge id s).flags = s.flags := rfl
  have hpf : p.flags = s.flags := by rw [← hP]; simp [hf]
  simp only [dispatch, push24_flags, hf, hP, hpf]
  rw [memRead24_plain hv.1 hv.2.1 hv.2.2,
    hs _ fun sp => (vector_ne_stackAddr id sp).1, hs _ fun sp => (vector_ne_stackAddr id sp).2.1,
    hs _ fun sp => (vector_ne_stackAddr id sp).2.2]

/-- The return of RTI in one equation: flags from the byte above SP, PC from the three above it, SP four higher (44 R213). -/
theorem returnFromInterrupt_eq (s : State) :
    returnFromInterrupt s =
      ((s.setFlags (flagsOfByte (storedByte s (stackAddr (s.sp + 1))))).setSp (s.sp + 4)).setPc
        (addrOfBytes (storedByte s (stackAddr (s.sp + 4))) (storedByte s (stackAddr (s.sp + 3)))
          (storedByte s (stackAddr (s.sp + 2)))) := by
  have e2 : s.sp + 1 + 1 = s.sp + 2 := by rw [BitVec.add_assoc]; rfl
  have e3 : s.sp + 1 + 2 = s.sp + 3 := by rw [BitVec.add_assoc]; rfl
  have e4 : s.sp + 1 + 3 = s.sp + 4 := by rw [BitVec.add_assoc]; rfl
  simp only [returnFromInterrupt, pop8_eq, pop24_eq, State.setFlags_sp, State.setSp_sp, e2, e3, e4]
  rfl

/-- Everything a step does while waiting (60 R231). -/
theorem waitStep_cases (s : State) :
    (nextEligible s.pending s.flags.i = none ∧ waitStep s = s.charge 1) ∨
    (∃ id, nextEligible s.pending s.flags.i = some id ∧ waitStep s = (s.setWaiting false).charge 1) := by
  cases h : nextEligible s.pending s.flags.i with
  | none => exact .inl ⟨rfl, by simp [waitStep, h, waitCycles]⟩
  | some id => exact .inr ⟨id, rfl, by simp [waitStep, h, waitCycles]⟩

end Sys2Proof.Machine
end

