-- ==== Sys2Proof/Laws/Decode.lean ====
section
/-! SUPPORT. The opcode map and the register ids read both ways, and what a decoded instruction is. -/

namespace Sys2Proof

/-! ## Opcode maps -/

/-- An admitted map gives no two rows one byte. -/
theorem OpcodeMap.byte_inj {m : OpcodeMap} (hm : m.ok = true) {o p : Op} (h : m.byte o = m.byte p) : o = p := by
  simp only [OpcodeMap.ok, Bool.and_eq_true, decide_eq_true_eq] at hm
  exact List.inj_on_of_nodup_map hm.1.1 (by cases o <;> decide) (by cases p <;> decide) h

/-- Every admitted map keeps the source's byte of LDA #imm16. -/
theorem OpcodeMap.byte_ldaImm {m : OpcodeMap} (hm : m.ok = true) : m.byte .ldaImm = 0x01 := by
  simp only [OpcodeMap.ok, Bool.and_eq_true, beq_iff_eq] at hm
  exact hm.1.2

/-- Every admitted map keeps the source's byte of HLT. -/
theorem OpcodeMap.byte_hlt {m : OpcodeMap} (hm : m.ok = true) : m.byte .hlt = 0xFF := by
  simp only [OpcodeMap.ok, Bool.and_eq_true, beq_iff_eq] at hm
  exact hm.2

/-- An assigned byte is the opcode byte of its row, whatever the map. -/
theorem byte_of_opOfByte {m : OpcodeMap} {b : Byte} {o : Op} (h : opOfByte m b = some o) : m.byte o = b := by
  have := List.find?_some h
  simpa using this

/-- A byte is unassigned exactly when no row has it, whatever the map (30 R97). -/
theorem opOfByte_eq_none_iff {m : OpcodeMap} {b : Byte} : opOfByte m b = none ↔ ∀ o, m.byte o ≠ b := by
  simp only [opOfByte, List.find?_eq_none, beq_iff_eq]
  exact ⟨fun h o => h o (by cases o <;> decide), fun h o _ => h o⟩

/-- An admitted map gives back the row of an opcode byte. -/
theorem opOfByte_byte {m : OpcodeMap} (hm : m.ok = true) (o : Op) : opOfByte m (m.byte o) = some o := by
  cases h : opOfByte m (m.byte o) with
  | none => exact absurd rfl (opOfByte_eq_none_iff.1 h o)
  | some p => rw [OpcodeMap.byte_inj hm (byte_of_opOfByte h)]

/-- The default map is the byte column of 30 R91. -/
@[simp] theorem byte_defaultMap (o : Op) : defaultMap.byte o = opcodeByte o := by cases o <;> rfl

/-- The default map is admitted. -/
theorem defaultMap_ok : defaultMap.ok = true := by decide

/-- The default map gives back the row of an opcode byte. -/
@[simp] theorem opOfByte_opcodeByte (o : Op) : opOfByte defaultMap (opcodeByte o) = some o := by
  rw [← byte_defaultMap]; exact opOfByte_byte defaultMap_ok o

/-! ## Register ids -/

@[simp] theorem regOfId_regId (r : Reg) : regOfId (regId r) = some r := by
  cases r with
  | r k => revert k; decide
  | a => decide
  | x => decide
  | y => decide
  | sp => decide

theorem regId_of_regOfId {id : BitVec 4} {r : Reg} (h : regOfId id = some r) : regId r = id := by
  revert id
  cases r with
  | r k => revert k; decide
  | a => decide
  | x => decide
  | y => decide
  | sp => decide

/-- The reserved ids are 12 to 15 (30 R96). -/
theorem regOfId_eq_none_iff (id : BitVec 4) : regOfId id = none ↔ 12 ≤ id.toNat := by
  revert id; decide

/-- Operand bytes decode to an instruction of their own row. -/
theorem op_of_decodeOperands {o : Op} {bs : List Byte} {i : Instr} (h : decodeOperands o bs = some i) :
    i.op = o := by
  cases o <;> simp only [decodeOperands, Option.some.injEq, Option.map_eq_some_iff] at h <;>
    first
    | (subst h; rfl)
    | (obtain ⟨_, _, rfl⟩ := h; rfl)

theorem offsetOk_toInt (b : Byte) : offsetOk b.toInt = true := by
  have h1 := BitVec.toInt_lt (x := b)
  have h2 := BitVec.le_toInt (x := b)
  simp only [offsetOk, Bool.and_eq_true, decide_eq_true_eq]
  constructor <;> omega

theorem bitIndexOk_toNat (n : BitVec 4) : bitIndexOk n.toNat = true := by
  have := n.isLt
  simp only [bitIndexOk, decide_eq_true_eq]
  omega

/-- The bytes of `hi ++ lo`. -/
theorem byteOf_wordOfBytes (hi lo : Byte) :
    byteOf 0 (wordOfBytes hi lo) = lo ∧ byteOf 1 (wordOfBytes hi lo) = hi := by
  constructor <;> apply BitVec.eq_of_getLsbD_eq <;> intro i h <;>
    simp only [wordOfBytes, byteOf, BitVec.getLsbD_append, BitVec.getLsbD_extractLsb'] <;> simp [h]

/-- The bytes of `b2 ++ b1 ++ b0`. -/
theorem byteOf_addrOfBytes (b2 b1 b0 : Byte) :
    byteOf 0 (addrOfBytes b2 b1 b0) = b0 ∧ byteOf 1 (addrOfBytes b2 b1 b0) = b1 ∧
    byteOf 2 (addrOfBytes b2 b1 b0) = b2 := by
  refine ⟨?_, ?_, ?_⟩ <;> apply BitVec.eq_of_getLsbD_eq <;> intro i h <;>
    simp only [addrOfBytes, byteOf, BitVec.getLsbD_append, BitVec.getLsbD_extractLsb'] <;> simp [h]
  have h1 : ¬ 16 + i < 8 := by omega
  have h2 : ¬ 16 + i - 8 < 8 := by omega
  have h3 : 16 + i - 8 - 8 = i := by omega
  simp [h1, h2, h3, BitVec.getLsbD_eq_getElem h]

/-! ## Operand bytes and their fields -/

theorem highNibble_append (p q : BitVec 4) : highNibble (p ++ q) = p := by revert p q; decide

theorem lowNibble_append (p q : BitVec 4) : lowNibble (p ++ q) = q := by revert p q; decide

theorem nibbles_append (b : Byte) : (highNibble b ++ lowNibble b : BitVec 8) = b := by revert b; decide

theorem r1Of_append (r : Reg) (bs : List Byte) : r1Of ((regId r ++ (0 : BitVec 4)) :: bs) = some r := by
  simp only [r1Of, operandByte, List.getD_cons_zero, lowNibble_append, highNibble_append, if_true, regOfId_regId]

theorem r2Of_append (d src : Reg) (bs : List Byte) : r2Of ((regId d ++ regId src) :: bs) = some (d, src) := by
  simp only [r2Of, operandByte, List.getD_cons_zero, lowNibble_append, highNibble_append, regOfId_regId]

theorem rbOf_append (r : Reg) (b : BitVec 4) (bs : List Byte) : rbOf ((regId r ++ b) :: bs) = some (r, b.toNat) := by
  simp only [rbOf, operandByte, List.getD_cons_zero, lowNibble_append, highNibble_append, regOfId_regId, Option.map_some]

/-- An assigned opcode byte with all its operand bytes decodes to what its row reads from them (30 R92). -/
theorem decodeBy_of_operands {m : OpcodeMap} {b : Byte} {o : Op} {i : Instr} (ops rest : List Byte)
    (h : opOfByte m b = some o)
    (hl : ops.length = o.operandBytes) (hd : decodeOperands o ops = some i) :
    decodeBy m (b :: (ops ++ rest)) = .ok (i, rest) := by
  simp [decodeBy, h, ← hl, hd]

/-- The same under the default map. -/
theorem decode_of_operands {b : Byte} {o : Op} {i : Instr} (ops rest : List Byte) (h : opOfByte defaultMap b = some o)
    (hl : ops.length = o.operandBytes) (hd : decodeOperands o ops = some i) :
    decode (b :: (ops ++ rest)) = .ok (i, rest) := decodeBy_of_operands ops rest h hl hd

end Sys2Proof
end

