-- ==== Sys2Proof/Laws/Operands.lean ====
section
/-! SUPPORT. Reading and writing registers by name. -/

namespace Sys2Proof.Machine

/-- Reading any register after writing one. -/
theorem readReg_writeReg (q r : Reg) (v : Word) (s : State) :
    readReg q (writeReg r v s) = if q = r then v else readReg q s := by
  cases q <;> cases r <;> simp [readReg, writeReg, Vector.get_eq_getElem, Vector.getElem_set, Fin.ext_iff, eq_comm]

/-- Two states that agree on A, X, Y, R0 to R7 and SP agree on every register. -/
theorem readReg_congr {s t : State} (ha : s.a = t.a) (hx : s.x = t.x) (hy : s.y = t.y) (hr : s.r = t.r)
    (hsp : s.sp = t.sp) (q : Reg) : readReg q s = readReg q t := by
  cases q <;> simp [readReg, *]

section
variable (r : Reg) (v : Word) (s : State)

@[simp] theorem writeReg_pc : (writeReg r v s).pc = s.pc := by cases r <;> rfl
@[simp] theorem writeReg_flags : (writeReg r v s).flags = s.flags := by cases r <;> rfl
@[simp] theorem writeReg_halted : (writeReg r v s).halted = s.halted := by cases r <;> rfl
@[simp] theorem writeReg_waiting : (writeReg r v s).waiting = s.waiting := by cases r <;> rfl
@[simp] theorem writeReg_fault : (writeReg r v s).fault = s.fault := by cases r <;> rfl
@[simp] theorem writeReg_cycles : (writeReg r v s).cycles = s.cycles := by cases r <;> rfl
@[simp] theorem writeReg_pending : (writeReg r v s).pending = s.pending := by cases r <;> rfl
@[simp] theorem writeReg_mem : (writeReg r v s).mem = s.mem := by cases r <;> rfl
@[simp] theorem writeReg_handlers : (writeReg r v s).handlers = s.handlers := by cases r <;> rfl
@[simp] theorem writeReg_opcodes : (writeReg r v s).opcodes = s.opcodes := by cases r <;> rfl
@[simp] theorem writeReg_ioDraws : (writeReg r v s).ioDraws = s.ioDraws := by cases r <;> rfl
@[simp] theorem writeReg_ioEvents : (writeReg r v s).ioEvents = s.ioEvents := by cases r <;> rfl

end

@[simp] theorem readReg_setFlags (q : Reg) (f : Flags) (s : State) : readReg q (s.setFlags f) = readReg q s := by
  cases q <;> rfl
@[simp] theorem readReg_setPc (q : Reg) (p : Addr) (s : State) : readReg q (s.setPc p) = readReg q s := by
  cases q <;> rfl
@[simp] theorem readReg_setMem (q : Reg) (m : Memory) (s : State) : readReg q (s.setMem m) = readReg q s := by
  cases q <;> rfl
@[simp] theorem readReg_setHalted (q : Reg) (b : Bool) (s : State) : readReg q (s.setHalted b) = readReg q s := by
  cases q <;> rfl
@[simp] theorem readReg_setWaiting (q : Reg) (b : Bool) (s : State) : readReg q (s.setWaiting b) = readReg q s := by
  cases q <;> rfl
@[simp] theorem readReg_setPending (q : Reg) (p : IrqSet) (s : State) : readReg q (s.setPending p) = readReg q s := by
  cases q <;> rfl
@[simp] theorem readReg_charge (q : Reg) (n : Nat) (s : State) : readReg q (s.charge n) = readReg q s := by
  cases q <;> rfl

end Sys2Proof.Machine
end

