-- ==== Sys2Proof/Laws/Interrupts.lean ====
section
/-! SUPPORT. What raising, acknowledging and dispatching an interrupt, returning from one and a decode fault do to each field of the state. -/

namespace Sys2Proof.Machine

/-! ## Raise and acknowledge -/

section
variable (id : IrqSource) (s : State)

@[simp] theorem intRaise_a : (intRaise id s).a = s.a := rfl
@[simp] theorem acknowledge_a : (acknowledge id s).a = s.a := rfl
@[simp] theorem intRaise_x : (intRaise id s).x = s.x := rfl
@[simp] theorem acknowledge_x : (acknowledge id s).x = s.x := rfl
@[simp] theorem intRaise_y : (intRaise id s).y = s.y := rfl
@[simp] theorem acknowledge_y : (acknowledge id s).y = s.y := rfl
@[simp] theorem intRaise_r : (intRaise id s).r = s.r := rfl
@[simp] theorem acknowledge_r : (acknowledge id s).r = s.r := rfl
@[simp] theorem intRaise_sp : (intRaise id s).sp = s.sp := rfl
@[simp] theorem acknowledge_sp : (acknowledge id s).sp = s.sp := rfl
@[simp] theorem intRaise_pc : (intRaise id s).pc = s.pc := rfl
@[simp] theorem acknowledge_pc : (acknowledge id s).pc = s.pc := rfl
@[simp] theorem intRaise_flags : (intRaise id s).flags = s.flags := rfl
@[simp] theorem acknowledge_flags : (acknowledge id s).flags = s.flags := rfl
@[simp] theorem intRaise_halted : (intRaise id s).halted = s.halted := rfl
@[simp] theorem acknowledge_halted : (acknowledge id s).halted = s.halted := rfl
@[simp] theorem intRaise_waiting : (intRaise id s).waiting = s.waiting := rfl
@[simp] theorem acknowledge_waiting : (acknowledge id s).waiting = s.waiting := rfl
@[simp] theorem intRaise_fault : (intRaise id s).fault = s.fault := rfl
@[simp] theorem acknowledge_fault : (acknowledge id s).fault = s.fault := rfl
@[simp] theorem intRaise_cycles : (intRaise id s).cycles = s.cycles := rfl
@[simp] theorem acknowledge_cycles : (acknowledge id s).cycles = s.cycles := rfl
@[simp] theorem intRaise_pending : (intRaise id s).pending = s.pending.put true id := rfl
@[simp] theorem acknowledge_pending : (acknowledge id s).pending = s.pending.put false id := rfl
@[simp] theorem intRaise_mem : (intRaise id s).mem = s.mem := rfl
@[simp] theorem acknowledge_mem : (acknowledge id s).mem = s.mem := rfl
@[simp] theorem intRaise_handlers : (intRaise id s).handlers = s.handlers := rfl
@[simp] theorem acknowledge_handlers : (acknowledge id s).handlers = s.handlers := rfl
@[simp] theorem intRaise_opcodes : (intRaise id s).opcodes = s.opcodes := rfl
@[simp] theorem acknowledge_opcodes : (acknowledge id s).opcodes = s.opcodes := rfl
@[simp] theorem intRaise_ioDraws : (intRaise id s).ioDraws = s.ioDraws := rfl
@[simp] theorem acknowledge_ioDraws : (acknowledge id s).ioDraws = s.ioDraws := rfl
@[simp] theorem intRaise_ioEvents : (intRaise id s).ioEvents = s.ioEvents := rfl
@[simp] theorem acknowledge_ioEvents : (acknowledge id s).ioEvents = s.ioEvents := rfl

end

/-! ## Entry -/

section
variable (id : IrqSource) (ret : Addr) (s : State)

@[simp] theorem dispatch_a : (dispatch id ret s).a = s.a := by rw [dispatch_eq]; simp
@[simp] theorem dispatch_x : (dispatch id ret s).x = s.x := by rw [dispatch_eq]; simp
@[simp] theorem dispatch_y : (dispatch id ret s).y = s.y := by rw [dispatch_eq]; simp
@[simp] theorem dispatch_r : (dispatch id ret s).r = s.r := by rw [dispatch_eq]; simp
@[simp] theorem dispatch_sp : (dispatch id ret s).sp = s.sp - 4 := by
  rw [dispatch_eq]
  simp only [State.setPc_sp, State.setFlags_sp, push8_sp, push24_sp, acknowledge_sp]
  rw [BitVec.sub_sub]
  rfl
@[simp] theorem dispatch_pc : (dispatch id ret s).pc =
    addrOfBytes (storedByte s (vectorAddr id + 2)) (storedByte s (vectorAddr id + 1)) (storedByte s (vectorAddr id)) := by
  rw [dispatch_eq, State.setPc_pc]
@[simp] theorem dispatch_flags : (dispatch id ret s).flags = flagsSetI true s.flags := by rw [dispatch_eq]; simp only [State.setPc_flags, State.setFlags_flags]
@[simp] theorem dispatch_halted : (dispatch id ret s).halted = s.halted := by rw [dispatch_eq]; simp
@[simp] theorem dispatch_waiting : (dispatch id ret s).waiting = s.waiting := by rw [dispatch_eq]; simp
@[simp] theorem dispatch_fault : (dispatch id ret s).fault = s.fault := by rw [dispatch_eq]; simp
@[simp] theorem dispatch_cycles : (dispatch id ret s).cycles = s.cycles := by rw [dispatch_eq]; simp
@[simp] theorem dispatch_pending : (dispatch id ret s).pending = s.pending.put false id := by rw [dispatch_eq]; simp
theorem dispatch_mem : (dispatch id ret s).mem =
    (push8 (flagsByte s.flags) (push24 ret (acknowledge id s))).mem := by
  rw [dispatch_eq, State.setPc_mem, State.setFlags_mem]
@[simp] theorem dispatch_handlers : (dispatch id ret s).handlers = s.handlers := by rw [dispatch_eq]; simp
@[simp] theorem dispatch_opcodes : (dispatch id ret s).opcodes = s.opcodes := by rw [dispatch_eq]; simp
@[simp] theorem dispatch_ioDraws : (dispatch id ret s).ioDraws = s.ioDraws := by rw [dispatch_eq]; simp
@[simp] theorem dispatch_ioEvents : (dispatch id ret s).ioEvents = s.ioEvents := by rw [dispatch_eq]; simp

end

/-! ## Return -/

section
variable (s : State)

@[simp] theorem returnFromInterrupt_a : (returnFromInterrupt s).a = s.a := by rw [returnFromInterrupt_eq]; rfl
@[simp] theorem returnFromInterrupt_x : (returnFromInterrupt s).x = s.x := by rw [returnFromInterrupt_eq]; rfl
@[simp] theorem returnFromInterrupt_y : (returnFromInterrupt s).y = s.y := by rw [returnFromInterrupt_eq]; rfl
@[simp] theorem returnFromInterrupt_r : (returnFromInterrupt s).r = s.r := by rw [returnFromInterrupt_eq]; rfl
@[simp] theorem returnFromInterrupt_sp : (returnFromInterrupt s).sp = s.sp + 4 := by rw [returnFromInterrupt_eq]; rfl
@[simp] theorem returnFromInterrupt_pc : (returnFromInterrupt s).pc =
    addrOfBytes (storedByte s (stackAddr (s.sp + 4))) (storedByte s (stackAddr (s.sp + 3)))
      (storedByte s (stackAddr (s.sp + 2))) := by rw [returnFromInterrupt_eq]; rfl
@[simp] theorem returnFromInterrupt_flags : (returnFromInterrupt s).flags =
    flagsOfByte (storedByte s (stackAddr (s.sp + 1))) := by rw [returnFromInterrupt_eq]; rfl
@[simp] theorem returnFromInterrupt_halted : (returnFromInterrupt s).halted = s.halted := by rw [returnFromInterrupt_eq]; rfl
@[simp] theorem returnFromInterrupt_waiting : (returnFromInterrupt s).waiting = s.waiting := by rw [returnFromInterrupt_eq]; rfl
@[simp] theorem returnFromInterrupt_fault : (returnFromInterrupt s).fault = s.fault := by rw [returnFromInterrupt_eq]; rfl
@[simp] theorem returnFromInterrupt_cycles : (returnFromInterrupt s).cycles = s.cycles := by rw [returnFromInterrupt_eq]; rfl
@[simp] theorem returnFromInterrupt_pending : (returnFromInterrupt s).pending = s.pending := by rw [returnFromInterrupt_eq]; rfl
@[simp] theorem returnFromInterrupt_mem : (returnFromInterrupt s).mem = s.mem := by rw [returnFromInterrupt_eq]; rfl
@[simp] theorem returnFromInterrupt_handlers : (returnFromInterrupt s).handlers = s.handlers := by rw [returnFromInterrupt_eq]; rfl
@[simp] theorem returnFromInterrupt_opcodes : (returnFromInterrupt s).opcodes = s.opcodes := by rw [returnFromInterrupt_eq]; rfl
@[simp] theorem returnFromInterrupt_ioDraws : (returnFromInterrupt s).ioDraws = s.ioDraws := by rw [returnFromInterrupt_eq]; rfl
@[simp] theorem returnFromInterrupt_ioEvents : (returnFromInterrupt s).ioEvents = s.ioEvents := by rw [returnFromInterrupt_eq]; rfl

end

/-! ## The decode fault -/

section
variable (k : DecodeFaultKind) (op : Byte) (a0 : Addr) (s : State)

@[simp] theorem raiseDecodeFault_a : (raiseDecodeFault k op a0 s).a = s.a := rfl
@[simp] theorem raiseDecodeFault_x : (raiseDecodeFault k op a0 s).x = s.x := rfl
@[simp] theorem raiseDecodeFault_y : (raiseDecodeFault k op a0 s).y = s.y := rfl
@[simp] theorem raiseDecodeFault_r : (raiseDecodeFault k op a0 s).r = s.r := rfl
@[simp] theorem raiseDecodeFault_sp : (raiseDecodeFault k op a0 s).sp = s.sp := rfl
@[simp] theorem raiseDecodeFault_pc : (raiseDecodeFault k op a0 s).pc = s.pc := rfl
@[simp] theorem raiseDecodeFault_flags : (raiseDecodeFault k op a0 s).flags = s.flags := rfl
@[simp] theorem raiseDecodeFault_halted : (raiseDecodeFault k op a0 s).halted = true := rfl
@[simp] theorem raiseDecodeFault_waiting : (raiseDecodeFault k op a0 s).waiting = s.waiting := rfl
@[simp] theorem raiseDecodeFault_fault : (raiseDecodeFault k op a0 s).fault = some { kind := k, opcode := op, addr := a0 } := rfl
@[simp] theorem raiseDecodeFault_cycles : (raiseDecodeFault k op a0 s).cycles = s.cycles := rfl
@[simp] theorem raiseDecodeFault_pending : (raiseDecodeFault k op a0 s).pending = s.pending := rfl
@[simp] theorem raiseDecodeFault_mem : (raiseDecodeFault k op a0 s).mem = s.mem := rfl
@[simp] theorem raiseDecodeFault_handlers : (raiseDecodeFault k op a0 s).handlers = s.handlers := rfl
@[simp] theorem raiseDecodeFault_opcodes : (raiseDecodeFault k op a0 s).opcodes = s.opcodes := rfl
@[simp] theorem raiseDecodeFault_ioDraws : (raiseDecodeFault k op a0 s).ioDraws = s.ioDraws := rfl
@[simp] theorem raiseDecodeFault_ioEvents : (raiseDecodeFault k op a0 s).ioEvents = s.ioEvents := rfl

end

/-! ## The stored frame -/

/-- Interrupt entry keeps the canonical form of memory. -/
theorem memory_wf_dispatch {s : State} (hm : s.mem.wf = true) (id : IrqSource) (ret : Addr) :
    (dispatch id ret s).mem.wf = true := by
  rw [dispatch_mem]
  have h : (acknowledge id s).mem.wf = true := by rw [acknowledge_mem]; exact hm
  exact memory_wf_push8 (memory_wf_push24 h _) _

/-- The flags byte of the frame, four below SP as it was, and every byte outside the stack bytes. -/
theorem storedByte_dispatch_flags {s : State} (hm : s.mem.wf = true) (id : IrqSource) (ret : Addr) :
    storedByte (dispatch id ret s) (stackAddr (s.sp - 3)) = flagsByte s.flags := by
  rw [storedByte_congr (dispatch_mem id ret s)]
  have h := storedByte_push8_same (s := push24 ret (acknowledge id s)) (memory_wf_push24 (by simpa using hm) _)
    (flagsByte s.flags)
  rwa [push24_sp, acknowledge_sp] at h

/-- The return address of the frame is what `push24` stores. -/
theorem storedByte_dispatch_other {s : State} (id : IrqSource) (ret : Addr) {b : Addr}
    (h : b ≠ stackAddr (s.sp - 3)) :
    storedByte (dispatch id ret s) b = storedByte (push24 ret (acknowledge id s)) b := by
  rw [storedByte_congr (dispatch_mem id ret s)]
  exact storedByte_push8_other (by rwa [push24_sp, acknowledge_sp]) _

end Sys2Proof.Machine
end

