-- ==== Sys2Proof/Laws/Cycle.lean ====
section
/-! SUPPORT. What a fetch does to the state, and the one inversion lemma of a step. -/

namespace Sys2Proof.Machine

/-! ## The fetch -/

theorem fetchByte_fst (s : State) : (fetchByte s).1 = (busRead s.pc s).1 := rfl

theorem fetchByte_snd (s : State) : (fetchByte s).2 = (busRead s.pc s).2.setPc (s.pc + 1) := by
  simp [fetchByte]

/-- Fetching k bytes moves PC by k, modulo 2^24. -/
theorem fetchBytes_pc (k : Nat) (s : State) :
    (fetchBytes k s).2.pc = s.pc + BitVec.ofNat 24 k := by
  induction k generalizing s with
  | zero => simp [fetchBytes]
  | succ k ih =>
    rw [fetchBytes]
    simp only [ih, fetchByte_snd, State.setPc_pc]
    rw [BitVec.add_assoc, Nat.add_comm k 1, BitVec.ofNat_add]
    rfl

/-- A field that a Bus read and a move of PC leave alone is left alone by a fetch. -/
theorem fetchBytes_keeps {α : Type} (f : State → α) (hf : ∀ s, f (fetchByte s).2 = f s) (k : Nat) (s : State) :
    f (fetchBytes k s).2 = f s := by
  induction k generalizing s with
  | zero => rfl
  | succ k ih => rw [fetchBytes]; exact (ih _).trans (hf s)

theorem fetch_unassigned {s : State} (h : opOfByte s.opcodes (fetchByte s).1 = none) :
    fetch s = { opcode := (fetchByte s).1, instr := .error .unknownOpcode, after := (fetchByte s).2 } := by
  simp only [fetch, h]

theorem fetch_reserved {s : State} {o : Op} (h : opOfByte s.opcodes (fetchByte s).1 = some o)
    (hd : decodeOperands o (fetchBytes o.operandBytes (fetchByte s).2).1 = none) :
    fetch s = { opcode := (fetchByte s).1, instr := .error .reservedOperand,
                after := (fetchBytes o.operandBytes (fetchByte s).2).2 } := by
  simp only [fetch, h, hd]

theorem fetch_instr {s : State} {o : Op} {i : Instr} (h : opOfByte s.opcodes (fetchByte s).1 = some o)
    (hd : decodeOperands o (fetchBytes o.operandBytes (fetchByte s).2).1 = some i) :
    fetch s = { opcode := (fetchByte s).1, instr := .ok i,
                after := (fetchBytes o.operandBytes (fetchByte s).2).2 } := by
  simp only [fetch, h, hd]

/-- Everything a fetch can be: an unassigned opcode byte alone, or a row with its operand bytes. -/
theorem fetch_cases (s : State) :
    (opOfByte s.opcodes (fetchByte s).1 = none ∧
      fetch s = { opcode := (fetchByte s).1, instr := .error .unknownOpcode, after := (fetchByte s).2 }) ∨
    (∃ o, opOfByte s.opcodes (fetchByte s).1 = some o ∧ (fetch s).opcode = (fetchByte s).1 ∧
      (fetch s).after = (fetchBytes o.operandBytes (fetchByte s).2).2 ∧
      (((fetch s).instr = .error .reservedOperand ∧
          decodeOperands o (fetchBytes o.operandBytes (fetchByte s).2).1 = none) ∨
        ∃ i, (fetch s).instr = .ok i ∧
          decodeOperands o (fetchBytes o.operandBytes (fetchByte s).2).1 = some i)) := by
  cases h : opOfByte s.opcodes (fetchByte s).1 with
  | none => exact .inl ⟨rfl, fetch_unassigned h⟩
  | some o =>
    cases hd : decodeOperands o (fetchBytes o.operandBytes (fetchByte s).2).1 with
    | none => exact .inr ⟨o, rfl, by rw [fetch_reserved h hd], by rw [fetch_reserved h hd],
        .inl ⟨by rw [fetch_reserved h hd], hd⟩⟩
    | some i => exact .inr ⟨o, rfl, by rw [fetch_instr h hd], by rw [fetch_instr h hd],
        .inr ⟨i, by rw [fetch_instr h hd], hd⟩⟩

theorem fetch_keeps {α : Type} (f : State → α) (hf : ∀ s, f (fetchByte s).2 = f s) (s : State) :
    f (fetch s).after = f s := by
  rcases fetch_cases s with ⟨_, e⟩ | ⟨o, _, _, e, _⟩
  · rw [e]; exact hf s
  · rw [e]; exact (fetchBytes_keeps f hf _ _).trans (hf s)

section
variable (s : State)

@[simp] theorem fetch_after_a : (fetch s).after.a = s.a := fetch_keeps (·.a) (fun s => by simp [fetchByte_snd]) s
@[simp] theorem fetch_after_x : (fetch s).after.x = s.x := fetch_keeps (·.x) (fun s => by simp [fetchByte_snd]) s
@[simp] theorem fetch_after_y : (fetch s).after.y = s.y := fetch_keeps (·.y) (fun s => by simp [fetchByte_snd]) s
@[simp] theorem fetch_after_r : (fetch s).after.r = s.r := fetch_keeps (·.r) (fun s => by simp [fetchByte_snd]) s
@[simp] theorem fetch_after_sp : (fetch s).after.sp = s.sp := fetch_keeps (·.sp) (fun s => by simp [fetchByte_snd]) s
@[simp] theorem fetch_after_flags : (fetch s).after.flags = s.flags :=
  fetch_keeps (·.flags) (fun s => by simp [fetchByte_snd]) s
@[simp] theorem fetch_after_halted : (fetch s).after.halted = s.halted :=
  fetch_keeps (·.halted) (fun s => by simp [fetchByte_snd]) s
@[simp] theorem fetch_after_waiting : (fetch s).after.waiting = s.waiting :=
  fetch_keeps (·.waiting) (fun s => by simp [fetchByte_snd]) s
@[simp] theorem fetch_after_fault : (fetch s).after.fault = s.fault :=
  fetch_keeps (·.fault) (fun s => by simp [fetchByte_snd]) s
@[simp] theorem fetch_after_cycles : (fetch s).after.cycles = s.cycles :=
  fetch_keeps (·.cycles) (fun s => by simp [fetchByte_snd]) s
@[simp] theorem fetch_after_pending : (fetch s).after.pending = s.pending :=
  fetch_keeps (·.pending) (fun s => by simp [fetchByte_snd]) s
@[simp] theorem fetch_after_mem : (fetch s).after.mem = s.mem :=
  fetch_keeps (·.mem) (fun s => by simp [fetchByte_snd]) s
@[simp] theorem fetch_after_handlers : (fetch s).after.handlers = s.handlers :=
  fetch_keeps (·.handlers) (fun s => by simp [fetchByte_snd]) s
@[simp] theorem fetch_after_opcodes : (fetch s).after.opcodes = s.opcodes :=
  fetch_keeps (·.opcodes) (fun s => by simp [fetchByte_snd]) s

theorem fetch_opcode : (fetch s).opcode = (busRead s.pc s).1 := by
  rcases fetch_cases s with ⟨_, e⟩ | ⟨o, _, e, _⟩
  · rw [e]; rfl
  · rw [e]; rfl

end

/-! ## The interrupt check -/

/-- An interrupt is taken exactly when RTI was not fetched and one is eligible (60 R230 (4)). -/
theorem interruptToTake_eq_some {s : State} {id : IrqSource} :
    interruptToTake (fetch s) = some id ↔
      (fetch s).opcode ≠ s.opcodes.byte .rti ∧ nextEligible s.pending s.flags.i = some id := by
  unfold interruptToTake
  split <;> simp_all

/-- None is taken exactly when RTI was fetched or none is eligible. -/
theorem interruptToTake_eq_none {s : State} :
    interruptToTake (fetch s) = none ↔
      (fetch s).opcode = s.opcodes.byte .rti ∨ nextEligible s.pending s.flags.i = none := by
  unfold interruptToTake
  split <;> simp_all

/-! ## Execution and the step -/

theorem step_of_halted {s : State} (h : s.halted = true) : step s = .next s ∧ stepCycles s = 0 := by
  simp [step, runStep, stepCycles, h]

theorem step_of_waiting {s : State} (h : s.halted = false) (hw : s.waiting = true) :
    step s = .next (waitStep s) ∧ stepCycles s = 1 := by
  simp [step, runStep, stepCycles, h, hw, waitCycles]

theorem step_of_takesInterrupt {s : State} {id : IrqSource} (h : takesInterrupt s id) :
    step s = .next ((dispatch id s.pc (fetch s).after).charge 5) ∧ stepCycles s = 5 := by
  obtain ⟨h1, h2, h3⟩ := h
  simp [step, runStep, stepCycles, h1, h2, h3, dispatchCycles]

theorem step_of_raisesFault {s : State} {k : DecodeFaultKind} (h : raisesFault s k) :
    step s = .next ((raiseDecodeFault k (fetch s).opcode s.pc (fetch s).after).charge 1) ∧ stepCycles s = 1 := by
  obtain ⟨h1, h2, h3, h4⟩ := h
  simp [step, runStep, stepCycles, h1, h2, h3, h4, faultCycles]

theorem step_of_executes {s : State} {i : Instr} (h : executes s i) :
    step s = exec i (fetch s).after ∧ stepCycles s = instrCycles i (fetch s).after := by
  obtain ⟨h1, h2, h3, h4⟩ := h
  simp [step, runStep, stepCycles, h1, h2, h3, h4]

/-- Everything a next state of a step can be (60 R230, R250). -/
theorem step_cases {s t : State} (h : step s = .next t) :
    (s.halted = true ∧ t = s) ∨
    (s.halted = false ∧ s.waiting = true ∧ t = waitStep s) ∨
    (∃ id, takesInterrupt s id ∧ t = (dispatch id s.pc (fetch s).after).charge 5) ∨
    (∃ k, raisesFault s k ∧ t = (raiseDecodeFault k (fetch s).opcode s.pc (fetch s).after).charge 1) ∨
    (∃ i, executes s i ∧ exec i (fetch s).after = .next t) := by
  unfold step runStep at h
  cases hh : s.halted with
  | true =>
    rw [hh] at h
    exact .inl ⟨rfl, by simpa using h.symm⟩
  | false =>
    cases hw : s.waiting with
    | true =>
      simp only [hh, hw, if_true] at h
      exact .inr (.inl ⟨rfl, rfl, by simpa using h.symm⟩)
    | false =>
      simp only [hh, hw] at h
      cases hi : interruptToTake (fetch s) with
      | some id =>
        simp only [hi] at h
        exact .inr (.inr (.inl ⟨id, ⟨hh, hw, hi⟩, by simpa [dispatchCycles] using h.symm⟩))
      | none =>
        cases hf : (fetch s).instr with
        | error k =>
          simp only [hi, hf] at h
          exact .inr (.inr (.inr (.inl ⟨k, ⟨hh, hw, hi, hf⟩, by simpa [faultCycles] using h.symm⟩)))
        | ok i =>
          simp only [hi, hf] at h
          exact .inr (.inr (.inr (.inr ⟨i, ⟨hh, hw, hi, hf⟩, by simpa using h⟩)))

end Sys2Proof.Machine
end

