-- ==== Sys2Proof/Laws/Flags.lean ====
section
/-! SUPPORT. What each flag computation does to each of the six flags, and the bits of the flags byte. -/

namespace Sys2Proof.Machine

section
variable (res : Word) (f : Flags)

@[simp] theorem flagsZN_n : (flagsZN res f).n = res.getLsbD 15 := rfl
@[simp] theorem flagsZN_v : (flagsZN res f).v = f.v := rfl
@[simp] theorem flagsZN_d : (flagsZN res f).d = f.d := rfl
@[simp] theorem flagsZN_i : (flagsZN res f).i = f.i := rfl
@[simp] theorem flagsZN_z : (flagsZN res f).z = (res == 0) := rfl
@[simp] theorem flagsZN_c : (flagsZN res f).c = f.c := rfl

end

section
variable (b : Bool) (f : Flags)

@[simp] theorem flagsSetI_n : (flagsSetI b f).n = f.n := rfl
@[simp] theorem flagsSetI_v : (flagsSetI b f).v = f.v := rfl
@[simp] theorem flagsSetI_d : (flagsSetI b f).d = f.d := rfl
@[simp] theorem flagsSetI_i : (flagsSetI b f).i = b := rfl
@[simp] theorem flagsSetI_z : (flagsSetI b f).z = f.z := rfl
@[simp] theorem flagsSetI_c : (flagsSetI b f).c = f.c := rfl

end

/-- The sum the 17-bit addition leaves is the sum modulo 2^16 (41 R140). -/
theorem addResult_eq (a b : Word) : addResult a b = a + b := by
  apply BitVec.eq_of_toNat_eq
  simp only [addResult, sum17, BitVec.toNat_setWidth, BitVec.toNat_add]
  have := a.isLt
  have := b.isLt
  omega

/-- The carry out of bit 15 is bit 16 of the exact sum (41 R140). -/
theorem sum17_carry (a b : Word) : (sum17 a b).getLsbD 16 = decide (65536 ≤ a.toNat + b.toNat) := by
  have := a.isLt
  have := b.isLt
  simp only [BitVec.getLsbD, sum17, BitVec.toNat_add, BitVec.toNat_setWidth, Nat.testBit_eq_decide_div_mod_eq]
  congr 1
  apply propext
  omega

/-- The product's halves make the exact product (42 R170). -/
theorem product_halves (a m : Word) :
    (productHigh a m).toNat * 65536 + (productLow a m).toNat = a.toNat * m.toNat := by
  have h : a.toNat * m.toNat ≤ 65535 * 65535 :=
    Nat.mul_le_mul (Nat.le_of_lt_succ a.isLt) (Nat.le_of_lt_succ m.isLt)
  have := a.isLt
  have := m.isLt
  simp only [productHigh, productLow, product, BitVec.extractLsb'_toNat, BitVec.toNat_mul, BitVec.toNat_setWidth,
    Nat.shiftRight_eq_div_pow]
  rw [Nat.mod_eq_of_lt (a := a.toNat) (by omega), Nat.mod_eq_of_lt (a := m.toNat) (by omega),
    Nat.mod_eq_of_lt (a := a.toNat * m.toNat) (by omega)]
  omega

end Sys2Proof.Machine
end

