-- ==== Sys2Proof/Laws/PerInstr.lean ====
section
/-! SUPPORT. Statements made for every instruction, one lemma per constructor. -/

/-- Under every admitted opcode map, the bytes of an instruction are as many as the length column gives its row (30 R93), the first of them is the byte the map gives the row, and that byte alone gives back the row (30 R90). -/
def Sys2Proof.Laws.EncodingShape.Statement (i : Sys2Proof.Instr) : Prop :=
  ∀ m : Sys2Proof.OpcodeMap, m.ok = true →
    (Sys2Proof.encodeBy m i).length = i.op.format.length ∧
    (Sys2Proof.encodeBy m i).head? = some (m.byte i.op) ∧
    Sys2Proof.opOfByte m (m.byte i.op) = some i.op

namespace Sys2Proof.Laws.EncodingShape

theorem ldaImm (imm : Word) : Statement (.ldaImm imm) := fun _ h => ⟨rfl, rfl, Sys2Proof.opOfByte_byte h _⟩
theorem ldaAbs (addr : Addr) : Statement (.ldaAbs addr) := fun _ h => ⟨rfl, rfl, Sys2Proof.opOfByte_byte h _⟩
theorem staAbs (addr : Addr) : Statement (.staAbs addr) := fun _ h => ⟨rfl, rfl, Sys2Proof.opOfByte_byte h _⟩
theorem ldxImm (imm : Word) : Statement (.ldxImm imm) := fun _ h => ⟨rfl, rfl, Sys2Proof.opOfByte_byte h _⟩
theorem ldxAbs (addr : Addr) : Statement (.ldxAbs addr) := fun _ h => ⟨rfl, rfl, Sys2Proof.opOfByte_byte h _⟩
theorem stxAbs (addr : Addr) : Statement (.stxAbs addr) := fun _ h => ⟨rfl, rfl, Sys2Proof.opOfByte_byte h _⟩
theorem ldyImm (imm : Word) : Statement (.ldyImm imm) := fun _ h => ⟨rfl, rfl, Sys2Proof.opOfByte_byte h _⟩
theorem ldyAbs (addr : Addr) : Statement (.ldyAbs addr) := fun _ h => ⟨rfl, rfl, Sys2Proof.opOfByte_byte h _⟩
theorem styAbs (addr : Addr) : Statement (.styAbs addr) := fun _ h => ⟨rfl, rfl, Sys2Proof.opOfByte_byte h _⟩
theorem addImm (imm : Word) : Statement (.addImm imm) := fun _ h => ⟨rfl, rfl, Sys2Proof.opOfByte_byte h _⟩
theorem subImm (imm : Word) : Statement (.subImm imm) := fun _ h => ⟨rfl, rfl, Sys2Proof.opOfByte_byte h _⟩
theorem andImm (imm : Word) : Statement (.andImm imm) := fun _ h => ⟨rfl, rfl, Sys2Proof.opOfByte_byte h _⟩
theorem orImm (imm : Word) : Statement (.orImm imm) := fun _ h => ⟨rfl, rfl, Sys2Proof.opOfByte_byte h _⟩
theorem xorImm (imm : Word) : Statement (.xorImm imm) := fun _ h => ⟨rfl, rfl, Sys2Proof.opOfByte_byte h _⟩
theorem mul (r : Reg) : Statement (.mul r) := fun _ h => ⟨rfl, rfl, Sys2Proof.opOfByte_byte h _⟩
theorem div (r : Reg) : Statement (.div r) := fun _ h => ⟨rfl, rfl, Sys2Proof.opOfByte_byte h _⟩
theorem mov (d src : Reg) : Statement (.mov d src) := fun _ h => ⟨rfl, rfl, Sys2Proof.opOfByte_byte h _⟩
theorem inc (r : Reg) : Statement (.inc r) := fun _ h => ⟨rfl, rfl, Sys2Proof.opOfByte_byte h _⟩
theorem dec (r : Reg) : Statement (.dec r) := fun _ h => ⟨rfl, rfl, Sys2Proof.opOfByte_byte h _⟩
theorem bit (r : Reg) (b : Nat) : Statement (.bit r b) := fun _ h => ⟨rfl, rfl, Sys2Proof.opOfByte_byte h _⟩
theorem bset (r : Reg) (b : Nat) : Statement (.bset r b) := fun _ h => ⟨rfl, rfl, Sys2Proof.opOfByte_byte h _⟩
theorem bclr (r : Reg) (b : Nat) : Statement (.bclr r b) := fun _ h => ⟨rfl, rfl, Sys2Proof.opOfByte_byte h _⟩
theorem jmp (addr : Addr) : Statement (.jmp addr) := fun _ h => ⟨rfl, rfl, Sys2Proof.opOfByte_byte h _⟩
theorem jsr (addr : Addr) : Statement (.jsr addr) := fun _ h => ⟨rfl, rfl, Sys2Proof.opOfByte_byte h _⟩
theorem rts : Statement .rts := fun _ h => ⟨rfl, rfl, Sys2Proof.opOfByte_byte h _⟩
theorem bra (off : Int) : Statement (.bra off) := fun _ h => ⟨rfl, rfl, Sys2Proof.opOfByte_byte h _⟩
theorem beq (off : Int) : Statement (.beq off) := fun _ h => ⟨rfl, rfl, Sys2Proof.opOfByte_byte h _⟩
theorem bne (off : Int) : Statement (.bne off) := fun _ h => ⟨rfl, rfl, Sys2Proof.opOfByte_byte h _⟩
theorem bcs (off : Int) : Statement (.bcs off) := fun _ h => ⟨rfl, rfl, Sys2Proof.opOfByte_byte h _⟩
theorem bcc (off : Int) : Statement (.bcc off) := fun _ h => ⟨rfl, rfl, Sys2Proof.opOfByte_byte h _⟩
theorem bmi (off : Int) : Statement (.bmi off) := fun _ h => ⟨rfl, rfl, Sys2Proof.opOfByte_byte h _⟩
theorem bpl (off : Int) : Statement (.bpl off) := fun _ h => ⟨rfl, rfl, Sys2Proof.opOfByte_byte h _⟩
theorem bvs (off : Int) : Statement (.bvs off) := fun _ h => ⟨rfl, rfl, Sys2Proof.opOfByte_byte h _⟩
theorem bvc (off : Int) : Statement (.bvc off) := fun _ h => ⟨rfl, rfl, Sys2Proof.opOfByte_byte h _⟩
theorem nop : Statement .nop := fun _ h => ⟨rfl, rfl, Sys2Proof.opOfByte_byte h _⟩
theorem sei : Statement .sei := fun _ h => ⟨rfl, rfl, Sys2Proof.opOfByte_byte h _⟩
theorem cli : Statement .cli := fun _ h => ⟨rfl, rfl, Sys2Proof.opOfByte_byte h _⟩
theorem rti : Statement .rti := fun _ h => ⟨rfl, rfl, Sys2Proof.opOfByte_byte h _⟩
theorem wfi : Statement .wfi := fun _ h => ⟨rfl, rfl, Sys2Proof.opOfByte_byte h _⟩
theorem cop : Statement .cop := fun _ h => ⟨rfl, rfl, Sys2Proof.opOfByte_byte h _⟩
theorem hlt : Statement .hlt := fun _ h => ⟨rfl, rfl, Sys2Proof.opOfByte_byte h _⟩

end Sys2Proof.Laws.EncodingShape
end

