-- ==== Sys2Proof/Tests/Slice0.lean ====
section
/-! SUPPORT. The model's own tests: ill-formed terms refused, one word per instruction decoded, one step at a time against the vectors of 95_test_vectors.md, and for every obligation with hypotheses a concrete case that meets them. -/

namespace Sys2Proof.Tests

open Sys2Proof Sys2Proof.Machine

/-! ## Helpers -/

/-- The state after a step, a meaning or a host call that answers one. -/
def nextOf (r : Result) : State :=
  match r with
  | .next t => t
  | .fault _ => State.reset
  | .refused _ => State.reset

/-- The state after a meaning. -/
def run (i : Instr) (s : State) : State := nextOf (exec i s)

/-- Bytes stored from an address on, as `load` would. -/
def stored (a : Nat) (bs : List Byte) (s : State) : State := { s with mem := memSetMany s.mem a bs }

/-- A running machine with these bytes at PC. -/
def at_ (pc : Addr) (bs : List Byte) : State := stored pc.toNat bs { State.reset with pc := pc }

/-- Every flag set. -/
def allSet : Flags := { n := true, v := true, d := true, i := true, z := true, c := true }

/-- The reset machine with A, X, Y, R0 to R7 distinct. -/
def regs : State := { State.reset with a := 0x1234, x := 0x0010, y := 0x7FFF, r := #v[0, 1, 2, 0x8000, 4, 5, 0xFFFF, 7] }

/-- One pending source. -/
def only (id : IrqSource) : IrqSet := IrqSet.empty.put true id

/-- An opcode map that is not the default: 0x44 is RTI and 0x42 is NOP, so 0x00 is no instruction. -/
def remapped : OpcodeMap := (defaultMap.set Op.rti.index 0x44).set Op.nop.index 0x42

/-- A handler on the first 256 addresses of the I/O region (LS17, LS18). -/
def handled : State := { regs with handlers := [⟨0x100000, 0x1000FF⟩] }

/-! ## WellFormed: ill-formed terms are refused (30 R93, R94) -/

theorem smoke_bit : (Instr.bit (.r 0) 16).wellFormed = false ∧ (Instr.bit (.r 0) 15).wellFormed = true := by decide
theorem smoke_bset : (Instr.bset (.r 0) 16).wellFormed = false ∧ (Instr.bset (.r 0) 15).wellFormed = true := by decide
theorem smoke_bclr : (Instr.bclr (.r 0) 16).wellFormed = false ∧ (Instr.bclr (.r 0) 15).wellFormed = true := by decide
theorem smoke_bra : (Instr.bra 128).wellFormed = false ∧ (Instr.bra (-129)).wellFormed = false ∧
    (Instr.bra 127).wellFormed = true ∧ (Instr.bra (-128)).wellFormed = true := by decide
theorem smoke_beq : (Instr.beq 128).wellFormed = false ∧ (Instr.beq (-129)).wellFormed = false ∧
    (Instr.beq 127).wellFormed = true ∧ (Instr.beq (-128)).wellFormed = true := by decide
theorem smoke_bne : (Instr.bne 128).wellFormed = false ∧ (Instr.bne (-129)).wellFormed = false ∧
    (Instr.bne 127).wellFormed = true ∧ (Instr.bne (-128)).wellFormed = true := by decide
theorem smoke_bcs : (Instr.bcs 128).wellFormed = false ∧ (Instr.bcs (-129)).wellFormed = false ∧
    (Instr.bcs 127).wellFormed = true ∧ (Instr.bcs (-128)).wellFormed = true := by decide
theorem smoke_bcc : (Instr.bcc 128).wellFormed = false ∧ (Instr.bcc (-129)).wellFormed = false ∧
    (Instr.bcc 127).wellFormed = true ∧ (Instr.bcc (-128)).wellFormed = true := by decide
theorem smoke_bmi : (Instr.bmi 128).wellFormed = false ∧ (Instr.bmi (-129)).wellFormed = false ∧
    (Instr.bmi 127).wellFormed = true ∧ (Instr.bmi (-128)).wellFormed = true := by decide
theorem smoke_bpl : (Instr.bpl 128).wellFormed = false ∧ (Instr.bpl (-129)).wellFormed = false ∧
    (Instr.bpl 127).wellFormed = true ∧ (Instr.bpl (-128)).wellFormed = true := by decide
theorem smoke_bvs : (Instr.bvs 128).wellFormed = false ∧ (Instr.bvs (-129)).wellFormed = false ∧
    (Instr.bvs 127).wellFormed = true ∧ (Instr.bvs (-128)).wellFormed = true := by decide
theorem smoke_bvc : (Instr.bvc 128).wellFormed = false ∧ (Instr.bvc (-129)).wellFormed = false ∧
    (Instr.bvc 127).wellFormed = true ∧ (Instr.bvc (-128)).wellFormed = true := by decide

/-! ## Decode: one word per instruction, written from 30 R91, R93 and R96 -/

theorem decode_ldaImm : decode [0x01, 0x34, 0x12] = .ok (.ldaImm 0x1234, []) := by decide
theorem decode_ldaAbs : decode [0x02, 0x56, 0x34, 0x12] = .ok (.ldaAbs 0x123456, []) := by decide
theorem decode_staAbs : decode [0x03, 0x00, 0x10, 0x00] = .ok (.staAbs 0x001000, []) := by decide
theorem decode_ldxImm : decode [0x04, 0xFF, 0x00] = .ok (.ldxImm 0x00FF, []) := by decide
theorem decode_ldxAbs : decode [0x05, 0x00, 0x00, 0x05] = .ok (.ldxAbs 0x050000, []) := by decide
theorem decode_stxAbs : decode [0x06, 0x00, 0x00, 0x40] = .ok (.stxAbs 0x400000, []) := by decide
theorem decode_ldyImm : decode [0x07, 0x00, 0x80] = .ok (.ldyImm 0x8000, []) := by decide
theorem decode_ldyAbs : decode [0x08, 0x00, 0x00, 0xFF] = .ok (.ldyAbs 0xFF0000, []) := by decide
theorem decode_styAbs : decode [0x09, 0xFE, 0x00, 0x00] = .ok (.styAbs 0x0000FE, []) := by decide
theorem decode_addImm : decode [0x10, 0x01, 0x00] = .ok (.addImm 1, []) := by decide
theorem decode_subImm : decode [0x11, 0x07, 0x00] = .ok (.subImm 7, []) := by decide
theorem decode_andImm : decode [0x12, 0xF0, 0x0F] = .ok (.andImm 0x0FF0, []) := by decide
theorem decode_orImm : decode [0x13, 0x00, 0x80] = .ok (.orImm 0x8000, []) := by decide
theorem decode_xorImm : decode [0x14, 0xFF, 0x0F] = .ok (.xorImm 0x0FFF, []) := by decide
theorem decode_jmp : decode [0x20, 0x01, 0x02, 0x40] = .ok (.jmp 0x400201, []) := by decide
theorem decode_jsr : decode [0x21, 0x00, 0x01, 0xFF] = .ok (.jsr 0xFF0100, []) := by decide
theorem decode_rts : decode [0x22] = .ok (.rts, []) := by decide
theorem decode_bra : decode [0x30, 0x10] = .ok (.bra 16, []) := by decide
theorem decode_beq : decode [0x31, 0xF0] = .ok (.beq (-16), []) := by decide
theorem decode_bne : decode [0x32, 0xF9] = .ok (.bne (-7), []) := by decide
theorem decode_bcs : decode [0x33, 0x7F] = .ok (.bcs 127, []) := by decide
theorem decode_bcc : decode [0x34, 0x80] = .ok (.bcc (-128), []) := by decide
theorem decode_bmi : decode [0x35, 0xFE] = .ok (.bmi (-2), []) := by decide
theorem decode_bpl : decode [0x36, 0x00] = .ok (.bpl 0, []) := by decide
theorem decode_bvs : decode [0x37, 0x20] = .ok (.bvs 32, []) := by decide
theorem decode_bvc : decode [0x38, 0x81] = .ok (.bvc (-127), []) := by decide
theorem decode_sei : decode [0x40] = .ok (.sei, []) := by decide
theorem decode_cli : decode [0x41] = .ok (.cli, []) := by decide
theorem decode_rti : decode [0x42] = .ok (.rti, []) := by decide
theorem decode_wfi : decode [0x43] = .ok (.wfi, []) := by decide
theorem decode_mul : decode [0x50, 0x90] = .ok (.mul .x, []) := by decide
theorem decode_div : decode [0x51, 0xB0] = .ok (.div .sp, []) := by decide
theorem decode_mov : decode [0x52, 0x78] = .ok (.mov (.r 7) .a, []) := by decide
theorem decode_inc : decode [0x53, 0xA0] = .ok (.inc .y, []) := by decide
theorem decode_dec : decode [0x54, 0x70] = .ok (.dec (.r 7), []) := by decide
theorem decode_bit : decode [0x55, 0x3F] = .ok (.bit (.r 3) 15, []) := by decide
theorem decode_bset : decode [0x56, 0x8E] = .ok (.bset .a 14, []) := by decide
theorem decode_bclr : decode [0x57, 0xB1] = .ok (.bclr .sp 1, []) := by decide
theorem decode_nop : decode [0x00] = .ok (.nop, []) := by decide
theorem decode_cop : decode [0x60] = .ok (.cop, []) := by decide
theorem decode_hlt : decode [0xFF] = .ok (.hlt, []) := by decide

theorem decode_leaves_rest : decode [0x22, 0x05, 0x06] = .ok (.rts, [0x05, 0x06]) := by decide
theorem decode_unknown : decode [0x0A] = .error .unknownOpcode ∧ decode [0xFE, 0x00] = .error .unknownOpcode ∧
    decode [0x15] = .error .unknownOpcode ∧ decode [0x44] = .error .unknownOpcode ∧ decode [0x61] = .error .unknownOpcode := by
  decide
theorem decode_reserved : decode [0x50, 0xC0] = .error .reservedOperand ∧ decode [0x53, 0x01] = .error .reservedOperand ∧
    decode [0x52, 0x8F] = .error .reservedOperand ∧ decode [0x52, 0xC8] = .error .reservedOperand ∧
    decode [0x55, 0xF0] = .error .reservedOperand ∧ decode [0x54, 0x9F] = .error .reservedOperand ∧
    decode [0x56, 0xE3] = .error .reservedOperand := by decide
theorem decode_truncated : decode [] = .error .truncated ∧ decode [0x01, 0x34] = .error .truncated ∧
    decode [0x20, 0x00, 0x00] = .error .truncated ∧ decode [0x50] = .error .truncated := by decide
theorem encode_words : encode (.jsr 0xFF0100) = [0x21, 0x00, 0x01, 0xFF] ∧ encode (.bne (-7)) = [0x32, 0xF9] ∧
    encode (.mov (.r 7) .a) = [0x52, 0x78] ∧ encode (.bit (.r 3) 15) = [0x55, 0x3F] := by decide
/-- No two rows share an opcode byte (30 R91). -/
theorem opcodes_distinct : (Op.all.map opcodeByte).Nodup ∧ Op.all.length = 41 ∧ defaultMap.ok = true := by decide
/-- Another map names the same rows by other bytes (00 R8). -/
theorem decodeBy_remapped : remapped.ok = true ∧ decodeBy remapped [0x42] = .ok (.nop, []) ∧ decodeBy remapped [0x44] = .ok (.rti, []) ∧
    decodeBy remapped [0x00] = .error .unknownOpcode ∧ encodeBy remapped .rti = [0x44] ∧
    decodeBy remapped [0x32, 0xF9] = .ok (.bne (-7), []) := by decide
/-- Maps that give two rows one byte or move HLT are not admitted. -/
theorem opcodeMap_refused : OpcodeMap.ok (defaultMap.set Op.nop.index 0x42) = false ∧
    OpcodeMap.ok (defaultMap.set Op.hlt.index 0xFE) = false ∧ OpcodeMap.ok (defaultMap.set Op.ldaImm.index 0x0A) = false := by decide
theorem table_words : decodeTableWord 24 0x123401 = some (.ldaImm 0x1234) ∧ decodeTableWord 8 0x01 = some (.ldaImm 0) ∧
    decodeTableWord 32 0xFF010021 = some (.jsr 0xFF0100) ∧ decodeTableWord 16 0x7852 = some (.mov (.r 7) .a) ∧
    decodeTableWord 8 0x0A = none := by decide

/-! ## Loads and stores (95 section 2.2) -/

theorem test_lda_zero : (run (.ldaImm 0) { regs with flags := { allSet with z := false } }).flags = { allSet with z := true, n := false } := by decide
theorem test_lda_negative : (run (.ldaImm 0x8000) regs).a = 0x8000 ∧ (run (.ldaImm 0x8000) regs).flags.n = true := by decide
theorem test_ldaAbs_little_endian : (run (.ldaAbs 0x001000) (stored 0x1000 [0xCD, 0xAB] regs)).a = 0xABCD := by decide
theorem test_ldaAbs_wraps : (run (.ldaAbs 0xFFFFFF) (stored 0 [0x34] (stored 0xFFFFFF [0x12] regs))).a = 0x3412 := by decide
theorem test_staAbs_bytes : storedByte (run (.staAbs 0x001000) { regs with a := 0xBEEF, flags := allSet }) 0x1000 = 0xEF ∧
    storedByte (run (.staAbs 0x001000) { regs with a := 0xBEEF, flags := allSet }) 0x1001 = 0xBE := by decide
theorem test_staAbs_split : storedByte (run (.staAbs 0x9FFFFF) regs) 0x9FFFFF = 0 ∧
    storedByte (run (.staAbs 0x9FFFFF) regs) 0xA00000 = 0x12 := by decide
theorem test_ldxImm : (run (.ldxImm 0xFFFF) regs).x = 0xFFFF ∧ (run (.ldxImm 0xFFFF) regs).flags.n = true := by decide
theorem test_ldxAbs_open_bus : (run (.ldxAbs 0x050000) regs).x = 0 ∧ (run (.ldxAbs 0x050000) regs).flags.z = true := by decide
theorem test_stxAbs_rom : (run (.stxAbs 0x400000) regs).mem = regs.mem := by decide
theorem test_ldyImm : (run (.ldyImm 0) regs).y = 0 ∧ (run (.ldyImm 0) regs).flags.z = true := by decide
theorem test_ldyAbs : (run (.ldyAbs 0xFF0000) (stored 0xFF0000 [0x1B, 0x00] regs)).y = 0x001B := by decide
theorem test_styAbs : (run (.styAbs 0x0000FE) { regs with y := 0x00FF }).mem = [(0xFE, 0xFF)] := by decide
/-- LS17: two handler reads, low byte first, with the offsets the handler sees. -/
theorem test_handler_reads : (run (.ldaAbs 0x100004) handled).ioEvents =
    [.read 0x100005 5 (Config.ioReadByte 1), .read 0x100004 4 (Config.ioReadByte 0)] := by rfl
/-- LS18: two handler writes, low byte first; nothing is stored. -/
theorem test_handler_writes : (run (.staAbs 0x100004) { handled with a := 0xBEEF }).ioEvents =
    [.write 0x100005 5 0xBE, .write 0x100004 4 0xEF] ∧ (run (.staAbs 0x100004) { handled with a := 0xBEEF }).mem = [] := by decide

/-! ## Arithmetic and logic (95 section 2.3) -/

theorem test_add_overflow : (run (.addImm 0x8000) { regs with a := 0x8000 }).a = 0 ∧
    (run (.addImm 0x8000) { regs with a := 0x8000 }).flags = { Flags.clear with z := true, c := true, v := true } := by decide
theorem test_add_no_carry_in : (run (.addImm 1) { regs with a := 0xFFFF, flags := { Flags.clear with c := true } }).a = 0 := by decide
theorem test_sub_borrow : (run (.subImm 7) { regs with a := 5 }).a = 0xFFFE ∧
    (run (.subImm 7) { regs with a := 5 }).flags = { Flags.clear with n := true, c := true } := by decide
theorem test_sub_overflow : (run (.subImm 0xFFFF) { regs with a := 0x7FFF }).flags =
    { Flags.clear with n := true, c := true, v := true } := by decide
theorem test_and : (run (.andImm 0x0FF0) { regs with a := 0xF0F0, flags := allSet }).a = 0x00F0 ∧
    (run (.andImm 0x0FF0) { regs with a := 0xF0F0, flags := allSet }).flags = { allSet with n := false, z := false } := by decide
theorem test_or : (run (.orImm 0x8000) { regs with a := 1 }).a = 0x8001 ∧ (run (.orImm 0x8000) { regs with a := 1 }).flags.n = true := by decide
theorem test_xor : (run (.xorImm 0xFFFF) regs).a = 0xEDCB ∧ (run (.xorImm 0x1234) regs).flags.z = true := by decide

/-! ## Register operations (95 section 2.4) -/

theorem test_mul_high : (run (.mul .a) { regs with a := 0xFFFF }).a = 1 ∧ (run (.mul .a) { regs with a := 0xFFFF }).x = 0xFFFE ∧
    (run (.mul .a) { regs with a := 0xFFFF }).flags.c = true := by decide
theorem test_mul_old_x : (run (.mul .x) { regs with a := 0x0010 }).a = 0x0100 ∧ (run (.mul .x) { regs with a := 0x0010 }).x = 0 := by decide
theorem test_div : (run (.div (.r 7)) { regs with a := 0x0064 }).a = 0x000E ∧ (run (.div (.r 7)) { regs with a := 0x0064 }).x = 2 := by decide
theorem test_div_by_zero : (run (.div (.r 0)) regs).a = 0xFFFF ∧ (run (.div (.r 0)) regs).x = 0x1234 ∧
    (run (.div (.r 0)) regs).flags = { Flags.clear with v := true, n := true } := by decide
theorem test_mov_from_sp : (run (.mov .a .sp) regs).a = 0xFFFF ∧ (run (.mov .a .sp) regs).flags = Flags.clear := by decide
theorem test_mov_to_sp : (run (.mov .sp (.r 3)) regs).sp = 0x8000 := by decide
theorem test_inc_wraps : readReg (.r 6) (run (.inc (.r 6)) regs) = 0 ∧ (run (.inc (.r 6)) regs).flags = { Flags.clear with z := true } := by decide
theorem test_inc_sign : (run (.inc .y) regs).y = 0x8000 ∧ (run (.inc .y) regs).flags = { Flags.clear with n := true } := by decide
theorem test_dec_wraps : readReg (.r 0) (run (.dec (.r 0)) { regs with flags := { Flags.clear with c := true } }) = 0xFFFF ∧
    (run (.dec (.r 0)) { regs with flags := { Flags.clear with c := true } }).flags = { Flags.clear with n := true, c := true } := by decide
theorem test_bit_set : (run (.bit (.r 3) 15) regs).flags = Flags.clear := by decide
theorem test_bit_clear : (run (.bit (.r 3) 0) regs).flags = { Flags.clear with z := true } := by decide
theorem test_bset : (run (.bset .a 15) { regs with a := 0 }).a = 0x8000 ∧ (run (.bset .a 15) { regs with a := 0 }).flags = Flags.clear := by decide
theorem test_bclr : (run (.bclr .sp 15) regs).sp = 0x7FFF := by decide

/-! ## Control transfer (95 section 2.5): one step from the fetch on -/

theorem test_jmp : (nextOf (step (at_ 0x100 [0x20, 0x00, 0x00, 0x40]))).pc = 0x400000 := by decide
theorem test_jsr : (nextOf (step (at_ 0xFF001B [0x21, 0x00, 0x01, 0xFF]))).pc = 0xFF0100 ∧
    (nextOf (step (at_ 0xFF001B [0x21, 0x00, 0x01, 0xFF]))).mem.take 3 = [(0xFFFD, 0x1F), (0xFFFF, 0xFF), (0xFF001B, 0x21)] := by decide
theorem test_jsr_stack_wraps : (nextOf (step { at_ 0x100 [0x21, 0x00, 0x02, 0x00] with sp := 1 })).sp = 0xFFFE ∧
    storedByte (nextOf (step { at_ 0x100 [0x21, 0x00, 0x02, 0x00] with sp := 1 })) 0xFFFF = 0x04 := by decide
theorem test_rts_wraps : (run .rts (stored 0 [0x56, 0x34, 0x12] regs)).pc = 0x123456 ∧ (run .rts (stored 0 [0x56, 0x34, 0x12] regs)).sp = 2 := by decide
theorem test_bra : (nextOf (step (at_ 0x100 [0x30, 0x10]))).pc = 0x112 ∧ (nextOf (step (at_ 0x100 [0x30, 0x10]))).cycles = 3 := by decide
theorem test_beq : (nextOf (step { at_ 0x200 [0x31, 0xF0] with flags := { Flags.clear with z := true } })).pc = 0x1F2 ∧
    (nextOf (step (at_ 0x200 [0x31, 0xF0]))).pc = 0x202 := by decide
theorem test_bne : (nextOf (step (at_ 0x200 [0x32, 0x05]))).pc = 0x207 ∧
    (nextOf (step { at_ 0x200 [0x32, 0x05] with flags := { Flags.clear with z := true } })).cycles = 2 := by decide
theorem test_bcs : (nextOf (step { at_ 0x300 [0x33, 0x7F] with flags := { Flags.clear with c := true } })).pc = 0x381 := by decide
theorem test_bcc : (nextOf (step (at_ 0x300 [0x34, 0x80]))).pc = 0x282 ∧
    (nextOf (step { at_ 0x300 [0x34, 0x80] with flags := { Flags.clear with c := true } })).pc = 0x302 := by decide
theorem test_bmi : (nextOf (step { at_ 0x400 [0x35, 0xFE] with flags := { Flags.clear with n := true } })).pc = 0x400 := by decide
theorem test_bpl : (nextOf (step (at_ 0x400 [0x36, 0x00]))).cycles = 3 ∧
    (nextOf (step { at_ 0x400 [0x36, 0x00] with flags := { Flags.clear with n := true } })).cycles = 2 := by decide
theorem test_bvs_wraps : (nextOf (step { at_ 0xFFFFF0 [0x37, 0x20] with flags := { Flags.clear with v := true } })).pc = 0x12 := by decide
theorem test_bvc_wraps : (nextOf (step (at_ 0x5 [0x38, 0x80]))).pc = 0xFFFF87 ∧
    (nextOf (step { at_ 0x5 [0x38, 0x80] with flags := { Flags.clear with v := true } })).pc = 0x7 := by decide

/-! ## System instructions (95 section 2.6) -/

theorem test_nop : (nextOf (step (at_ 0x10 [0x00]))).pc = 0x11 := by decide
theorem test_sei : (run .sei regs).flags = { Flags.clear with i := true } := by decide
theorem test_cli : (run .cli { regs with flags := allSet }).flags = { allSet with i := false } := by decide
theorem test_rti : (run .rti (stored 0xFFFC [0xFF, 0x00, 0x10, 0x00] { regs with sp := 0xFFFB })).flags = allSet ∧
    (run .rti (stored 0xFFFC [0xFF, 0x00, 0x10, 0x00] { regs with sp := 0xFFFB })).pc = 0x001000 ∧
    (run .rti (stored 0xFFFC [0xFF, 0x00, 0x10, 0x00] { regs with sp := 0xFFFB })).sp = 0xFFFF := by decide
theorem test_rti_ignores_bits_5_and_4 : (run .rti (stored 0xFFFC [0x30] { regs with sp := 0xFFFB, flags := allSet })).flags = Flags.clear := by decide
theorem test_wfi : (nextOf (step (at_ 0x300 [0x43]))).waiting = true ∧ (nextOf (step (at_ 0x300 [0x43]))).pc = 0x301 := by decide
theorem test_cop : (run .cop regs).pending = only .swi ∧ (run .cop { regs with pending := only .swi }).pending = only .swi := by decide
theorem test_hlt : (nextOf (step (at_ 0x500 [0xFF]))).halted = true ∧ (nextOf (step (at_ 0x500 [0xFF]))).fault = none ∧
    (nextOf (step (at_ 0x500 [0xFF]))).pc = 0x501 ∧ (nextOf (step (at_ 0x500 [0xFF]))).cycles = 1 := by decide

/-! ## Faults, interrupts and waiting (95 section 2.7) -/

/-- EX1. -/
theorem test_unknown_opcode : (nextOf (step (at_ 0x500 [0x0A]))).fault = some ⟨.unknownOpcode, 0x0A, 0x500⟩ ∧
    (nextOf (step (at_ 0x500 [0x0A]))).pc = 0x501 ∧ (nextOf (step (at_ 0x500 [0x0A]))).halted = true := by decide
/-- RO33. -/
theorem test_reserved_operand : (nextOf (step (at_ 0x500 [0x50, 0xC0]))).fault = some ⟨.reservedOperand, 0x50, 0x500⟩ ∧
    (nextOf (step (at_ 0x500 [0x50, 0xC0]))).pc = 0x502 := by decide
/-- The fetch wraps (95 section 2.1, last row). -/
theorem test_fetch_wraps : (nextOf (step (stored 0 [0x12] (at_ 0xFFFFFE [0x01, 0x34])))).a = 0x1234 ∧
    (nextOf (step (stored 0 [0x12] (at_ 0xFFFFFE [0x01, 0x34])))).pc = 0x000001 := by decide
/-- EX6: VLU_DONE with N, V and C set. -/
def ex6 : State := { stored 0xFF000F [0x78, 0x56, 0x34] (at_ 0x001234 [0x00]) with flags := { Flags.clear with n := true, v := true, c := true }, pending := only .vluDone }
theorem test_dispatch_frame : (nextOf (step ex6)).mem.take 4 = [(0xFFFC, 0xC1), (0xFFFD, 0x34), (0xFFFE, 0x12), (0xFF000F, 0x78)] ∧
    (nextOf (step ex6)).sp = 0xFFFB ∧ (nextOf (step ex6)).pc = 0x345678 ∧ (nextOf (step ex6)).pending = IrqSet.empty ∧
    (nextOf (step ex6)).flags = { ex6.flags with i := true } ∧ (nextOf (step ex6)).cycles = 5 := by decide
/-- EX5: NMI with I set. -/
theorem test_nmi_passes_i : (nextOf (step { at_ 0x500 [0x00] with
    flags := { Flags.clear with i := true }, pending := { only .nmi with apuBufEmpty := true } })).pending = only .apuBufEmpty := by decide
/-- EX4: SWI is masked by I. -/
theorem test_masked : (nextOf (step { at_ 0x500 [0x00] with flags := { Flags.clear with i := true }, pending := only .swi })).pending = only .swi := by decide
/-- Under another map the step reads its bytes by that map, and the interrupt check knows its RTI byte. -/
theorem test_step_remapped : (nextOf (step { at_ 0x500 [0x44] with opcodes := remapped, pending := only .nmi })).pending = only .nmi ∧
    (nextOf (step { at_ 0x500 [0x42] with opcodes := remapped, pending := only .nmi })).pending = IrqSet.empty := by decide
/-- EX7: RTI is executed although NMI is pending. -/
theorem test_rti_skips_check : (nextOf (step { at_ 0x500 [0x42] with pending := only .nmi })).pending = only .nmi := by decide
/-- EX11: an interrupt goes before a decode fault. -/
theorem test_interrupt_before_fault : (nextOf (step { at_ 0x500 [0x0A] with pending := only .dmaDone })).fault = none ∧
    (nextOf (step { at_ 0x500 [0x0A] with pending := only .dmaDone })).sp = 0xFFFB := by decide
/-- EX8: waiting with a masked source. -/
theorem test_waits : (nextOf (step { regs with waiting := true, flags := { Flags.clear with i := true }, pending := only .timer0 })).waiting = true := by decide
/-- EX9: the waking step only wakes. -/
theorem test_wakes : (nextOf (step { regs with waiting := true, pending := only .timer0 })).waiting = false ∧
    (nextOf (step { regs with waiting := true, pending := only .timer0 })).pending = only .timer0 ∧
    (nextOf (step { regs with waiting := true, pending := only .timer0 })).cycles = 1 := by decide
/-- EX10: a halted Engine ignores NMI. -/
theorem test_halted : step { regs with halted := true, pending := only .nmi } = .next { regs with halted := true, pending := only .nmi } := rfl

/-! ## The Bus and the host (95 sections 2.8 and 2.9) -/

/-- M1: the gaps read as 0x00. -/
theorem test_gaps : [0x040000, 0x0FFFFF, 0x110000, 0x1FFFFF, 0x290000, 0x3FFFFF, 0xA40000, 0xFEFFFF].all
    (fun a => (regionAt a).isNone && ((busRead a regs).1 == 0x00)) = true := by decide
/-- M2: WorkRAM and ExpandedRAM meet. -/
theorem test_region_edge : (busRead 0x00FFFF (busWrite 0x010000 0x22 (busWrite 0x00FFFF 0x11 regs))).1 = 0x11 ∧
    (busRead 0x010000 (busWrite 0x010000 0x22 (busWrite 0x00FFFF 0x11 regs))).1 = 0x22 := by decide
/-- M9 and M10. -/
theorem test_stack_wraps : (push8 0x7E { regs with sp := 0 }).sp = 0xFFFF ∧ storedByte (push8 0x7E { regs with sp := 0 }) 0 = 0x7E ∧
    (pop8 (stored 0 [0x7E] regs)).1 = 0x7E ∧ (pop8 (stored 0 [0x7E] regs)).2.sp = 0 := by decide
/-- M6. -/
theorem test_load : (nextOf (load .bios [0x20, 0x00, 0xFF] regs)).mem = [(0xFF0000, 0x20), (0xFF0002, 0xFF)] := by decide
/-- RS1, RS3, RS4. -/
def worn : State := { stored 0xFF0000 [0x1B, 0x00, 0xFF] (stored 0x1000 [0x5A] regs) with
  halted := true, waiting := false, fault := some ⟨.unknownOpcode, 0x0A, 0x500⟩, sp := 3, flags := allSet, pending := { only .nmi with timer0 := true }, cycles := 99 }
theorem test_host_reset : (hostReset Config.resetRegs worn).pc = 0xFF001B ∧ (hostReset Config.resetRegs worn).sp = 0xFFFF ∧
    (hostReset Config.resetRegs worn).fault = none ∧ (hostReset Config.resetRegs worn).halted = false ∧
    (hostReset Config.resetRegs worn).mem = worn.mem ∧ (hostReset Config.resetRegs worn).pending = IrqSet.empty := by decide
/-- EX13. -/
theorem test_raise_refused : raiseInterrupt .timer1 regs = .refused .notASource := rfl
theorem test_handler_refused : registerIoHandler ⟨0x0FFFFF, 0x100000⟩ regs = .refused .handlerRangeNotAdmitted ∧
    registerIoHandler ⟨0x1000FF, 0x100100⟩ handled = .refused .handlerRangeNotAdmitted ∧
    (nextOf (registerIoHandler ⟨0x100100, 0x10FFFF⟩ handled)).handlers = [⟨0x100100, 0x10FFFF⟩, ⟨0x100000, 0x1000FF⟩] :=
  ⟨rfl, rfl, by decide⟩
/-- The word placed is the one the next step runs, the first after reset and after a halt. -/
theorem test_withFetchWord : (nextOf (step (State.reset.withFetchWord 24 0x123401))).a = 0x1234 ∧
    (nextOf (step (worn.withFetchWord 24 0x123401))).a = 0x1234 ∧
    (nextOf (step (({ worn with opcodes := remapped } : State).withFetchWord 8 0x42))).sp = worn.sp + 4 := by decide

/-! ## Witnesses: the hypotheses of every obligation are met somewhere -/

/-- NMI pending and I set at a NOP, with TIMER0 behind it. -/
def masked : State := { at_ 0x500 [0x00] with flags := { Flags.clear with i := true }, pending := { only .nmi with timer0 := true } }

/-- TIMER0 and PAD_EVENT pending with I clear at a NOP (S9). -/
def s9 : State := { at_ 0x200 [0x00] with pending := { IrqSet.empty with timer0 := true, padEvent := true } }

/-- A waiting machine with NMI pending. -/
def asleep : State := { at_ 0x200 [0x00] with waiting := true, pending := only .nmi }

theorem witness_DecodeOfEncodedInstruction : defaultMap.ok = true ∧ remapped.ok = true ∧ (Instr.bit (.r 3) 15).wellFormed = true ∧ (Instr.bne (-128)).wellFormed = true ∧
    (Instr.bvc 127).wellFormed = true ∧ (Instr.mov .sp (.r 7)).wellFormed = true := by decide
theorem witness_EncodeOfDecodedBytes : decode [0x32, 0xF9, 0x00] = .ok (.bne (-7), [0x00]) ∧
    decodeBy remapped [0x44] = .ok (.rti, []) ∧ decodeBy remapped [0x55, 0xBF] = .ok (.bit .sp 15, []) := by decide
theorem witness_DecodingIsTotalAndRejectsR97s : decode [0x0F] = .error .unknownOpcode ∧ decode [0x10, 0x01, 0x00] = .ok (.addImm 1, []) ∧
    decode [0x58] = .error .unknownOpcode ∧ decode [0x61] = .error .unknownOpcode ∧ decode [0xFE] = .error .unknownOpcode ∧
    decode [0x57, 0xBF, 0x00, 0x00] = .ok (.bclr .sp 15, [0x00, 0x00]) ∧
    decode [0x57, 0xC0, 0x00, 0x00] = .error .reservedOperand ∧
    decodeBy remapped [0x00] = .error .unknownOpcode ∧ remapped.ok = true ∧ (∀ o, remapped.byte o ≠ 0x00) := by
  refine ⟨by decide, by decide, by decide, by decide, by decide, by decide, by decide, by decide, by decide, fun o => ?_⟩
  cases o <;> decide
theorem witness_RegisterIdsAndReservedOperands : decode [0x50, 0xB0] = .ok (.mul .sp, []) ∧ decode [0x50, 0xC0] = .error .reservedOperand ∧
    decode [0x54, 0x01] = .error .reservedOperand ∧ decode [0x52, 0xBB] = .ok (.mov .sp .sp, []) ∧
    decode [0x52, 0xBC] = .error .reservedOperand ∧ decode [0x56, 0xCF] = .error .reservedOperand ∧
    decode [0x57, 0xBF] = .ok (.bclr .sp 15, []) := by decide
theorem witness_StepRunsTheDecodedInstruction :
    ((at_ 0xFFFFFE [0x01, 0x34]).halted = false ∧ (at_ 0xFFFFFE [0x01, 0x34]).waiting = false ∧
      nextEligible (at_ 0xFFFFFE [0x01, 0x34]).pending (at_ 0xFFFFFE [0x01, 0x34]).flags.i = none ∧
      decodeBy (at_ 0xFFFFFE [0x01, 0x34]).opcodes ((List.range 3).map fun k => storedByte (at_ 0xFFFFFE [0x01, 0x34]) (0xFFFFFE + BitVec.ofNat 24 k)) = .ok (.ldaImm 0x0034, []) ∧
      ∀ k, k < 3 → handlerAt (at_ 0xFFFFFE [0x01, 0x34]).handlers (0xFFFFFE + BitVec.ofNat 24 k) = none) ∧
    decodeBy ({ at_ 0x500 [0x42] with pending := only .nmi } : State).opcodes ((List.range 1).map fun k => storedByte { at_ 0x500 [0x42] with pending := only .nmi } (0x500 + BitVec.ofNat 24 k)) = .ok (.rti, []) ∧
    decodeBy ({ at_ 0x500 [0x42] with opcodes := remapped } : State).opcodes ((List.range 1).map fun k => storedByte { at_ 0x500 [0x42] with opcodes := remapped } (0x500 + BitVec.ofNat 24 k)) = .ok (.nop, []) := by
  decide
theorem witness_FetchReadsEachByteThroughTheBus :
    opOfByte (at_ 0x500 [0x0A]).opcodes (busRead 0x500 (at_ 0x500 [0x0A])).1 = none ∧
    opOfByte (at_ 0x500 [0x50, 0xC0]).opcodes (busRead 0x500 (at_ 0x500 [0x50, 0xC0])).1 = some .mul ∧
    decodeOperands .mul (busReadRun 1 0x501 (busRead 0x500 (at_ 0x500 [0x50, 0xC0])).2).1 = none ∧
    opOfByte (at_ 0x500 [0x20, 0x01, 0x02, 0x03]).opcodes (busRead 0x500 (at_ 0x500 [0x20, 0x01, 0x02, 0x03])).1 = some .jmp ∧
    decodeOperands .jmp (busReadRun 3 0x501 (busRead 0x500 (at_ 0x500 [0x20, 0x01, 0x02, 0x03])).2).1 = some (.jmp 0x030201) := by
  decide
/-- The clauses in their order: halted, waiting without and with an eligible source, dispatch, fault, execution, and the two scenarios. -/
theorem witness_StepResolvesEventsInOrder :
    ({ regs with halted := true } : State).halted = true ∧
    (regs.halted = false ∧ ({ regs with waiting := true } : State).waiting = true ∧ nextEligible regs.pending regs.flags.i = none) ∧
    (asleep.halted = false ∧ asleep.waiting = true ∧ nextEligible asleep.pending asleep.flags.i = some .nmi) ∧
    (masked.halted = false ∧ masked.waiting = false ∧ (fetch masked).opcode ≠ masked.opcodes.byte .rti ∧ nextEligible masked.pending masked.flags.i = some .nmi) ∧
    (nextEligible (at_ 0x500 [0x0A]).pending false = none ∧ (fetch (at_ 0x500 [0x0A])).instr = .error .unknownOpcode) ∧
    (nextEligible (at_ 0x500 [0xFF]).pending false = none ∧ (fetch (at_ 0x500 [0xFF])).instr = .ok .hlt) ∧
    ((fetch { masked with mem := [(0x500, 0x42)] }).opcode = masked.opcodes.byte .rti ∧ (fetch { masked with mem := [(0x500, 0x42)] }).instr = .ok .rti) ∧
    (masked.flags.i = true ∧ masked.pending.nmi = true ∧ masked.pending.has .timer0 = true ∧ (nextOf (step masked)).pending.has .timer0 = true) ∧
    (s9.halted = false ∧ s9.waiting = false ∧ (fetch s9).opcode ≠ s9.opcodes.byte .rti ∧ s9.flags.i = false ∧
      s9.pending = { IrqSet.empty with timer0 := true, padEvent := true } ∧ (nextOf (step s9)).pending = only .padEvent) := by decide
/-- Halting by HLT and by a fault, staying halted through a raise, leaving by reset. -/
theorem witness_HaltedIsLeftByResetAlone :
    ((at_ 0x500 [0xFF]).halted = false ∧ step (at_ 0x500 [0xFF]) = .next (nextOf (step (at_ 0x500 [0xFF]))) ∧
      (nextOf (step (at_ 0x500 [0xFF]))).halted = true) ∧
    ((at_ 0x500 [0x0A]).halted = false ∧ step (at_ 0x500 [0x0A]) = .next (nextOf (step (at_ 0x500 [0x0A]))) ∧
      (nextOf (step (at_ 0x500 [0x0A]))).halted = true) ∧
    (worn.halted = true ∧ hostAct (.raise (.source .hblank)) worn = .next (nextOf (hostAct (.raise (.source .hblank)) worn)) ∧
      ∀ rs, HostAction.raise (.source .hblank) ≠ .reset rs) ∧
    (asleep.halted = false ∧ hostAct (.load .bios [0x20]) asleep = .next (nextOf (hostAct (.load .bios [0x20]) asleep)) ∧
      (∀ rs, HostAction.load .bios [0x20] ≠ .reset rs) ∧ HostAction.load .bios [0x20] ≠ .step) :=
  ⟨⟨rfl, rfl, by decide⟩, ⟨rfl, rfl, by decide⟩, ⟨rfl, rfl, fun _ => nofun⟩, rfl, rfl, fun _ => nofun, nofun⟩
/-- WFI sets it, the waking step clears it, a host load leaves it. -/
theorem witness_WaitingIsSetByWfiAlone :
    ((at_ 0x300 [0x43]).waiting = false ∧ step (at_ 0x300 [0x43]) = .next (nextOf (step (at_ 0x300 [0x43]))) ∧
      (nextOf (step (at_ 0x300 [0x43]))).waiting = true) ∧
    (asleep.halted = false ∧ asleep.waiting = true ∧ nextEligible asleep.pending asleep.flags.i = some .nmi ∧
      step asleep = .next (nextOf (step asleep)) ∧ (nextOf (step asleep)).waiting = false) ∧
    (hostAct (.load .bios [0x20]) asleep = .next (nextOf (hostAct (.load .bios [0x20]) asleep)) ∧
      (∀ rs, HostAction.load .bios [0x20] ≠ .reset rs) ∧ HostAction.load .bios [0x20] ≠ .step) :=
  ⟨⟨rfl, rfl, by decide⟩, ⟨rfl, rfl, by decide, rfl, by decide⟩, rfl, fun _ => nofun, nofun⟩
theorem witness_StepAddsTheCyclesItReturns : step (at_ 0x500 [0x60]) = .next (nextOf (step (at_ 0x500 [0x60]))) ∧
    (nextOf (step (at_ 0x500 [0x60]))).pending.has .swi = true ∧ executes (at_ 0x500 [0x60]) .cop :=
  ⟨rfl, by decide, by unfold executes; decide⟩
theorem witness_StepCostsAsDocumented :
    takesInterrupt masked .nmi ∧ raisesFault (at_ 0x500 [0x0A]) .unknownOpcode ∧ raisesFault (at_ 0x500 [0x50, 0xC0]) .reservedOperand ∧
    executes (at_ 0x500 [0x42]) .rti ∧ executes (at_ 0x500 [0xFF]) .hlt ∧ executes (at_ 0x500 [0x30, 0x80]) (.bra (-128)) ∧
    executes (at_ 0x500 [0x31, 0x7F]) (.beq 127) ∧ executes (at_ 0x500 [0x32, 0x01]) (.bne 1) ∧ executes (at_ 0x500 [0x33, 0x01]) (.bcs 1) ∧
    executes (at_ 0x500 [0x34, 0x01]) (.bcc 1) ∧ executes (at_ 0x500 [0x35, 0x01]) (.bmi 1) ∧ executes (at_ 0x500 [0x36, 0x01]) (.bpl 1) ∧
    executes (at_ 0x500 [0x37, 0x01]) (.bvs 1) ∧ executes (at_ 0x500 [0x38, 0x01]) (.bvc 1) ∧ executes (at_ 0x500 [0x51, 0x70]) (.div (.r 7)) ∧
    worn.halted = true ∧ asleep.halted = false ∧ asleep.waiting = true := by
  refine ⟨?_, ?_, ?_, ?_, ?_, ?_, ?_, ?_, ?_, ?_, ?_, ?_, ?_, ?_, ?_, rfl, rfl, rfl⟩ <;>
    first | (unfold takesInterrupt; decide) | (unfold raisesFault; decide) | (unfold executes; decide)
theorem witness_DecodeFaultHaltsWithItsRecord :
    raisesFault (at_ 0xFFFFFF [0x0A]) .unknownOpcode ∧ raisesFault (at_ 0xFFFFFF [0xFE]) .unknownOpcode ∧
    raisesFault (stored 0 [0xC0] (at_ 0xFFFFFF [0x50])) .reservedOperand := by
  unfold raisesFault; decide
theorem witness_NextEligibleIsTheHighestPending :
    (masked.halted = false ∧ masked.waiting = false ∧ (fetch masked).opcode ≠ masked.opcodes.byte .rti) ∧ (∀ k, (only k).has k = true) ∧ nextEligible (only .swi) false = some .swi ∧ nextEligible (only .swi) true = none ∧
    nextEligible masked.pending true = some .nmi ∧ nextEligible IrqSet.empty false = none :=
  ⟨by decide, fun k => by cases k <;> rfl, by decide, by decide, by decide, by decide⟩
theorem witness_PendingChangesAsStated :
    takesInterrupt s9 .timer0 ∧ step s9 = .next (nextOf (step s9)) ∧ executes (at_ 0x500 [0x60]) .cop ∧
    (∀ id, ¬ takesInterrupt (at_ 0x500 [0xFF]) id) ∧ ¬ executes (at_ 0x500 [0xFF]) .cop ∧
    step (at_ 0x500 [0xFF]) = .next (nextOf (step (at_ 0x500 [0xFF]))) ∧
    load .workRam [0x01] s9 = .next (nextOf (load .workRam [0x01] s9)) ∧
    raiseInterrupt (.source .hblank) s9 = .next (nextOf (raiseInterrupt (.source .hblank) s9)) :=
  ⟨by unfold takesInterrupt; decide, rfl, by unfold executes; decide,
    fun id => by cases id <;> (unfold takesInterrupt; decide), by unfold executes; decide, rfl, rfl, rfl⟩
theorem witness_InterruptEntryPushesTheFrame : ex6.mem.wf = true ∧ ({ ex6 with sp := 1 } : State).mem.wf = true := by decide
/-- The handler's state itself, and one in which it has changed a register. -/
theorem witness_RtiUndoesInterruptEntry : ex6.mem.wf = true ∧
    ({ dispatch .vluDone 0x001234 ex6 with a := 7 } : State).sp = (dispatch .vluDone 0x001234 ex6).sp ∧
    ∀ k : Nat, k < 4 → storedByte { dispatch .vluDone 0x001234 ex6 with a := 7 } ((ex6.sp - BitVec.ofNat 16 k).setWidth 24) =
      storedByte (dispatch .vluDone 0x001234 ex6) ((ex6.sp - BitVec.ofNat 16 k).setWidth 24) := by decide
theorem witness_WaitingEngineWakesThenDispatches :
    (asleep.halted = false ∧ nextEligible asleep.pending asleep.flags.i = some .nmi ∧ asleep.waiting = true ∧
      (fetch (nextOf (step asleep))).opcode ≠ (nextOf (step asleep)).opcodes.byte .rti) ∧
    (masked.halted = false ∧ nextEligible masked.pending masked.flags.i = some .nmi ∧ masked.waiting = false ∧
      (fetch masked).opcode ≠ masked.opcodes.byte .rti) := by decide
theorem witness_DecimalFlagHasNoEffect : ex6.mem.wf = true ∧ Instr.ldaImm 5 ≠ .rti ∧ exec (.ldaImm 5) regs = .next (run (.ldaImm 5) regs) ∧
    exec .rti (stored 0 [0x08] regs) = .next (run .rti (stored 0 [0x08] regs)) ∧ (run .rti (stored 0 [0x08] regs)).flags.d = true :=
  ⟨rfl, nofun, rfl, rfl, by decide⟩
theorem witness_InterruptDisableFlagWriters : exec .rti (stored 0 [0x04] regs) = .next (run .rti (stored 0 [0x04] regs)) ∧
    (run .rti (stored 0 [0x04] regs)).flags.i = true ∧ (Instr.nop ≠ .sei ∧ Instr.nop ≠ .cli ∧ Instr.nop ≠ .rti) ∧
    exec .nop regs = .next (run .nop regs) ∧ nextEligible (only .nmi) true = some .nmi :=
  ⟨rfl, by decide, ⟨nofun, nofun, nofun⟩, rfl, by decide⟩
/-- An address beside the handler's range, the edges of a region and a gap, and a read that changes the machine. -/
theorem witness_BusReadIsPlainOutsideHandlers :
    (∀ h ∈ handled.handlers, ¬ (h.first.toNat ≤ (0x100100 : Addr).toNat ∧ (0x100100 : Addr).toNat ≤ h.last.toNat)) ∧
    (∀ h ∈ handled.handlers, ¬ (h.first.toNat ≤ (0x0FFFFF : Addr).toNat ∧ (0x0FFFFF : Addr).toNat ≤ h.last.toNat)) ∧
    (busRead 0x03FFFF (stored 0x03FFFF [0x77] handled)).1 = 0x77 ∧ (busRead 0x040000 handled).1 = 0x00 ∧
    (busRead 0x1000FF handled).2.ioDraws ≠ handled.ioDraws := by decide
theorem witness_BusWriteRoutesByAddress : handled.mem.wf = true ∧
    (∀ h ∈ handled.handlers, ¬ (h.first.toNat ≤ (0x28FFFF : Addr).toNat ∧ (0x28FFFF : Addr).toNat ≤ h.last.toNat)) ∧
    (busWrite 0x28FFFF 1 handled).mem = [(0x28FFFF, 1)] ∧ (busWrite 0x290000 1 handled).mem = [] ∧
    (busWrite 0x9FFFFF 1 handled).mem = [] ∧ (busWrite 0xA00000 1 handled).mem = [(0xA00000, 1)] ∧
    (busWrite 0xA3FFFF 1 handled).mem = [(0xA3FFFF, 1)] ∧ (busWrite 0xA40000 1 handled).mem = [] := by decide
/-- Both ends of a registered range. -/
theorem witness_HandlersServeTheirRanges : handlersOk handled.handlers = true ∧
    (∃ h ∈ handled.handlers, h.first.toNat ≤ (0x100000 : Addr).toNat ∧ (0x100000 : Addr).toNat ≤ h.last.toNat) ∧
    (∃ h ∈ handled.handlers, h.first.toNat ≤ (0x1000FF : Addr).toNat ∧ (0x1000FF : Addr).toNat ≤ h.last.toNat) := by decide
theorem writable_workRam_edge : writable handled 0x00FFFF := ⟨by decide, regionRow .workRam, by decide, rfl⟩
theorem writable_expandedRam_edge : writable handled 0x010000 := ⟨by decide, regionRow .expandedRam, by decide, rfl⟩
theorem not_writable_handler : ¬ writable handled 0x1000FF := fun h => absurd h.1 (by decide)
theorem not_writable_gap : ¬ writable handled 0x040000 := fun h => by
  obtain ⟨row, hr, _⟩ := h.2
  exact absurd hr (by rw [show regionAt 0x040000 = none by decide]; nofun)
theorem not_writable_bios : ¬ writable handled 0xFFFFFF := fun h => by
  obtain ⟨row, hr, hp⟩ := h.2
  rw [show regionAt 0xFFFFFF = some (regionRow .bios) by decide] at hr
  cases hr
  cases hp
theorem witness_ReadBackAfterWrite : handled.mem.wf = true ∧ writable handled 0x00FFFF ∧
    ((0x100000 : Nat) ≤ (0x100100 : Addr).toNat ∧ (0x100100 : Addr).toNat ≤ 0x10FFFF ∧ handlerAt handled.handlers 0x100100 = none) ∧
    ((0x10FFFF : Addr).toNat ≤ 0x10FFFF ∧ handlerAt handled.handlers 0x10FFFF = none) :=
  ⟨rfl, writable_workRam_edge, by decide, by decide⟩
theorem witness_ReadOnlyStorageChangesByLoadAlone :
    ((0x400000 : Nat) ≤ (0x400000 : Addr).toNat ∧ (0x9FFFFF : Addr).toNat ≤ 0x9FFFFF ∧ (0xFF0000 : Nat) ≤ (0xFFFFFF : Addr).toNat) ∧
    step regs = .next (nextOf (step regs)) ∧ raiseInterrupt (.source .nmi) regs = .next (nextOf (raiseInterrupt (.source .nmi) regs)) ∧
    (Region.vram ≠ .cartRom ∧ Region.vram ≠ .bios ∧ load .vram [0x01] regs = .next (nextOf (load .vram [0x01] regs))) :=
  ⟨by decide, rfl, rfl, by decide, by decide, rfl⟩
theorem witness_MultiByteValuesAreLittleEndian : handlerAt handled.handlers 0x0FFFFF = none ∧ handlerAt handled.handlers 0xFFFFFF = none ∧
    handlerAt handled.handlers (0xFFFFFF + 1) = none ∧ handled.mem.wf = true ∧ writable handled 0x00FFFF ∧ writable handled (0x00FFFF + 1) :=
  ⟨by decide, by decide, by decide, rfl, writable_workRam_edge, writable_expandedRam_edge⟩
theorem witness_MixedWidthAccessSeesBytes : handled.mem.wf = true ∧ writable handled 0x00FFFF ∧ writable handled (0x00FFFF + 1) ∧
    handlerAt handled.handlers (0x00FFFF - 1) = none :=
  ⟨rfl, writable_workRam_edge, writable_expandedRam_edge, by decide⟩
theorem witness_PopReturnsWhatPushStored : (stored 0 [0x56, 0x34, 0x12] regs).mem.wf = true ∧
    (pop24 (push24 0x123456 { regs with sp := 1 })).1 = 0x123456 := by decide
/-- A store to two writable bytes, and the kinds of byte it cannot write. -/
theorem witness_AbsoluteStores : handled.mem.wf = true ∧ writable handled 0x00FFFF ∧ writable handled (0x00FFFF + 1) ∧
    ¬ writable handled 0x1000FF ∧ ¬ writable handled 0x040000 ∧ ¬ writable handled 0xFFFFFF ∧
    (run (.staAbs 0x03FFFF) handled).mem = [(0x03FFFF, 0x34)] ∧ (run (.stxAbs 0x1000FF) handled).mem = [] ∧
    (run (.stxAbs 0x1000FF) handled).ioEvents = [.write 0x1000FF 0xFF 0x10] :=
  ⟨rfl, writable_workRam_edge, writable_expandedRam_edge, not_writable_handler, not_writable_gap, not_writable_bios,
    by decide, by decide, by decide⟩
theorem witness_DivideQuotientAndRemainder : readReg (.r 1) regs ≠ 0 ∧ readReg (.r 0) regs = 0 ∧ readReg .a regs ≠ 0 := by decide
theorem witness_IncrementAndDecrement : Reg.r 0 ≠ .r 7 ∧ Reg.sp ≠ .a := by decide
theorem witness_BitTestSetClear : (15 < 16) ∧ (0 < 16) ∧ Reg.r 0 ≠ .r 7 ∧ (run (.bclr (.r 3) 15) regs).r.get 3 = 0 := by decide
theorem witness_CallPushesTheReturnAddress : regs.mem.wf = true ∧ (stored 0xFFFF [0x01] regs).mem.wf = true := by decide
/-- The callee's state itself, with a register changed. -/
theorem witness_ReturnUndoesCall : regs.mem.wf = true ∧
    ({ run (.jsr 0x200) regs with a := 7 } : State).sp = (run (.jsr 0x200) regs).sp ∧
    ∀ k : Nat, k < 3 → storedByte { run (.jsr 0x200) regs with a := 7 } ((regs.sp - BitVec.ofNat 16 k).setWidth 24) =
      storedByte (run (.jsr 0x200) regs) ((regs.sp - BitVec.ofNat 16 k).setWidth 24) := by decide
theorem witness_SetAndClearInterruptDisable : exec .sei masked = .next (run .sei masked) ∧ takesInterrupt (run .sei masked) .nmi ∧
    exec .cli s9 = .next (run .cli s9) ∧ s9.pending.has .padEvent = true ∧ (run .cli s9).halted = false ∧ (run .cli s9).waiting = false ∧
    (fetch (run .cli s9)).opcode ≠ (run .cli s9).opcodes.byte .rti :=
  ⟨rfl, by unfold takesInterrupt; decide, rfl, rfl, rfl, rfl, by decide⟩
theorem witness_OnlyListedRegistersAndFlagsChange : exec (.div (.r 0)) regs = .next (run (.div (.r 0)) regs) ∧
    Reg.y ∉ writtenRegs (.div (.r 0)) ∧ (writtenFlags (.div (.r 0))).c = false ∧ (writtenFlags (.addImm 1)).d = false ∧
    (writtenFlags (.bit .a 0)).n = false ∧ (writtenFlags (.mul .a)).v = false ∧ (writtenFlags .sei).z = false ∧
    (writtenFlags (.inc .a)).i = false :=
  ⟨rfl, by decide, rfl, rfl, rfl, rfl, rfl, rfl⟩
theorem witness_OnlyStoredBytesChange : exec (.staAbs 0x1000) regs = .next (run (.staAbs 0x1000) regs) ∧
    (0x1002 : Addr) ∉ storedAddrs (.staAbs 0x1000) regs ∧ (0x0FFF : Addr) ∉ storedAddrs (.staAbs 0x1000) regs ∧
    exec (.jsr 0x200) regs = .next (run (.jsr 0x200) regs) ∧ (0xFFFC : Addr) ∉ storedAddrs (.jsr 0x200) regs :=
  ⟨rfl, by decide, by decide, rfl, by decide⟩
theorem witness_OnlyNamedInstructionsChangeControlState : exec .nop regs = .next (run .nop regs) ∧ Instr.nop ≠ .hlt ∧ Instr.nop ≠ .wfi ∧
    Instr.nop ≠ .cop ∧ Instr.nop.op ∉ [Op.ldaAbs, .ldxAbs, .ldyAbs, .staAbs, .stxAbs, .styAbs] ∧ (run (.jmp 5) regs).pc ≠ regs.pc ∧
    exec (.jmp 5) regs = .next (run (.jmp 5) regs) :=
  ⟨rfl, nofun, nofun, nofun, by decide, by decide, rfl⟩

/-- A reached state with everything in it: a fault, storage, handlers and recorded accesses. -/
def busy : State := { worn with handlers := handled.handlers, ioEvents := [.write 0x1000FF 0xFF 0x10], ioDraws := 0 }
theorem busy_inv : busy.Inv := ⟨by decide, by decide, by decide, by decide, by decide, by decide, by decide, by decide⟩
theorem ex6_inv : ex6.Inv := ⟨by decide, by decide, by decide, by decide, by decide, by decide, by decide, by decide⟩
theorem handled_inv : handled.Inv := ⟨by decide, by decide, by decide, by decide, by decide, by decide, by decide, by decide⟩
theorem witness_StepKeepsInvariant : ex6.Inv ∧ step ex6 = .next (nextOf (step ex6)) := ⟨ex6_inv, rfl⟩
theorem witness_HostActionsKeepInvariant : busy.Inv ∧ hostAct (.load .cartRom [0x01, 0x00]) busy = .next (nextOf (hostAct (.load .cartRom [0x01, 0x00]) busy)) ∧
    hostAct (.reset Config.resetRegs) busy = .next (nextOf (hostAct (.reset Config.resetRegs) busy)) ∧
    hostAct (.raise (.source .swi)) busy = .next (nextOf (hostAct (.raise (.source .swi)) busy)) ∧
    hostAct .step busy = .next (nextOf (hostAct .step busy)) := ⟨busy_inv, rfl, rfl, rfl, rfl⟩
theorem witness_ResetHasInvariant : handled.Inv ∧ handled.ioEvents = [] ∧
    registerIoHandler ⟨0x100100, 0x10FFFF⟩ handled = .next (nextOf (registerIoHandler ⟨0x100100, 0x10FFFF⟩ handled)) ∧
    setOpcodeMap remapped handled = .next { handled with opcodes := remapped } := ⟨handled_inv, rfl, rfl, rfl⟩
theorem witness_ResetSetsEveryField : State.reset.mem = [] ∧ State.reset.handlers = [] ∧ State.reset.opcodes = defaultMap ∧
    State.reset.ioDraws = 0 ∧ State.reset.ioEvents = [] := by decide
/-- Sizes at the edge: 65536 bytes fit WorkRAM and 65537 do not (M5). -/
theorem witness_LoadCopiesTheImage : regs.mem.wf = true ∧ regionSize .workRam = 65536 ∧
    regionSize .workRam < (List.replicate 65537 (0 : Byte)).length ∧ (List.replicate 65536 (0 : Byte)).length ≤ regionSize .workRam ∧
    (regionRow .bios).first + 3 ≤ 0xFF0003 :=
  ⟨rfl, rfl, by rw [List.length_replicate]; decide, by rw [List.length_replicate]; decide, by decide⟩
theorem witness_HostRefusesWhatIsNotAdmitted : registerIoHandler ⟨0x100000, 0x10FFFF⟩ regs = .next { regs with handlers := [⟨0x100000, 0x10FFFF⟩] } ∧
    registerIoHandler ⟨0x0FFFFF, 0x100000⟩ regs = .refused .handlerRangeNotAdmitted ∧
    registerIoHandler ⟨0x10FFFF, 0x110000⟩ regs = .refused .handlerRangeNotAdmitted ∧
    registerIoHandler ⟨0x100001, 0x100000⟩ regs = .refused .handlerRangeNotAdmitted ∧
    registerIoHandler ⟨0x1000FF, 0x1000FF⟩ handled = .refused .handlerRangeNotAdmitted ∧
    registerIoHandler ⟨0x100100, 0x100100⟩ handled =
      .next { handled with handlers := [⟨0x100100, 0x100100⟩, ⟨0x100000, 0x1000FF⟩] } ∧
    setOpcodeMap remapped regs = .next { regs with opcodes := remapped } ∧
    setOpcodeMap (defaultMap.set Op.nop.index 0x42) regs = .refused .opcodeMapNotAdmitted ∧
    setOpcodeMap (defaultMap.set Op.hlt.index 0xFE) regs = .refused .opcodeMapNotAdmitted ∧
    setOpcodeMap (defaultMap.set Op.ldaImm.index 0x0A) regs = .refused .opcodeMapNotAdmitted :=
  ⟨rfl, rfl, rfl, rfl, rfl, rfl, rfl, rfl, rfl, rfl⟩

end Sys2Proof.Tests
end

section
/-! PROOFS. Decoding and encoding, each way round (30_encoding.md): what a format writes it reads back, what it reads it would write, and from these the three statements on whole instructions. -/

namespace Sys2Proof

/-! ## One format read from its own bytes -/

@[simp] theorem imm16Of_imm16Bytes (v : Word) : imm16Of (imm16Bytes v) = v := Machine.wordOfBytes_byteOf v

@[simp] theorem abs24Of_abs24Bytes (v : Addr) : abs24Of (abs24Bytes v) = v := Machine.addrOfBytes_byteOf v

@[simp] theorem r1Of_r1Bytes (r : Reg) : r1Of (r1Bytes r) = some r := r1Of_append r []

@[simp] theorem r2Of_r2Bytes (d src : Reg) : r2Of (r2Bytes d src) = some (d, src) := r2Of_append d src []

theorem rel8Of_rel8Bytes {off : Int} (h : offsetOk off = true) : rel8Of (rel8Bytes off) = off := by
  simp only [offsetOk, Bool.and_eq_true, decide_eq_true_eq] at h
  show (BitVec.ofInt 8 off).toInt = off
  rw [BitVec.toInt_ofInt_eq_self (by decide)] <;> omega

theorem rbOf_rbBytes {b : Nat} (h : bitIndexOk b = true) (r : Reg) : rbOf (rbBytes r b) = some (r, b) := by
  have hb : b < 2 ^ 4 := of_decide_eq_true h
  rw [rbBytes, rbOf_append, BitVec.toNat_ofNat, Nat.mod_eq_of_lt hb]

/-! ## The bytes one format was read from -/

theorem imm16Bytes_imm16Of {bs : List Byte} (hl : bs.length = 2) : imm16Bytes (imm16Of bs) = bs := by
  obtain ⟨b0, b1, rfl⟩ := List.length_eq_two.1 hl
  obtain ⟨h0, h1⟩ := byteOf_wordOfBytes b1 b0
  simp [imm16Bytes, imm16Of, operandByte, h0, h1]

theorem abs24Bytes_abs24Of {bs : List Byte} (hl : bs.length = 3) : abs24Bytes (abs24Of bs) = bs := by
  obtain ⟨b0, b1, b2, rfl⟩ := List.length_eq_three.1 hl
  obtain ⟨h0, h1, h2⟩ := byteOf_addrOfBytes b2 b1 b0
  simp [abs24Bytes, abs24Of, operandByte, h0, h1, h2]

/-- A one-byte operand is its own list of bytes. -/
theorem singleton_operandByte {bs : List Byte} (hl : bs.length = 1) : [operandByte bs 0] = bs := by
  obtain ⟨b, rfl⟩ := List.length_eq_one_iff.1 hl
  rfl

theorem rel8Bytes_rel8Of {bs : List Byte} (hl : bs.length = 1) : rel8Bytes (rel8Of bs) = bs := by
  rw [rel8Bytes, rel8Of, BitVec.ofInt_toInt, singleton_operandByte hl]

theorem r1Bytes_of_r1Of {bs : List Byte} {r : Reg} (hl : bs.length = 1) (h : r1Of bs = some r) : r1Bytes r = bs := by
  rw [r1Of, Option.ite_none_right_eq_some] at h
  obtain ⟨hlow, hhigh⟩ := h
  rw [r1Bytes, regId_of_regOfId hhigh, ← hlow, nibbles_append, singleton_operandByte hl]

theorem r2Bytes_of_r2Of {bs : List Byte} {d src : Reg} (hl : bs.length = 1) (h : r2Of bs = some (d, src)) :
    r2Bytes d src = bs := by
  rw [r2Of] at h
  split at h
  next hd hsrc =>
    cases h
    rw [r2Bytes, regId_of_regOfId hd, regId_of_regOfId hsrc, nibbles_append, singleton_operandByte hl]
  next => cases h

/-- RB reads a register and a bit index of four bits, whose bytes are those read. -/
theorem rbBytes_of_rbOf {bs : List Byte} {r : Reg} {b : Nat} (hl : bs.length = 1) (h : rbOf bs = some (r, b)) :
    bitIndexOk b = true ∧ rbBytes r b = bs := by
  obtain ⟨r', hr, hp⟩ := Option.map_eq_some_iff.1 h
  cases hp
  refine ⟨bitIndexOk_toNat _, ?_⟩
  rw [rbBytes, regId_of_regOfId hr, BitVec.ofNat_toNat, BitVec.setWidth_eq, nibbles_append, singleton_operandByte hl]

/-! ## The operand bytes of an instruction -/

/-- An instruction has as many operand bytes as its row (30 R93). -/
theorem length_operandBytesOf (i : Instr) : (operandBytesOf i).length = i.op.operandBytes := by cases i <;> rfl

/-- A well-formed instruction is read back from its operand bytes, format by format. -/
theorem decodeOperands_operandBytesOf {i : Instr} (h : i.wellFormed = true) :
    decodeOperands i.op (operandBytesOf i) = some i := by
  cases i with
  | ldaImm | ldxImm | ldyImm | addImm | subImm | andImm | orImm | xorImm =>
    simp only [Instr.op, operandBytesOf, decodeOperands, imm16Of_imm16Bytes]
  | ldaAbs | staAbs | ldxAbs | stxAbs | ldyAbs | styAbs | jmp | jsr =>
    simp only [Instr.op, operandBytesOf, decodeOperands, abs24Of_abs24Bytes]
  | bra | beq | bne | bcs | bcc | bmi | bpl | bvs | bvc =>
    simp only [Instr.op, operandBytesOf, decodeOperands, rel8Of_rel8Bytes h]
  | mul | div | inc | dec => simp only [Instr.op, operandBytesOf, decodeOperands, r1Of_r1Bytes, Option.map_some]
  | mov => simp only [Instr.op, operandBytesOf, decodeOperands, r2Of_r2Bytes, Option.map_some]
  | bit | bset | bclr => simp only [Instr.op, operandBytesOf, decodeOperands, rbOf_rbBytes h, Option.map_some]
  | rts | sei | cli | rti | wfi | nop | cop | hlt => rfl

/-- What a row reads from all its operand bytes is well formed and has exactly those bytes, format by format. -/
theorem wellFormed_and_operandBytes_of_decodeOperands {o : Op} {bs : List Byte} {i : Instr} (hl : bs.length = o.operandBytes)
    (h : decodeOperands o bs = some i) : i.wellFormed = true ∧ operandBytesOf i = bs := by
  cases o with
  | ldaImm | ldxImm | ldyImm | addImm | subImm | andImm | orImm | xorImm =>
    cases h
    exact ⟨rfl, imm16Bytes_imm16Of hl⟩
  | ldaAbs | staAbs | ldxAbs | stxAbs | ldyAbs | styAbs | jmp | jsr =>
    cases h
    exact ⟨rfl, abs24Bytes_abs24Of hl⟩
  | bra | beq | bne | bcs | bcc | bmi | bpl | bvs | bvc =>
    cases h
    exact ⟨offsetOk_toInt _, rel8Bytes_rel8Of hl⟩
  | mul | div | inc | dec =>
    obtain ⟨r, hr, rfl⟩ := Option.map_eq_some_iff.1 h
    exact ⟨rfl, r1Bytes_of_r1Of hl hr⟩
  | mov =>
    obtain ⟨p, hp, rfl⟩ := Option.map_eq_some_iff.1 h
    exact ⟨rfl, r2Bytes_of_r2Of hl hp⟩
  | bit | bset | bclr =>
    obtain ⟨p, hp, rfl⟩ := Option.map_eq_some_iff.1 h
    exact rbBytes_of_rbOf hl hp
  | rts | sei | cli | rti | wfi | nop | cop | hlt =>
    cases h
    exact ⟨rfl, (List.eq_nil_of_length_eq_zero hl).symm⟩

/-! ## What the decoder can answer -/

/-- The four answers of the decoder to a first byte and the bytes after it, each with what leads to it (30 R97, R98, R100). -/
theorem decodeBy_cons_cases (m : OpcodeMap) (b : Byte) (bs : List Byte) :
    (opOfByte m b = none ∧ decodeBy m (b :: bs) = .error .unknownOpcode) ∨
    ∃ o, opOfByte m b = some o ∧
      ((bs.length < o.operandBytes ∧ decodeBy m (b :: bs) = .error .truncated) ∨
       (o.operandBytes ≤ bs.length ∧ decodeOperands o (bs.take o.operandBytes) = none ∧
        decodeBy m (b :: bs) = .error .reservedOperand) ∨
       ∃ i, o.operandBytes ≤ bs.length ∧ decodeOperands o (bs.take o.operandBytes) = some i ∧
        decodeBy m (b :: bs) = .ok (i, bs.drop o.operandBytes)) := by
  cases ho : opOfByte m b with
  | none => exact .inl ⟨rfl, by simp only [decodeBy, ho]⟩
  | some o =>
    refine .inr ⟨o, rfl, ?_⟩
    by_cases hs : bs.length < o.operandBytes
    · exact .inl ⟨hs, by simp only [decodeBy, ho, if_pos hs]⟩
    · cases hd : decodeOperands o (bs.take o.operandBytes) with
      | none => exact .inr (.inl ⟨Nat.le_of_not_lt hs, rfl, by simp only [decodeBy, ho, if_neg hs, hd]⟩)
      | some i => exact .inr (.inr ⟨i, Nat.le_of_not_lt hs, rfl, by simp only [decodeBy, ho, if_neg hs, hd]⟩)

/-- Bytes that decode are an assigned opcode byte, all the operand bytes of its row, and the bytes left over. -/
theorem decodeBy_eq_ok {m : OpcodeMap} {bs rest : List Byte} {i : Instr} (h : decodeBy m bs = .ok (i, rest)) :
    ∃ b o ops, bs = b :: (ops ++ rest) ∧ opOfByte m b = some o ∧ ops.length = o.operandBytes ∧
      decodeOperands o ops = some i := by
  cases bs with
  | nil => cases h
  | cons b bs =>
    obtain ⟨-, he⟩ | ⟨o, ho, ⟨-, he⟩ | ⟨-, -, he⟩ | ⟨j, hlen, hd, he⟩⟩ := decodeBy_cons_cases m b bs
    all_goals
      rw [he] at h
      cases h
    exact ⟨b, o, bs.take o.operandBytes, by rw [List.take_append_drop], ho, List.length_take_of_le hlen, hd⟩

/-- Only an unassigned first byte is rejected as unknown. -/
theorem decodeBy_unknownOpcode_iff {m : OpcodeMap} {b : Byte} {bs : List Byte} :
    decodeBy m (b :: bs) = .error .unknownOpcode ↔ opOfByte m b = none := by
  obtain ⟨ho, he⟩ | ⟨o, ho, ⟨-, he⟩ | ⟨-, -, he⟩ | ⟨j, -, -, he⟩⟩ := decodeBy_cons_cases m b bs <;> simp [ho, he]

/-- The bytes the default map gives no row, in the ranges of 30 R97. -/
theorem opOfByte_defaultMap_eq_none_iff (b : Byte) : opOfByte defaultMap b = none ↔
    ((0x0A ≤ b.toNat ∧ b.toNat ≤ 0x0F) ∨ (0x15 ≤ b.toNat ∧ b.toNat ≤ 0x1F) ∨
     (0x23 ≤ b.toNat ∧ b.toNat ≤ 0x2F) ∨ (0x39 ≤ b.toNat ∧ b.toNat ≤ 0x3F) ∨
     (0x44 ≤ b.toNat ∧ b.toNat ≤ 0x4F) ∨ (0x58 ≤ b.toNat ∧ b.toNat ≤ 0x5F) ∨
     (0x61 ≤ b.toNat ∧ b.toNat ≤ 0xFE)) := by
  revert b; decide

/-- The longest instruction has three operand bytes (30 R90). -/
theorem operandBytes_le_three (o : Op) : o.operandBytes ≤ 3 := by cases o <;> decide

/-- Three bytes after the first are enough for every row: no demand for more. -/
theorem decodeBy_of_three_le {m : OpcodeMap} {b : Byte} {bs : List Byte} (hl : 3 ≤ bs.length) :
    (∃ i n, n ≤ 3 ∧ decodeBy m (b :: bs) = .ok (i, bs.drop n)) ∨
    decodeBy m (b :: bs) = .error .unknownOpcode ∨ decodeBy m (b :: bs) = .error .reservedOperand := by
  obtain ⟨-, he⟩ | ⟨o, -, ⟨hs, -⟩ | ⟨-, -, he⟩ | ⟨i, -, -, he⟩⟩ := decodeBy_cons_cases m b bs
  · exact .inr (.inl he)
  · have := operandBytes_le_three o
    omega
  · exact .inr (.inr he)
  · exact .inl ⟨i, o.operandBytes, operandBytes_le_three o, he⟩

/-! ## The two bytes the source fixes -/

theorem decodeBy_ldaImm {m : OpcodeMap} (hm : m.ok = true) (lo hi : Byte) (rest : List Byte) :
    decodeBy m (0x01 :: lo :: hi :: rest) = .ok (.ldaImm (hi ++ lo), rest) := by
  rw [← OpcodeMap.byte_ldaImm hm]
  exact decodeBy_of_operands [lo, hi] rest (opOfByte_byte hm .ldaImm) rfl rfl

theorem decodeBy_hlt {m : OpcodeMap} (hm : m.ok = true) (rest : List Byte) :
    decodeBy m (0xFF :: rest) = .ok (.hlt, rest) := by
  rw [← OpcodeMap.byte_hlt hm]
  exact decodeBy_of_operands [] rest (opOfByte_byte hm .hlt) rfl rfl

/-! ## The statements -/

/-- Settles O1: an admitted map gives back the row of the first byte, and each format its own operands. -/
theorem decodeOfEncodedInstruction : Obligations.DecodeOfEncodedInstruction := by
  intro m i rest hm hi
  exact decodeBy_of_operands (operandBytesOf i) rest (opOfByte_byte hm i.op) (length_operandBytesOf i)
    (decodeOperands_operandBytesOf hi)

/-- Settles O2: the first byte is the row's own, and the operand bytes are those each format would write. -/
theorem encodeOfDecodedBytes : Obligations.EncodeOfDecodedBytes := by
  intro m bs rest i h
  obtain ⟨b, o, ops, rfl, ho, hl, hd⟩ := decodeBy_eq_ok h
  obtain ⟨hwf, hops⟩ := wellFormed_and_operandBytes_of_decodeOperands hl hd
  exact ⟨hwf, by rw [encodeBy, op_of_decodeOperands hd, byte_of_opOfByte ho, hops, List.cons_append]⟩

/-- Settles O3: only an unassigned byte is unknown, and no row needs more than three bytes after the first. -/
theorem decodingIsTotalAndRejectsR97s : Obligations.DecodingIsTotalAndRejectsR97s := by
  refine ⟨fun b rest => decodeBy_unknownOpcode_iff.trans (opOfByte_defaultMap_eq_none_iff b),
    fun m b rest => decodeBy_unknownOpcode_iff.trans opOfByte_eq_none_iff,
    fun m lo hi rest hm => ⟨decodeBy_ldaImm hm lo hi rest, decodeBy_hlt hm rest⟩, fun m b0 b1 b2 b3 rest => ?_⟩
  obtain ⟨i, n, hn, he⟩ | he := decodeBy_of_three_le (m := m) (b := b0) (bs := b1 :: b2 :: b3 :: rest) (by simp)
  · exact .inl ⟨i, n + 1, by omega, by omega, he⟩
  · exact .inr he

end Sys2Proof
end

section
/-! PROOFS. The state (10_state.md): the Bus part of a state and its share of the invariant, what each instruction leaves of registers, flags and control state, and from these the statements on `halted`, `waiting`, D, I and the invariant. -/

namespace Sys2Proof.Machine

/-! ## The Bus part of a state -/

/-- The fields a Bus access reads or writes, the two fixed configurations among them. -/
structure BusState where
  mem : Memory
  handlers : List HandlerRange
  opcodes : OpcodeMap
  ioDraws : Nat
  ioEvents : List IoEvent

def State.bus (s : State) : BusState where
  mem := s.mem
  handlers := s.handlers
  opcodes := s.opcodes
  ioDraws := s.ioDraws
  ioEvents := s.ioEvents

/-- The clauses of `State.Inv` that speak of the Bus part alone. -/
structure BusState.Inv (b : BusState) : Prop where
  memCanonical : b.mem.wf = true
  memMapped : ∀ c ∈ b.mem, storageKey c.1 = true
  handlersAdmitted : handlersOk b.handlers = true
  opcodesAdmitted : b.opcodes.ok = true
  eventsInRanges : ∀ e ∈ b.ioEvents, eventOk b.handlers e = true
  drawsCounted : b.ioDraws = b.ioEvents.countP IoEvent.isRead

/-- The invariant is the Bus part's and two clauses on what stopped the Engine. -/
theorem inv_iff {s : State} :
    s.Inv ↔ s.bus.Inv ∧ (s.fault ≠ none → s.halted = true) ∧ (s.halted = true → s.waiting = false) :=
  ⟨fun ⟨hm, hk, hh, ho, hf, hb, he, hd⟩ => ⟨⟨hm, hk, hh, ho, he, hd⟩, hf, hb⟩,
    fun ⟨⟨hm, hk, hh, ho, he, hd⟩, hf, hb⟩ => ⟨hm, hk, hh, ho, hf, hb, he, hd⟩⟩

section
variable (s : State)

@[simp] theorem bus_setA (v : Word) : (s.setA v).bus = s.bus := rfl
@[simp] theorem bus_setX (v : Word) : (s.setX v).bus = s.bus := rfl
@[simp] theorem bus_setY (v : Word) : (s.setY v).bus = s.bus := rfl
@[simp] theorem bus_setSp (v : Word) : (s.setSp v).bus = s.bus := rfl
@[simp] theorem bus_setPc (v : Addr) : (s.setPc v).bus = s.bus := rfl
@[simp] theorem bus_setFlags (f : Flags) : (s.setFlags f).bus = s.bus := rfl
@[simp] theorem bus_setHalted (b : Bool) : (s.setHalted b).bus = s.bus := rfl
@[simp] theorem bus_setWaiting (b : Bool) : (s.setWaiting b).bus = s.bus := rfl
@[simp] theorem bus_charge (n : Nat) : (s.charge n).bus = s.bus := rfl
@[simp] theorem bus_intRaise (id : IrqSource) : (intRaise id s).bus = s.bus := rfl
@[simp] theorem bus_acknowledge (id : IrqSource) : (acknowledge id s).bus = s.bus := rfl
@[simp] theorem bus_raiseDecodeFault (k : DecodeFaultKind) (op : Byte) (a0 : Addr) :
    (raiseDecodeFault k op a0 s).bus = s.bus := rfl
@[simp] theorem bus_writeReg (r : Reg) (v : Word) : (writeReg r v s).bus = s.bus := by cases r <;> rfl

/-- Interrupt entry reaches the Bus by its four pushes alone: the vector lies in no handler range. -/
theorem bus_dispatch (id : IrqSource) (ret : Addr) :
    (dispatch id ret s).bus = (push8 (flagsByte s.flags) (push24 ret (acknowledge id s))).bus := by
  rw [dispatch_eq, bus_setPc, bus_setFlags]

/-- RTI only reads the stack, which lies in no handler range. -/
@[simp] theorem bus_returnFromInterrupt : (returnFromInterrupt s).bus = s.bus := by
  rw [returnFromInterrupt_eq, bus_setPc, bus_setSp, bus_setFlags]

@[simp] theorem bus_pop24 : (pop24 s).2.bus = s.bus := by rw [pop24_eq, bus_setSp]

@[simp] theorem bus_waitStep : (waitStep s).bus = s.bus := by
  obtain ⟨-, e⟩ | ⟨-, -, e⟩ := waitStep_cases s <;> rw [e]
  · exact bus_charge ..
  · rw [bus_charge, bus_setWaiting]

end

/-! ## Bus accesses keep the Bus part's invariant -/

theorem storageKey_of_regionAt {a : Addr} {row : RegionRow} (h : regionAt a = some row) :
    storageKey a.toNat = true :=
  List.any_eq_true.2 ⟨row, List.mem_of_find?_eq_some h, List.find?_some (p := fun row : RegionRow => row.covers a.toNat) (l := regionTable) h⟩

/-- What `eventOk` asks of an access holds of the range that serves the address (20 R57). -/
theorem handlerAt_serves {hs : List HandlerRange} {a : Addr} {h : HandlerRange} (hh : handlerAt hs a = some h) :
    hs.any (fun k => k.covers a && (a - h.first == a - k.first)) = true := by
  rw [handlerAt, Option.ite_none_right_eq_some] at hh
  have hc := List.find?_some (p := fun k : HandlerRange => k.covers a) hh.2
  exact List.any_eq_true.2 ⟨h, List.mem_of_find?_eq_some hh.2, by simp [hc]⟩

theorem busInv_busRead {s : State} (hs : s.bus.Inv) (a : Addr) : (busRead a s).2.bus.Inv := by
  cases hh : handlerAt s.handlers a with
  | none => rw [busRead_plain hh]; exact hs
  | some h =>
    rw [busRead_handler hh]
    exact { hs with
      eventsInRanges := List.forall_mem_cons.2 ⟨handlerAt_serves hh, hs.eventsInRanges⟩
      drawsCounted := (congrArg (· + 1) hs.drawsCounted).trans (List.countP_cons_of_pos rfl).symm }

theorem busInv_busWrite {s : State} (hs : s.bus.Inv) (a : Addr) (v : Byte) : (busWrite a v s).bus.Inv := by
  obtain ⟨h, hh, e⟩ | ⟨-, -, e⟩ | ⟨-, row, hr, -, e⟩ := busWrite_cases a v s <;> rw [e]
  · exact { hs with
      eventsInRanges := List.forall_mem_cons.2 ⟨handlerAt_serves hh, hs.eventsInRanges⟩
      drawsCounted := hs.drawsCounted.trans (List.countP_cons_of_neg (by simp [IoEvent.isRead])).symm }
  · exact hs
  · exact { hs with
      memCanonical := memory_wf_memSet hs.memCanonical _ _
      memMapped := fun c hc => by
        obtain hc | rfl := mem_memSet hc
        · exact hs.memMapped c hc
        · exact storageKey_of_regionAt hr }

theorem busInv_memRead16 {s : State} (hs : s.bus.Inv) (a : Addr) : (memRead16 a s).2.bus.Inv :=
  busInv_busRead (busInv_busRead hs _) _

theorem busInv_memWrite16 {s : State} (hs : s.bus.Inv) (a : Addr) (v : Word) : (memWrite16 a v s).bus.Inv :=
  busInv_busWrite (busInv_busWrite hs _ _) _ _

theorem busInv_push8 {s : State} (hs : s.bus.Inv) (v : Byte) : (push8 v s).bus.Inv := busInv_busWrite hs _ _

theorem busInv_push24 {s : State} (hs : s.bus.Inv) (v : Addr) : (push24 v s).bus.Inv :=
  busInv_push8 (busInv_push8 (busInv_push8 hs _) _) _

theorem busInv_dispatch {s : State} (hs : s.bus.Inv) (id : IrqSource) (ret : Addr) : (dispatch id ret s).bus.Inv := by
  rw [bus_dispatch]
  exact busInv_push8 (busInv_push24 (by rwa [bus_acknowledge]) ret) _

theorem busInv_fetchByte {s : State} (hs : s.bus.Inv) : (fetchByte s).2.bus.Inv := busInv_busRead hs _

theorem busInv_fetchBytes {s : State} (hs : s.bus.Inv) (k : Nat) : (fetchBytes k s).2.bus.Inv := by
  induction k generalizing s with
  | zero => exact hs
  | succ k ih => exact ih (busInv_fetchByte hs)

theorem busInv_fetch {s : State} (hs : s.bus.Inv) : (fetch s).after.bus.Inv := by
  obtain ⟨-, e⟩ | ⟨o, -, -, e, -⟩ := fetch_cases s <;> rw [e]
  · exact busInv_fetchByte hs
  · exact busInv_fetchBytes (busInv_fetchByte hs) _

/-! ## What an instruction does to the Bus part -/

/-- The machine after the Bus accesses of an instruction that can record an access or store a byte: the absolute loads and stores (40 R129) and the pushes of JSR (43 R191). -/
def busAccesses (i : Instr) (s : State) : State :=
  match i with
  | .ldaAbs addr | .ldxAbs addr | .ldyAbs addr => (memRead16 (effectiveAddress addr) s).2
  | .staAbs addr => memWrite16 (effectiveAddress addr) s.a s
  | .stxAbs addr => memWrite16 (effectiveAddress addr) s.x s
  | .styAbs addr => memWrite16 (effectiveAddress addr) s.y s
  | .jsr _ => push24 s.pc s
  | _ => s

/-- Every branch answers a next state that differs in PC and the cost alone (43 R193). -/
theorem eq_of_branch {taken : Bool} {off : Int} {s t : State} (h : branch taken off s = .next t) :
    t = (s.setPc (if taken then branchTarget off s else s.pc)).charge (branchCycles taken) := by
  cases taken <;> cases h <;> rfl

/-- Execution changes the Bus part by `busAccesses` and by nothing else. -/
theorem exec_bus {i : Instr} {s t : State} (h : exec i s = .next t) : t.bus = (busAccesses i s).bus := by
  cases i with
  | bra | beq | bne | bcs | bcc | bmi | bpl | bvs | bvc => rw [eq_of_branch h]; rfl
  | _ => obtain rfl := Host.Outcome.next.inj h; simp [busAccesses]

theorem busInv_busAccesses {s : State} (hs : s.bus.Inv) (i : Instr) : (busAccesses i s).bus.Inv := by
  cases i with
  | ldaAbs | ldxAbs | ldyAbs => exact busInv_memRead16 hs _
  | staAbs | stxAbs | styAbs => exact busInv_memWrite16 hs _ _
  | jsr => exact busInv_push24 hs _
  | _ => exact hs

theorem busInv_exec {i : Instr} {s t : State} (hs : s.bus.Inv) (h : exec i s = .next t) : t.bus.Inv := by
  rw [exec_bus h]; exact busInv_busAccesses hs i

/-- A step keeps the Bus part's invariant. -/
theorem busInv_step {s t : State} (hs : s.bus.Inv) (h : step s = .next t) : t.bus.Inv := by
  obtain ⟨-, rfl⟩ | ⟨-, -, rfl⟩ | ⟨id, -, rfl⟩ | ⟨k, -, rfl⟩ | ⟨i, -, he⟩ := step_cases h
  · exact hs
  · rwa [bus_waitStep]
  · rw [bus_charge]
    exact busInv_dispatch (busInv_fetch hs) id _
  · rw [bus_charge, bus_raiseDecodeFault]
    exact busInv_fetch hs
  · exact busInv_exec (busInv_fetch hs) he

/-! ## What an instruction does to the control state -/

/-- `halted`, `waiting`, `pending` and `fault` in execution: HLT, WFI and COP each change one of them. -/
theorem exec_control {i : Instr} {s t : State} (h : exec i s = .next t) :
    (i ≠ .hlt → t.halted = s.halted) ∧ (i ≠ .wfi → t.waiting = s.waiting) ∧
    (i ≠ .cop → t.pending = s.pending) ∧ t.fault = s.fault := by
  cases i with
  | bra | beq | bne | bcs | bcc | bmi | bpl | bvs | bvc => rw [eq_of_branch h]; simp
  | _ => obtain rfl := Host.Outcome.next.inj h; simp [pop24_eq]

/-- The rows that move PC away from the next instruction (10 R43). -/
theorem exec_pc {i : Instr} {s t : State} (h : exec i s = .next t)
    (hi : i.op ∉ [.jmp, .jsr, .rts, .rti, .bra, .beq, .bne, .bcs, .bcc, .bmi, .bpl, .bvs, .bvc]) : t.pc = s.pc := by
  cases i with
  | jmp | jsr | rts | rti => exact absurd (by simp [Instr.op]) hi
  | bra | beq | bne | bcs | bcc | bmi | bpl | bvs | bvc => exact absurd (by simp [Instr.op]) hi
  | _ => obtain rfl := Host.Outcome.next.inj h; simp

theorem busAccesses_handlers (i : Instr) (s : State) : (busAccesses i s).handlers = s.handlers := by
  cases i <;> simp [busAccesses]

theorem busAccesses_opcodes (i : Instr) (s : State) : (busAccesses i s).opcodes = s.opcodes := by
  cases i <;> simp [busAccesses]

/-- Only a handler read draws, and only absolute loads read beyond the stack. -/
theorem busAccesses_ioDraws {i : Instr} (s : State) (hi : i.op ∉ [.ldaAbs, .ldxAbs, .ldyAbs]) :
    (busAccesses i s).ioDraws = s.ioDraws := by
  cases i with
  | ldaAbs | ldxAbs | ldyAbs => exact absurd (by simp [Instr.op]) hi
  | _ => simp [busAccesses]

/-- JSR's stack bytes lie in no handler range, so that absolute loads and stores alone are recorded. -/
theorem busAccesses_ioEvents {i : Instr} (s : State)
    (hi : i.op ∉ [.ldaAbs, .ldxAbs, .ldyAbs, .staAbs, .stxAbs, .styAbs]) : (busAccesses i s).ioEvents = s.ioEvents := by
  cases i with
  | ldaAbs | ldxAbs | ldyAbs | staAbs | stxAbs | styAbs => exact absurd (by simp [Instr.op]) hi
  | _ => simp [busAccesses]

/-! ## What an instruction does to registers and flags -/

section
variable (q : Reg) (s : State)

@[simp] theorem readReg_setA (v : Word) : readReg q (s.setA v) = if q = .a then v else readReg q s :=
  readReg_writeReg q .a v s
@[simp] theorem readReg_setX (v : Word) : readReg q (s.setX v) = if q = .x then v else readReg q s :=
  readReg_writeReg q .x v s
@[simp] theorem readReg_setY (v : Word) : readReg q (s.setY v) = if q = .y then v else readReg q s :=
  readReg_writeReg q .y v s
@[simp] theorem readReg_setSp (v : Word) : readReg q (s.setSp v) = if q = .sp then v else readReg q s :=
  readReg_writeReg q .sp v s
@[simp] theorem readReg_memRead16 (a : Addr) : readReg q (memRead16 a s).2 = readReg q s := by
  apply readReg_congr <;> simp
@[simp] theorem readReg_memWrite16 (a : Addr) (v : Word) : readReg q (memWrite16 a v s) = readReg q s := by
  apply readReg_congr <;> simp
@[simp] theorem readReg_push8 (v : Byte) : readReg q (push8 v s) = if q = .sp then s.sp - 1 else readReg q s := by
  rw [push8_eq, readReg_setSp, readReg_setMem]
@[simp] theorem readReg_intRaise (id : IrqSource) : readReg q (intRaise id s) = readReg q s := by cases q <;> rfl

end

/-- No register outside `writtenRegs` changes. -/
theorem exec_readReg {i : Instr} {s t : State} (h : exec i s = .next t) {q : Reg} (hq : q ∉ writtenRegs i) :
    readReg q t = readReg q s := by
  cases i with
  | bra | beq | bne | bcs | bcc | bmi | bpl | bvs | bvc => rw [eq_of_branch h]; simp
  | jsr | rts | rti =>
    obtain rfl := Host.Outcome.next.inj h
    simp_all [writtenRegs, push24, pop24_eq, returnFromInterrupt_eq]
  | _ =>
    obtain rfl := Host.Outcome.next.inj h
    simp_all [writtenRegs, readReg_writeReg]

/-- No flag outside `writtenFlags` changes. -/
theorem exec_flags {i : Instr} {s t : State} (h : exec i s = .next t) :
    ((writtenFlags i).n = false → t.flags.n = s.flags.n) ∧ ((writtenFlags i).v = false → t.flags.v = s.flags.v) ∧
    ((writtenFlags i).d = false → t.flags.d = s.flags.d) ∧ ((writtenFlags i).i = false → t.flags.i = s.flags.i) ∧
    ((writtenFlags i).z = false → t.flags.z = s.flags.z) ∧ ((writtenFlags i).c = false → t.flags.c = s.flags.c) := by
  cases i with
  | bra | beq | bne | bcs | bcc | bmi | bpl | bvs | bvc => rw [eq_of_branch h]; simp
  | rti => exact ⟨nofun, nofun, nofun, nofun, nofun, nofun⟩
  | addImm | subImm => obtain rfl := Host.Outcome.next.inj h; simp [writtenFlags, Flags.clear, flagsAdd, flagsSub]
  | mul | div | bit =>
    obtain rfl := Host.Outcome.next.inj h
    simp [writtenFlags, Flags.clear, flagsMul, flagsDiv, flagsBit]
  | _ => obtain rfl := Host.Outcome.next.inj h; simp [writtenFlags, Flags.clear, pop24_eq]

/-- D is in the row of RTI alone (10 R44). -/
theorem writtenFlags_d {i : Instr} (hi : i ≠ .rti) : (writtenFlags i).d = false := by
  cases i with
  | rti => exact absurd rfl hi
  | _ => rfl

/-- I is in the rows of SEI, CLI and RTI alone (10 R44). -/
theorem writtenFlags_i {i : Instr} (hsei : i ≠ .sei) (hcli : i ≠ .cli) (hrti : i ≠ .rti) :
    (writtenFlags i).i = false := by
  cases i with
  | sei => exact absurd rfl hsei
  | cli => exact absurd rfl hcli
  | rti => exact absurd rfl hrti
  | _ => rfl

/-- RTI takes all six flags from the byte above SP (44 R213). -/
theorem exec_rti_flags {s t : State} (h : exec .rti s = .next t) :
    t.flags = flagsOfByte (storedByte s (stackAddr (s.sp + 1))) := by
  obtain rfl := Host.Outcome.next.inj h
  rw [State.charge_flags, returnFromInterrupt_flags]

/-- Pulling the byte just pushed gives back the six flags (10 R33). -/
theorem flagsOfByte_flagsByte (f : Flags) : flagsOfByte (flagsByte f) = f := by
  obtain ⟨n, v, d, i, z, c⟩ := f
  revert n v d i z c
  decide

/-- Pushing the flags pulled from a byte gives it back without bits 5 and 4 (10 R33). -/
theorem flagsByte_flagsOfByte (b : Byte) : flagsByte (flagsOfByte b) = b &&& 0xCF := by revert b; decide

/-! ## Execution beside another D -/

/-- The same flags with another D (10 R30). -/
def Flags.setD (b : Bool) (f : Flags) : Flags := { f with d := b }

/-- The same state with another D. -/
def State.setD (b : Bool) (s : State) : State := s.setFlags (s.flags.setD b)

section
variable (b : Bool) (f : Flags)

@[simp] theorem flagsZN_setD (v : Word) : flagsZN v (f.setD b) = (flagsZN v f).setD b := rfl
@[simp] theorem flagsAdd_setD (v w : Word) : flagsAdd v w (f.setD b) = (flagsAdd v w f).setD b := rfl
@[simp] theorem flagsSub_setD (v w : Word) : flagsSub v w (f.setD b) = (flagsSub v w f).setD b := rfl
@[simp] theorem flagsMul_setD (v w : Word) : flagsMul v w (f.setD b) = (flagsMul v w f).setD b := rfl
@[simp] theorem flagsDiv_setD (v w : Word) : flagsDiv v w (f.setD b) = (flagsDiv v w f).setD b := rfl
@[simp] theorem flagsBit_setD (v : Word) (n : Nat) : flagsBit v n (f.setD b) = (flagsBit v n f).setD b := rfl
@[simp] theorem flagsSetI_setD (i : Bool) : flagsSetI i (f.setD b) = (flagsSetI i f).setD b := rfl

end

section
variable (b : Bool) (s : State)

@[simp] theorem setD_a : (s.setD b).a = s.a := rfl
@[simp] theorem setD_x : (s.setD b).x = s.x := rfl
@[simp] theorem setD_y : (s.setD b).y = s.y := rfl
@[simp] theorem setD_pc : (s.setD b).pc = s.pc := rfl
@[simp] theorem setD_flags : (s.setD b).flags = s.flags.setD b := rfl
@[simp] theorem setA_setD (v : Word) : (s.setD b).setA v = (s.setA v).setD b := rfl
@[simp] theorem setX_setD (v : Word) : (s.setD b).setX v = (s.setX v).setD b := rfl
@[simp] theorem setY_setD (v : Word) : (s.setD b).setY v = (s.setY v).setD b := rfl
@[simp] theorem setPc_setD (v : Addr) : (s.setD b).setPc v = (s.setPc v).setD b := rfl
@[simp] theorem setFlags_setD (f : Flags) : (s.setD b).setFlags (f.setD b) = (s.setFlags f).setD b := rfl
@[simp] theorem setHalted_setD (h : Bool) : (s.setD b).setHalted h = (s.setHalted h).setD b := rfl
@[simp] theorem setWaiting_setD (w : Bool) : (s.setD b).setWaiting w = (s.setWaiting w).setD b := rfl
@[simp] theorem charge_setD (n : Nat) : (s.setD b).charge n = (s.charge n).setD b := rfl
@[simp] theorem intRaise_setD (id : IrqSource) : intRaise id (s.setD b) = (intRaise id s).setD b := rfl
@[simp] theorem readReg_setD (q : Reg) : readReg q (s.setD b) = readReg q s := readReg_setFlags ..
@[simp] theorem writeReg_setD (r : Reg) (v : Word) : writeReg r v (s.setD b) = (writeReg r v s).setD b := by
  cases r <;> rfl

@[simp] theorem busRead_setD (a : Addr) : busRead a (s.setD b) = ((busRead a s).1, (busRead a s).2.setD b) := by
  cases hh : handlerAt s.handlers a with
  | none => rw [busRead_plain hh, busRead_plain (s := s.setD b) hh]; rfl
  | some h => rw [busRead_handler hh, busRead_handler (s := s.setD b) hh]; rfl

@[simp] theorem busWrite_setD (a : Addr) (v : Byte) : busWrite a v (s.setD b) = (busWrite a v s).setD b := by
  obtain ⟨h, hh, e⟩ | ⟨hh, hp, e⟩ | ⟨hh, row, hr, hp, e⟩ := busWrite_cases a v s <;> rw [e]
  · exact busWrite_handler (s := s.setD b) hh v
  · cases hr : regionAt a with
    | none => exact busWrite_unmapped (s := s.setD b) hh hr v
    | some row => exact busWrite_readOnly (s := s.setD b) hh hr (hp row hr) v
  · exact busWrite_stores (s := s.setD b) hh hr hp v

@[simp] theorem memRead16_setD (a : Addr) :
    memRead16 a (s.setD b) = ((memRead16 a s).1, (memRead16 a s).2.setD b) := by simp [memRead16]

@[simp] theorem memWrite16_setD (a : Addr) (v : Word) : memWrite16 a v (s.setD b) = (memWrite16 a v s).setD b := by
  simp [memWrite16]

@[simp] theorem push8_setD (v : Byte) : push8 v (s.setD b) = (push8 v s).setD b := by rw [push8_eq, push8_eq]; rfl

@[simp] theorem push24_setD (v : Addr) : push24 v (s.setD b) = (push24 v s).setD b := by simp [push24]

@[simp] theorem pop24_setD : pop24 (s.setD b) = ((pop24 s).1, (pop24 s).2.setD b) := by rw [pop24_eq, pop24_eq]; rfl

end

theorem branch_setD {taken : Bool} {off : Int} {s t : State} (h : branch taken off s = .next t) (b : Bool) :
    branch taken off (s.setD b) = .next (t.setD b) := by
  cases taken <;> obtain rfl := Host.Outcome.next.inj h <;> rfl

/-- Every instruction but RTI does the same beside another D. -/
theorem exec_setD {i : Instr} {s t : State} (hi : i ≠ .rti) (h : exec i s = .next t) (b : Bool) :
    exec i (s.setD b) = .next (t.setD b) := by
  cases i with
  | rti => exact absurd rfl hi
  | bra | beq | bne | bcs | bcc | bmi | bpl | bvs | bvc => exact branch_setD h b
  | _ =>
    obtain rfl := Host.Outcome.next.inj h
    refine congrArg Host.Outcome.next ?_
    simp

/-! ## What halts, what waits, what masks -/

theorem waitStep_halted (s : State) : (waitStep s).halted = s.halted := by
  obtain ⟨-, e⟩ | ⟨-, -, e⟩ := waitStep_cases s <;> rw [e] <;> rfl

theorem waitStep_fault (s : State) : (waitStep s).fault = s.fault := by
  obtain ⟨-, e⟩ | ⟨-, -, e⟩ := waitStep_cases s <;> rw [e] <;> rfl

/-- Neither a load nor a raise touches `halted` or `waiting` (10 R34, R35). -/
theorem hostAct_keeps_halted_waiting {act : HostAction} {s t : State} (hr : ∀ regs, act ≠ .reset regs)
    (hs : act ≠ .step) (h : hostAct act s = .next t) : t.halted = s.halted ∧ t.waiting = s.waiting := by
  cases act with
  | step => exact absurd rfl hs
  | reset regs => exact absurd rfl (hr regs)
  | load g bytes =>
    rw [hostAct, load] at h
    split at h
    · cases h
    · cases h; exact ⟨rfl, rfl⟩
  | raise id => cases id <;> cases h; exact ⟨rfl, rfl⟩

section
variable (regs : ResetRegs) (s : State)

theorem hostReset_halted : (hostReset regs s).halted = false := by simp [hostReset]
theorem hostReset_waiting : (hostReset regs s).waiting = false := by simp [hostReset]
theorem hostReset_flags : (hostReset regs s).flags = Flags.clear := by simp [hostReset]

end

/-- Only HLT and a decode fault halt a running Engine. -/
theorem executes_hlt_or_raisesFault {s t : State} (hs : s.halted = false) (h : step s = .next t)
    (ht : t.halted = true) : executes s .hlt ∨ ∃ k, raisesFault s k := by
  have hne : t.halted ≠ s.halted := by simp [hs, ht]
  obtain ⟨-, rfl⟩ | ⟨-, -, rfl⟩ | ⟨id, -, rfl⟩ | ⟨k, hk, -⟩ | ⟨i, hi, he⟩ := step_cases h
  · exact absurd rfl hne
  · exact absurd (waitStep_halted s) hne
  · exact absurd (by simp) hne
  · exact .inr ⟨k, hk⟩
  · by_cases hh : i = .hlt
    · exact .inl (hh ▸ hi)
    · obtain ⟨hhalted, -⟩ := exec_control he
      exact absurd ((hhalted hh).trans (fetch_after_halted s)) hne

/-- Only WFI makes an Engine wait. -/
theorem executes_wfi {s t : State} (hs : s.waiting = false) (h : step s = .next t) (ht : t.waiting = true) :
    executes s .wfi := by
  have hne : t.waiting ≠ s.waiting := by simp [hs, ht]
  obtain ⟨-, rfl⟩ | ⟨-, hw, -⟩ | ⟨id, -, rfl⟩ | ⟨k, -, rfl⟩ | ⟨i, hi, he⟩ := step_cases h
  · exact absurd rfl hne
  · exact absurd (hs.symm.trans hw) (by decide)
  · exact absurd (by simp) hne
  · exact absurd (by simp) hne
  · by_cases hh : i = .wfi
    · exact hh ▸ hi
    · obtain ⟨-, hwaiting, -⟩ := exec_control he
      exact absurd ((hwaiting hh).trans (fetch_after_waiting s)) hne

/-- A wait ends in a step that finds an eligible source. -/
theorem eligible_of_wait_ends {s t : State} (hs : s.waiting = true) (h : step s = .next t) (ht : t.waiting = false) :
    ∃ id, nextEligible s.pending s.flags.i = some id := by
  have hrun : s.waiting ≠ false := by simp [hs]
  obtain ⟨-, rfl⟩ | ⟨-, -, rfl⟩ | ⟨id, ⟨-, hw, -⟩, -⟩ | ⟨k, ⟨-, hw, -⟩, -⟩ | ⟨i, ⟨-, hw, -⟩, -⟩ := step_cases h
  · exact absurd ht hrun
  · obtain ⟨-, e⟩ | ⟨id, hid, -⟩ := waitStep_cases s
    · rw [e] at ht
      exact absurd ht hrun
    · exact ⟨id, hid⟩
  all_goals exact absurd hw hrun

/-- With I set NMI alone is eligible (60 R245). -/
theorem eq_nmi_of_nextEligible_masked {p : IrqSet} {id : IrqSource} (h : nextEligible p true = some id) : id = .nmi := by
  have he := List.find?_some (p := fun k => eligible p true k) h
  simp only [eligible, Bool.not_true, Bool.or_false, Bool.and_eq_true, decide_eq_true_eq] at he
  exact he.2

/-! ## The statements -/

/-- Settles O55: the Bus part is kept by every access; a running Engine has no fault, and no instruction both halts and waits. -/
theorem stepKeepsInvariant : Obligations.StepKeepsInvariant := by
  intro s t hs h
  obtain ⟨hb, hfault, hboth⟩ := inv_iff.1 hs
  refine inv_iff.2 ⟨busInv_step hb h, ?_⟩
  have hnone : s.halted = false → s.fault = none := fun hr => by
    by_contra hf
    exact absurd (hr.symm.trans (hfault hf)) (by decide)
  obtain ⟨-, rfl⟩ | ⟨hr, -, rfl⟩ | ⟨id, ⟨hr, hw, -⟩, rfl⟩ | ⟨k, ⟨hr, hw, -⟩, rfl⟩ | ⟨i, ⟨hr, hw, -⟩, he⟩ := step_cases h
  · exact ⟨hfault, hboth⟩
  · simp [waitStep_halted, waitStep_fault, hr, hnone hr]
  · simp [hr, hnone hr]
  · simp [hw]
  · obtain ⟨hhalted, hwaiting, -, hf⟩ := exec_control he
    rw [fetch_after_halted] at hhalted
    rw [fetch_after_waiting] at hwaiting
    rw [fetch_after_fault] at hf
    refine ⟨fun hne => absurd (hf.trans (hnone hr)) hne, fun hh => ?_⟩
    by_cases hi : i = .hlt
    · exact (hwaiting (by simp [hi])).trans hw
    · exact absurd (hh.symm.trans (hhalted hi)) (by simp [hr])

/-- Settles O10: of the events of a step only HLT and the decode fault set `halted`; a halted step is none, and load and raise leave it. -/
theorem haltedIsLeftByResetAlone : Obligations.HaltedIsLeftByResetAlone := by
  refine ⟨fun s => ⟨_, rfl, rfl⟩, raiseDecodeFault_halted, fun s t => executes_hlt_or_raisesFault,
    fun s => step_of_halted, fun act s t hr hs h => ?_,
    fun act s t hr hs h => (hostAct_keeps_halted_waiting hr hs h).1, hostReset_halted, rfl⟩
  by_cases ha : act = .step
  · subst ha
    have e : Host.Outcome.next s = .next t := (step_of_halted hs).1.symm.trans h
    rwa [← Host.Outcome.next.inj e]
  · exact (hostAct_keeps_halted_waiting hr ha h).1.trans hs

/-- Settles O11: of the events of a step WFI alone sets `waiting`, and the waiting step clears it exactly when it finds a source. -/
theorem waitingIsSetByWfiAlone : Obligations.WaitingIsSetByWfiAlone := by
  refine ⟨fun s => ⟨_, rfl, rfl⟩, fun s t => executes_wfi, fun s id hr hw hid => ?_, fun s t => eligible_of_wait_ends,
    fun act s t hr hs h => (hostAct_keeps_halted_waiting hr hs h).2, hostReset_waiting, rfl⟩
  refine ⟨_, (step_of_waiting hr hw).1, ?_⟩
  obtain ⟨hnone, -⟩ | ⟨-, -, e⟩ := waitStep_cases s
  · exact absurd (hnone.symm.trans hid) (by simp)
  · rw [e, State.charge_waiting, State.setWaiting_waiting]

/-- Settles O52: instruction by instruction against the two tables. -/
theorem onlyListedRegistersAndFlagsChange : Obligations.OnlyListedRegistersAndFlagsChange :=
  fun _ _ _ h => ⟨fun _ hq => exec_readReg h hq, exec_flags h⟩

/-- Settles O54: HLT, WFI and COP change one field each, and the Bus part changes by the absolute accesses and JSR's pushes. -/
theorem onlyNamedInstructionsChangeControlState : Obligations.OnlyNamedInstructionsChangeControlState := by
  intro i s t h
  obtain ⟨hhalted, hwaiting, hpending, hfault⟩ := exec_control h
  have hbus := exec_bus h
  exact ⟨hhalted, hwaiting, hpending, hfault,
    (congrArg BusState.handlers hbus).trans (busAccesses_handlers i s),
    (congrArg BusState.opcodes hbus).trans (busAccesses_opcodes i s),
    fun hpc => by_contra fun hi => hpc (exec_pc h hi),
    fun hi => (congrArg BusState.ioDraws hbus).trans (busAccesses_ioDraws s hi),
    fun hi => (congrArg BusState.ioEvents hbus).trans (busAccesses_ioEvents s hi)⟩

/-- Settles O22: bit by bit, pushed and pulled back either way. -/
theorem flagsByteLayout : Obligations.FlagsByteLayout := by
  refine ⟨?_, flagsOfByte_flagsByte, flagsByte_flagsOfByte⟩
  rintro ⟨n, v, d, i, z, c⟩
  revert n v d i z c
  decide

/-- Settles O23: D is outside every other row of the flag table, every other instruction commutes with changing it, and the pushed byte gives it back. -/
theorem decimalFlagHasNoEffect : Obligations.DecimalFlagHasNoEffect := by
  refine ⟨fun i s t b hi h => ⟨?_, exec_setD hi h b⟩, fun s t h => congrArg Flags.d (exec_rti_flags h),
    fun id ret s hm => ?_, fun id ret s => (congrArg Flags.d (dispatch_flags id ret s)).trans (flagsSetI_d true s.flags),
    fun regs s => congrArg Flags.d (hostReset_flags regs s), rfl⟩
  · obtain ⟨-, -, hd, -⟩ := exec_flags h
    exact hd (writtenFlags_d hi)
  · exact (congrArg (·.getLsbD 3) (storedByte_dispatch_flags hm id ret)).trans
      (congrArg Flags.d (flagsOfByte_flagsByte s.flags))

/-- Settles O24: I is in the rows of SEI, CLI and RTI alone, and with I set only NMI is eligible. -/
theorem interruptDisableFlagWriters : Obligations.InterruptDisableFlagWriters := by
  refine ⟨fun s => ⟨_, rfl, rfl⟩, fun s => ⟨_, rfl, rfl⟩, fun id ret s => congrArg Flags.i (dispatch_flags id ret s),
    fun s t h => congrArg Flags.i (exec_rti_flags h), fun i s t hsei hcli hrti h => ?_,
    fun p id => eq_nmi_of_nextEligible_masked, fun regs s => congrArg Flags.i (hostReset_flags regs s), rfl⟩
  obtain ⟨-, -, -, hi, -⟩ := exec_flags h
  exact hi (writtenFlags_i hsei hcli hrti)

end Sys2Proof.Machine
end

section
/-! PROOFS. Memory and the Bus (20_memory.md): the region table in numbers, which handler serves an address, what each Bus access stores, and from these the statements on reads, writes, the stack, ReadOnly storage and `load`. -/

namespace Sys2Proof.Machine

/-! ## The region table in numbers -/

theorem regionAt_of_bounds (g : Region) {a : Addr} (hlo : (regionRow g).first ≤ a.toNat)
    (hhi : a.toNat ≤ (regionRow g).last) : regionAt a = some (regionRow g) :=
  regionAt_of_covers ((covers_iff _ _).2 ⟨hlo, hhi⟩)

/-- Settles O25: each branch lies in the bounds of one row, and what is left in those of none. -/
theorem regionTableIsR50s : Obligations.RegionTableIsR50s := by
  intro a
  have htop := a.isLt
  split_ifs with hwork hexp hio hvram hcram hrom hsave hbios
  · exact regionAt_of_bounds .workRam (Nat.zero_le _) hwork
  · exact regionAt_of_bounds .expandedRam (Nat.lt_of_not_le hwork) hexp
  · exact regionAt_of_bounds .io hio.1 hio.2
  · exact regionAt_of_bounds .vram hvram.1 hvram.2
  · exact regionAt_of_bounds .cram hcram.1 hcram.2
  · exact regionAt_of_bounds .cartRom hrom.1 hrom.2
  · exact regionAt_of_bounds .cartSave hsave.1 hsave.2
  · exact regionAt_of_bounds .bios hbios (Nat.le_of_lt_succ htop)
  · obtain ⟨e, -⟩ | ⟨g, -, hlo, hhi⟩ := regionAt_cases a
    · exact e
    · cases g <;> simp only [regionRow] at hlo hhi <;> omega

/-- The gaps of 20 R52. -/
theorem regionAt_eq_none_iff (a : Addr) : regionAt a = none ↔
    (0x040000 ≤ a.toNat ∧ a.toNat ≤ 0x0FFFFF) ∨ (0x110000 ≤ a.toNat ∧ a.toNat ≤ 0x1FFFFF) ∨
    (0x290000 ≤ a.toNat ∧ a.toNat ≤ 0x3FFFFF) ∨ (0xA40000 ≤ a.toNat ∧ a.toNat ≤ 0xFEFFFF) := by
  rw [regionTableIsR50s a]
  split_ifs <;> simp only [true_iff, false_iff] <;> omega

/-- The ReadWrite addresses are those in no gap and neither in CartROM nor in BIOS (20 R50). -/
theorem regionAt_readWrite_iff (a : Addr) : (∃ row, regionAt a = some row ∧ row.policy = .readWrite) ↔
    ¬ ((0x040000 ≤ a.toNat ∧ a.toNat ≤ 0x0FFFFF) ∨ (0x110000 ≤ a.toNat ∧ a.toNat ≤ 0x1FFFFF) ∨
      (0x290000 ≤ a.toNat ∧ a.toNat ≤ 0x9FFFFF) ∨ 0xA40000 ≤ a.toNat) := by
  rw [regionTableIsR50s a]
  split_ifs <;> simp only [Option.some.injEq, exists_eq_left', reduceCtorEq, false_and, exists_false, true_iff, false_iff,
    not_not] <;> omega

/-- CartROM and BIOS in numbers (20 R50, R55). -/
theorem covers_of_readOnly_bounds {a : Addr} (h : (0x400000 ≤ a.toNat ∧ a.toNat ≤ 0x9FFFFF) ∨ 0xFF0000 ≤ a.toNat) :
    ∃ g, (g = .cartRom ∨ g = .bios) ∧ (regionRow g).covers a.toNat = true := by
  obtain ⟨hlo, hhi⟩ | hlo := h
  · exact ⟨.cartRom, .inl rfl, (covers_iff _ _).2 ⟨hlo, hhi⟩⟩
  · exact ⟨.bios, .inr rfl, (covers_iff _ _).2 ⟨hlo, Nat.le_of_lt_succ a.isLt⟩⟩

/-! ## Which handler serves an address -/

theorem inIoRegion_iff (a : Addr) : inIoRegion a = true ↔ 0x100000 ≤ a.toNat ∧ a.toNat ≤ 0x10FFFF := covers_iff _ _

theorem handlerRange_covers_iff (h : HandlerRange) (a : Addr) :
    h.covers a = true ↔ h.first.toNat ≤ a.toNat ∧ a.toNat ≤ h.last.toNat := by
  rw [HandlerRange.covers, Bool.and_eq_true, decide_eq_true_eq, decide_eq_true_eq]

/-- Outside every registered range nothing serves. -/
theorem handlerAt_eq_none {hs : List HandlerRange} {a : Addr}
    (h : ∀ k ∈ hs, ¬ (k.first.toNat ≤ a.toNat ∧ a.toNat ≤ k.last.toNat)) : handlerAt hs a = none := by
  rw [handlerAt, ite_eq_right_iff]
  exact fun _ => List.find?_eq_none.2 fun k hk => mt (handlerRange_covers_iff k a).1 (h k hk)

/-- What serves is registered, holds the address, and serves the I/O region only (20 R57, log 10). -/
theorem handlerAt_eq_some {hs : List HandlerRange} {a : Addr} {h : HandlerRange} (hh : handlerAt hs a = some h) :
    h ∈ hs ∧ (h.first.toNat ≤ a.toNat ∧ a.toNat ≤ h.last.toNat) ∧ 0x100000 ≤ a.toNat ∧ a.toNat ≤ 0x10FFFF := by
  rw [handlerAt, Option.ite_none_right_eq_some] at hh
  obtain ⟨hio, hf⟩ := hh
  exact ⟨List.mem_of_find?_eq_some hf,
    (handlerRange_covers_iff h a).1 (List.find?_some (p := fun k : HandlerRange => k.covers a) hf), (inIoRegion_iff a).1 hio⟩

theorem handlersOk_cons {h : HandlerRange} {hs : List HandlerRange} :
    handlersOk (h :: hs) = true ↔ h.inside = true ∧ (∀ k ∈ hs, h.apart k = true) ∧ handlersOk hs = true := by
  simp only [handlersOk, Bool.and_eq_true, List.all_eq_true, and_assoc]

/-- Ranges apart hold no common address. -/
theorem not_covers_of_apart {h k : HandlerRange} {a : Addr} (hk : h.apart k = true) (ha : k.covers a = true) :
    h.covers a = false := by
  rw [handlerRange_covers_iff] at ha
  rw [HandlerRange.apart, Bool.or_eq_true, decide_eq_true_eq, decide_eq_true_eq] at hk
  rw [← Bool.not_eq_true, handlerRange_covers_iff]
  omega

/-- In an admitted registry the range that holds an address is the one the search finds. -/
theorem find?_covers_of_mem {hs : List HandlerRange} (hok : handlersOk hs = true) {h : HandlerRange} (hh : h ∈ hs)
    {a : Addr} (ha : h.covers a = true) : hs.find? (fun k => k.covers a) = some h := by
  induction hs with
  | nil => exact absurd hh List.not_mem_nil
  | cons k ks ih =>
    obtain ⟨-, hapart, hks⟩ := handlersOk_cons.1 hok
    obtain rfl | hh := List.mem_cons.1 hh
    · exact List.find?_cons_of_pos ha
    · rw [List.find?_cons_of_neg (by simp [not_covers_of_apart (hapart h hh) ha])]
      exact ih hks hh

/-- An admitted range lies inside the I/O region (20 R57). -/
theorem inIoRegion_of_mem {hs : List HandlerRange} (hok : handlersOk hs = true) {h : HandlerRange} (hh : h ∈ hs)
    {a : Addr} (ha : h.covers a = true) : inIoRegion a = true := by
  induction hs with
  | nil => exact absurd hh List.not_mem_nil
  | cons k ks ih =>
    obtain ⟨hin, -, hks⟩ := handlersOk_cons.1 hok
    obtain rfl | hh := List.mem_cons.1 hh
    · rw [HandlerRange.inside, Bool.and_eq_true, Bool.and_eq_true, inIoRegion_iff, inIoRegion_iff] at hin
      rw [handlerRange_covers_iff] at ha
      rw [inIoRegion_iff]
      omega
    · exact ih hks hh

/-- In an admitted registry a range serves every address it holds (20 R57). -/
theorem handlerAt_of_mem {hs : List HandlerRange} (hok : handlersOk hs = true) {h : HandlerRange} (hh : h ∈ hs)
    {a : Addr} (hlo : h.first.toNat ≤ a.toNat) (hhi : a.toNat ≤ h.last.toNat) : handlerAt hs a = some h := by
  have ha := (handlerRange_covers_iff h a).2 ⟨hlo, hhi⟩
  rw [handlerAt, if_pos (inIoRegion_of_mem hok hh ha), find?_covers_of_mem hok hh ha]

/-! ## What storage holds and what a write leaves of it -/

theorem memGet_memSet {m : Memory} (hm : m.wf = true) (a : Nat) (v : Byte) (n : Nat) :
    memGet (memSet m a v) n = if n = a then v else memGet m n := by
  split_ifs with hn
  · rw [hn, memGet_memSet_same hm]
  · exact memGet_memSet_other m hn v

theorem storedByte_of_regionAt_none {a : Addr} (h : regionAt a = none) (s : State) : storedByte s a = openBus := by
  rw [storedByte, h]

theorem storedByte_of_regionAt {a : Addr} (h : regionAt a ≠ none) (s : State) :
    storedByte s a = memGet s.mem a.toNat := by
  obtain ⟨row, hr⟩ := Option.ne_none_iff_exists'.1 h
  rw [storedByte, hr]

/-- `storedByte` reads storage at its own address alone. -/
theorem storedByte_congr_at {s t : State} {a : Addr} (h : memGet s.mem a.toNat = memGet t.mem a.toNat) :
    storedByte s a = storedByte t a := by
  by_cases hr : regionAt a = none
  · rw [storedByte_of_regionAt_none hr, storedByte_of_regionAt_none hr]
  · rw [storedByte_of_regionAt hr, storedByte_of_regionAt hr, h]

theorem storedByte_busWrite_writable {s : State} {a : Addr} (hm : s.mem.wf = true) (ha : writable s a) (v : Byte) :
    storedByte (busWrite a v s) a = v := by
  obtain ⟨hh, row, hr, hp⟩ := ha
  exact storedByte_busWrite_same hm hh hr hp v

theorem writable_busWrite {s : State} {a : Addr} (ha : writable s a) (b : Addr) (v : Byte) :
    writable (busWrite b v s) a := by
  rwa [writable, busWrite_handlers]

/-- Both bytes of a 16-bit store, low byte first (20 R60). -/
theorem storedByte_memWrite16 {s : State} {a : Addr} (hm : s.mem.wf = true) (h0 : writable s a)
    (h1 : writable s (a + 1)) (v : Word) :
    storedByte (memWrite16 a v s) a = byteOf 0 v ∧ storedByte (memWrite16 a v s) (a + 1) = byteOf 1 v := by
  constructor
  · rw [memWrite16, storedByte_busWrite_other (by bv_omega), storedByte_busWrite_writable hm h0]
  · exact storedByte_busWrite_writable (memory_wf_busWrite hm _ _) (writable_busWrite h1 _ _) _

/-- A 16-bit store leaves every byte but its two. -/
theorem storedByte_memWrite16_other {a b : Addr} (h0 : b ≠ a) (h1 : b ≠ a + 1) (v : Word) (s : State) :
    storedByte (memWrite16 a v s) b = storedByte s b := by
  rw [memWrite16, storedByte_busWrite_other h1, storedByte_busWrite_other h0]

/-- Above WorkRAM no address is a stack byte (20 R69). -/
theorem ne_stackAddr {b : Addr} (hb : 0x10000 ≤ b.toNat) (sp : Word) : b ≠ stackAddr sp := by
  rintro rfl
  rw [stackAddr_toNat] at hb
  have := sp.isLt
  omega

/-! ## ReadOnly storage -/

section
variable {a : Addr} (ha : readOnlyAddr a)
include ha

/-- Not even a write to its own address changes a ReadOnly byte (20 R55). -/
theorem storedByte_busWrite_readOnly (b : Addr) (v : Byte) (s : State) :
    storedByte (busWrite b v s) a = storedByte s a := by
  by_cases hb : a = b
  · subst hb
    obtain ⟨row, hr, hp⟩ := ha
    obtain ⟨h, -, e⟩ | ⟨-, -, e⟩ | ⟨-, row', hr', hp', -⟩ := busWrite_cases a v s
    · rw [e]; rfl
    · rw [e]
    · rw [hr] at hr'
      cases hr'
      rw [hp] at hp'
      cases hp'
  · exact storedByte_busWrite_other hb v s

theorem storedByte_memWrite16_readOnly (b : Addr) (v : Word) (s : State) :
    storedByte (memWrite16 b v s) a = storedByte s a := by
  rw [memWrite16, storedByte_busWrite_readOnly ha, storedByte_busWrite_readOnly ha]

theorem storedByte_push8_readOnly (v : Byte) (s : State) : storedByte (push8 v s) a = storedByte s a :=
  storedByte_busWrite_readOnly ha _ v s

theorem storedByte_push24_readOnly (v : Addr) (s : State) : storedByte (push24 v s) a = storedByte s a := by
  rw [push24, storedByte_push8_readOnly ha, storedByte_push8_readOnly ha, storedByte_push8_readOnly ha]

theorem storedByte_dispatch_readOnly (id : IrqSource) (ret : Addr) (s : State) :
    storedByte (dispatch id ret s) a = storedByte s a := by
  rw [storedByte_congr (dispatch_mem id ret s), storedByte_push8_readOnly ha, storedByte_push24_readOnly ha]
  exact storedByte_congr (acknowledge_mem id s) a

end

/-! ## Storage in execution, in a step and under the host -/

/-- Execution changes storage by `busAccesses` alone. -/
theorem storedByte_exec {i : Instr} {s t : State} (h : exec i s = .next t) (b : Addr) :
    storedByte t b = storedByte (busAccesses i s) b :=
  storedByte_congr (congrArg BusState.mem (exec_bus h)) b

/-- The Bus accesses of an instruction leave every byte it does not store to. -/
theorem storedByte_busAccesses_other {i : Instr} {s : State} {b : Addr} (hb : b ∉ storedAddrs i s) :
    storedByte (busAccesses i s) b = storedByte s b := by
  cases i with
  | ldaAbs addr | ldxAbs addr | ldyAbs addr => exact storedByte_congr (memRead16_mem ..) b
  | staAbs addr | stxAbs addr | styAbs addr =>
    simp only [storedAddrs, List.mem_cons, List.not_mem_nil, or_false, not_or] at hb
    obtain ⟨hlow, hhigh⟩ := hb
    exact storedByte_memWrite16_other hlow hhigh _ s
  | jsr addr =>
    simp only [storedAddrs, List.mem_cons, List.not_mem_nil, or_false, not_or] at hb
    obtain ⟨hhigh, hmid, hlow⟩ := hb
    exact storedByte_push24_other _ hhigh hmid hlow
  | _ => rfl

/-- No instruction's Bus accesses change a ReadOnly byte. -/
theorem storedByte_busAccesses_readOnly {a : Addr} (ha : readOnlyAddr a) (i : Instr) (s : State) :
    storedByte (busAccesses i s) a = storedByte s a := by
  cases i with
  | ldaAbs | ldxAbs | ldyAbs => exact storedByte_congr (memRead16_mem ..) a
  | staAbs | stxAbs | styAbs => exact storedByte_memWrite16_readOnly ha _ _ s
  | jsr => exact storedByte_push24_readOnly ha _ s
  | _ => rfl

/-- A fetch stores nothing. -/
theorem storedByte_fetch_after (s : State) (a : Addr) : storedByte (fetch s).after a = storedByte s a :=
  storedByte_congr (fetch_after_mem s) a

/-- No step changes a ReadOnly byte: of what it can do only entry and execution write, and both through the Bus. -/
theorem storedByte_step_readOnly {a : Addr} (ha : readOnlyAddr a) {s t : State} (h : step s = .next t) :
    storedByte t a = storedByte s a := by
  obtain ⟨-, rfl⟩ | ⟨-, -, rfl⟩ | ⟨id, -, rfl⟩ | ⟨k, -, rfl⟩ | ⟨i, -, he⟩ := step_cases h
  · rfl
  · exact storedByte_congr (congrArg BusState.mem (bus_waitStep s)) a
  · rw [storedByte_charge, storedByte_dispatch_readOnly ha, storedByte_fetch_after]
  · rw [storedByte_charge, storedByte_congr (raiseDecodeFault_mem ..), storedByte_fetch_after]
  · rw [storedByte_exec he, storedByte_busAccesses_readOnly ha, storedByte_fetch_after]

theorem hostReset_mem (regs : ResetRegs) (s : State) : (hostReset regs s).mem = s.mem := by simp [hostReset]

/-- The reset vector lies in BIOS, so that no handler serves it (70 R270). -/
theorem hostReset_pc (regs : ResetRegs) (s : State) : (hostReset regs s).pc =
    addrOfBytes (storedByte s 0xFF0002) (storedByte s 0xFF0001) (storedByte s 0xFF0000) := by
  obtain ⟨h0, h1, h2⟩ := handlerAt_vectorBase s.handlers
  exact congrArg Prod.fst (memRead24_plain (s := { s with
    a := regs.a, x := regs.x, y := regs.y, r := regs.r, sp := 0xFFFF, flags := Flags.clear, halted := false
    waiting := false, fault := none, cycles := 0, pending := IrqSet.empty }) h0 h1 h2)

theorem raiseInterrupt_mem {id : RaiseId} {s t : State} (h : raiseInterrupt id s = .next t) : t.mem = s.mem := by
  cases id <;> cases h
  rfl

theorem load_sizeExceeded {g : Region} {bytes : List Byte} (h : regionSize g < bytes.length) (s : State) :
    load g bytes s = .fault .sizeExceeded := if_pos h

theorem load_fits {g : Region} {bytes : List Byte} (h : bytes.length ≤ regionSize g) (s : State) :
    load g bytes s = .next (s.setMem (memSetMany s.mem (regionRow g).first bytes)) := if_neg (Nat.not_lt.2 h)

/-- A load leaves every byte outside its region. -/
theorem storedByte_load_other {g : Region} {bytes : List Byte} {s t : State} (h : load g bytes s = .next t) {a : Addr}
    (ha : (regionRow g).covers a.toNat = false) : storedByte t a = storedByte s a := by
  obtain hbig | hfits := Nat.lt_or_ge (regionSize g) bytes.length
  · rw [load_sizeExceeded hbig] at h
    cases h
  · rw [load_fits hfits] at h
    cases h
    have hrow : (regionRow g).first ≤ (regionRow g).last := by cases g <;> decide
    rw [← Bool.not_eq_true, covers_iff] at ha
    rw [regionSize] at hfits
    exact storedByte_congr_at (memGet_memSetMany_other _ _ _ (by omega))

/-! ## The statements -/

/-- Settles O30: each write, step and host action above leaves a ReadOnly byte; another region's load does not reach it. -/
theorem readOnlyStorageChangesByLoadAlone : Obligations.ReadOnlyStorageChangesByLoadAlone := by
  intro s t a hbounds
  obtain ⟨g, hg, hcov⟩ := covers_of_readOnly_bounds hbounds
  have ha : readOnlyAddr a := ⟨_, regionAt_of_covers hcov, by obtain rfl | rfl := hg <;> rfl⟩
  refine ⟨fun b v => storedByte_busWrite_readOnly ha b v s, storedByte_step_readOnly ha,
    fun regs => storedByte_congr (hostReset_mem regs s) a, fun id h => storedByte_congr (raiseInterrupt_mem h) a,
    fun k bytes hrom hbios h => storedByte_load_other h ?_⟩
  rw [← Bool.not_eq_true]
  intro hk
  obtain rfl := regionRow_disjoint hk hcov
  exact hg.elim hrom hbios

/-- Settles O9: every arm of a step answers `next`, and so does every instruction. -/
theorem stepAlwaysAnswersNext : Obligations.StepAlwaysAnswersNext := by
  have hexec : ∀ (i : Instr) (s : State), ∃ t, exec i s = .next t := fun i s => by cases i <;> exact ⟨_, rfl⟩
  refine ⟨fun s => ?_, hexec⟩
  cases hh : s.halted with
  | true => exact ⟨_, (step_of_halted hh).1⟩
  | false =>
    cases hw : s.waiting with
    | true => exact ⟨_, (step_of_waiting hh hw).1⟩
    | false =>
      cases hi : interruptToTake (fetch s) with
      | some id => exact ⟨_, (step_of_takesInterrupt ⟨hh, hw, hi⟩).1⟩
      | none =>
        cases hf : (fetch s).instr with
        | error k => exact ⟨_, (step_of_raisesFault ⟨hh, hw, hi, hf⟩).1⟩
        | ok i =>
          rw [(step_of_executes ⟨hh, hw, hi, hf⟩).1]
          exact hexec i _

/-- Settles O26: without a handler the read is plain, and only a handler read changes the machine. -/
theorem busReadIsPlainOutsideHandlers : Obligations.BusReadIsPlainOutsideHandlers := by
  refine ⟨fun s a h => ?_, fun s a hne => ?_⟩
  · rw [busRead_plain (handlerAt_eq_none h)]
    split_ifs with hr
    · rw [storedByte_of_regionAt_none ((regionAt_eq_none_iff a).2 hr)]; rfl
    · rw [storedByte_of_regionAt (mt (regionAt_eq_none_iff a).1 hr)]
  · cases hh : handlerAt s.handlers a with
    | none => exact absurd (congrArg Prod.snd (busRead_plain hh)) hne
    | some h =>
      obtain ⟨hmem, hin, hio⟩ := handlerAt_eq_some hh
      exact ⟨⟨h, hmem, hin⟩, hio⟩

/-- Settles O27: without a handler a write stores exactly at the ReadWrite addresses. -/
theorem busWriteRoutesByAddress : Obligations.BusWriteRoutesByAddress := by
  intro s a v hm h
  have hh := handlerAt_eq_none h
  split_ifs with hr
  · obtain ⟨k, hk, -⟩ | ⟨-, -, e⟩ | ⟨-, row, hrow, hp, -⟩ := busWrite_cases a v s
    · exact absurd (hk.symm.trans hh) (by simp)
    · exact e
    · exact absurd hr ((regionAt_readWrite_iff a).1 ⟨row, hrow, hp⟩)
  · obtain ⟨row, hrow, hp⟩ := (regionAt_readWrite_iff a).2 hr
    exact ⟨_, busWrite_stores hh hrow hp v, memory_wf_memSet hm _ v, memGet_memSet hm _ v⟩

/-- Settles O28: in an admitted registry the search for an address finds its range. -/
theorem handlersServeTheirRanges : Obligations.HandlersServeTheirRanges := by
  intro s a v hok h hh hlo hhi
  have hat := handlerAt_of_mem hok hh hlo hhi
  exact ⟨busRead_handler hat, busWrite_handler hat v⟩

/-- Settles O29: the write stores at its own address alone, and an I/O address in no handler range is ReadWrite storage. -/
theorem readBackAfterWrite : Obligations.ReadBackAfterWrite := by
  refine ⟨fun s a v hm ha => ⟨?_, fun b hb => storedByte_busWrite_other hb v s⟩,
    fun s a hlo hhi hh => ⟨hh, _, regionAt_of_bounds .io hlo hhi, rfl⟩⟩
  obtain ⟨hh, -⟩ := writable_busWrite ha a v
  rw [busRead_plain hh, storedByte_busWrite_writable hm ha]

/-- Settles O31: operand bytes as the formats read them, memory as the Bus reads and writes it, vectors as entry and reset read them. -/
theorem multiByteValuesAreLittleEndian : Obligations.MultiByteValuesAreLittleEndian :=
  ⟨fun lo hi rest => decode_of_operands [lo, hi] rest (opOfByte_opcodeByte .ldaImm) rfl rfl,
    fun b1 b2 b3 rest => decode_of_operands [b1, b2, b3] rest (opOfByte_opcodeByte .ldaAbs) rfl rfl,
    fun _ _ => memRead16_plain, fun _ _ v hm h0 h1 => storedByte_memWrite16 hm h0 h1 v, dispatch_pc, hostReset_pc⟩

/-- Settles O32: the store puts its low byte at a and its high byte above, and leaves the byte below a. -/
theorem mixedWidthAccessSeesBytes : Obligations.MixedWidthAccessSeesBytes := by
  intro s a v hm h0 h1 hbelow
  obtain ⟨hlow, hhigh⟩ := storedByte_memWrite16 hm h0 h1 v
  have hkeep := storedByte_memWrite16_other (a := a) (b := a - 1) (by bv_omega) (by bv_omega) v s
  have hat : handlerAt (memWrite16 a v s).handlers a = none := by rw [memWrite16_handlers]; exact h0.1
  have habove : handlerAt (memWrite16 a v s).handlers (a + 1) = none := by rw [memWrite16_handlers]; exact h1.1
  have hunder : handlerAt (memWrite16 a v s).handlers (a - 1) = none := by rwa [memWrite16_handlers]
  have hback : a - 1 + 1 = a := BitVec.sub_add_cancel a 1
  refine ⟨by rw [busRead_plain hat]; exact hlow, ?_, ?_⟩
  · rw [memRead16_plain hat habove, hlow, hhigh, wordOfBytes_byteOf]
  · rw [memRead16_plain hunder (by rwa [hback]), hback, hlow, hkeep]
    rfl

/-- Settles O33: a push stores below WorkRAM's end and a pop reads the same bytes in the reverse order. -/
theorem popReturnsWhatPushStored : Obligations.PopReturnsWhatPushStored := by
  intro s v hm
  obtain ⟨hhigh, hmid, hlow⟩ := storedByte_push24 hm v
  have e1 : s.sp - 3 + 1 = s.sp - 2 := by bv_omega
  have e2 : s.sp - 3 + 2 = s.sp - 1 := by bv_omega
  have e3 : s.sp - 3 + 3 = s.sp := BitVec.sub_add_cancel _ _
  refine ⟨push24_sp v s, hhigh, hmid, hlow,
    fun b hb => storedByte_push24_other v (ne_stackAddr hb _) (ne_stackAddr hb _) (ne_stackAddr hb _), ?_, ?_,
    fun b => ?_⟩
  · simp only [pop24_eq, push24_sp, e1, e2, e3, hhigh, hmid, hlow, addrOfBytes_byteOf]
  · simp only [pop24_eq, push24_sp, State.setSp_sp, e3]
  · simp only [pop8_eq, push8_sp, State.setSp_sp, BitVec.sub_add_cancel, storedByte_push8_same hm, and_self]

/-- Settles O53: instruction by instruction against the addresses of its Bus writes. -/
theorem onlyStoredBytesChange : Obligations.OnlyStoredBytesChange :=
  fun _ _ _ h b hb => (storedByte_exec h b).trans (storedByte_busAccesses_other hb)

/-- Settles O59: an image that fits is written from the region's first address on. -/
theorem loadCopiesTheImage : Obligations.LoadCopiesTheImage :=
  fun _ bytes s hm => ⟨fun h => load_sizeExceeded h s, fun h => ⟨_, load_fits h s, memory_wf_memSetMany hm _ bytes,
    fun _ hk => memGet_memSetMany_same hm _ bytes hk, fun _ hn => memGet_memSetMany_other _ _ bytes hn⟩⟩

end Sys2Proof.Machine
end

section
/-! PROOFS. Register ids, reserved operand bytes and the fetch (30_encoding.md): the nibbles of an operand byte in numbers, what makes each register format refuse one, and the fetch as one run of Bus reads. -/

namespace Sys2Proof

/-! ## Reserved operand bytes -/

theorem toNat_highNibble (b : Byte) : (highNibble b).toNat = b.toNat / 16 := by revert b; decide

theorem toNat_lowNibble (b : Byte) : (lowNibble b).toNat = b.toNat % 16 := by revert b; decide

/-- The high nibble is a reserved id exactly when it is 12 to 15 (30 R96). -/
theorem regOfId_highNibble_eq_none_iff (b : Byte) : regOfId (highNibble b) = none ↔ 12 ≤ b.toNat / 16 := by
  rw [regOfId_eq_none_iff, toNat_highNibble]

theorem regOfId_lowNibble_eq_none_iff (b : Byte) : regOfId (lowNibble b) = none ↔ 12 ≤ b.toNat % 16 := by
  rw [regOfId_eq_none_iff, toNat_lowNibble]

theorem lowNibble_eq_zero_iff (b : Byte) : lowNibble b = 0 ↔ b.toNat % 16 = 0 := by
  rw [← BitVec.toNat_inj, toNat_lowNibble]; rfl

/-- R1 refuses a reserved id or a low nibble that is not 0 (30 R98). -/
theorem r1Of_eq_none_iff (b : Byte) : r1Of [b] = none ↔ 12 ≤ b.toNat / 16 ∨ b.toNat % 16 ≠ 0 := by
  rw [r1Of, operandByte, List.getD_cons_zero, ite_eq_right_iff, imp_iff_not_or, or_comm,
    regOfId_highNibble_eq_none_iff, lowNibble_eq_zero_iff]

/-- R2 refuses either id when it is reserved (30 R98). -/
theorem r2Of_eq_none_iff (b : Byte) : r2Of [b] = none ↔ 12 ≤ b.toNat / 16 ∨ 12 ≤ b.toNat % 16 := by
  rw [← regOfId_highNibble_eq_none_iff, ← regOfId_lowNibble_eq_none_iff, r2Of, operandByte, List.getD_cons_zero]
  cases regOfId (highNibble b) <;> cases regOfId (lowNibble b) <;> simp

/-- RB refuses a reserved id and takes every bit index (30 R98). -/
theorem rbOf_eq_none_iff (b : Byte) : rbOf [b] = none ↔ 12 ≤ b.toNat / 16 :=
  Option.map_eq_none_iff.trans (regOfId_highNibble_eq_none_iff b)

/-- What is rejected as reserved: an assigned byte with all its operand bytes, which its row does not take. -/
theorem decodeBy_reservedOperand_iff {m : OpcodeMap} {b : Byte} {bs : List Byte} :
    decodeBy m (b :: bs) = .error .reservedOperand ↔
      ∃ o, opOfByte m b = some o ∧ o.operandBytes ≤ bs.length ∧ decodeOperands o (bs.take o.operandBytes) = none := by
  obtain ⟨ho, he⟩ | ⟨o, ho, ⟨hs, he⟩ | ⟨hs, hd, he⟩ | ⟨i, hs, hd, he⟩⟩ := decodeBy_cons_cases m b bs
  · simp [ho, he]
  · simp [ho, he, hs]
  · simp [ho, he, hs, hd]
  · simp [ho, he, hd]

/-- Under the default map, a row of one operand byte rejects just the bytes its format does. -/
theorem decode_reservedOperand_iff {o : Op} (hl : o.operandBytes = 1) (b : Byte) (rest : List Byte) :
    decode (opcodeByte o :: b :: rest) = .error .reservedOperand ↔ decodeOperands o [b] = none := by
  simp [decode, decodeBy_reservedOperand_iff, hl]

theorem decode_r1_reservedOperand_iff {o : Op} (h : o.format = .r1) (b : Byte) (rest : List Byte) :
    decode (opcodeByte o :: b :: rest) = .error .reservedOperand ↔ 12 ≤ b.toNat / 16 ∨ b.toNat % 16 ≠ 0 := by
  rw [decode_reservedOperand_iff (by rw [Op.operandBytes, h]; rfl), ← r1Of_eq_none_iff]
  cases o <;> cases h <;> exact Option.map_eq_none_iff

theorem decode_r2_reservedOperand_iff {o : Op} (h : o.format = .r2) (b : Byte) (rest : List Byte) :
    decode (opcodeByte o :: b :: rest) = .error .reservedOperand ↔ 12 ≤ b.toNat / 16 ∨ 12 ≤ b.toNat % 16 := by
  rw [decode_reservedOperand_iff (by rw [Op.operandBytes, h]; rfl), ← r2Of_eq_none_iff]
  cases o <;> cases h
  exact Option.map_eq_none_iff

theorem decode_rb_reservedOperand_iff {o : Op} (h : o.format = .rb) (b : Byte) (rest : List Byte) :
    decode (opcodeByte o :: b :: rest) = .error .reservedOperand ↔ 12 ≤ b.toNat / 16 := by
  rw [decode_reservedOperand_iff (by rw [Op.operandBytes, h]; rfl), ← rbOf_eq_none_iff]
  cases o <;> cases h <;> exact Option.map_eq_none_iff

/-! ## The statements on bytes -/

/-- Settles O4: ids and registers are read both ways, and the opcode bytes listed are those of the rows of R1, R2 and RB. -/
theorem registerIdsAndReservedOperands : Obligations.RegisterIdsAndReservedOperands := by
  refine ⟨by decide, rfl, rfl, rfl, rfl, fun id r => ⟨regId_of_regOfId, fun h => h ▸ regOfId_regId r⟩,
    fun b rest => ⟨?_, decode_r2_reservedOperand_iff (o := .mov) rfl b rest, ?_⟩⟩
  · have hf : ∀ o ∈ [Op.mul, .div, .inc, .dec], o.format = .r1 := by decide
    rw [show ([0x50, 0x51, 0x53, 0x54] : List Byte) = [Op.mul, .div, .inc, .dec].map opcodeByte from rfl,
      List.forall_mem_map]
    exact fun o ho => decode_r1_reservedOperand_iff (hf o ho) b rest
  · have hf : ∀ o ∈ [Op.bit, .bset, .bclr], o.format = .rb := by decide
    rw [show ([0x55, 0x56, 0x57] : List Byte) = [Op.bit, .bset, .bclr].map opcodeByte from rfl,
      List.forall_mem_map]
    exact fun o ho => decode_rb_reservedOperand_iff (hf o ho) b rest

/-- Settles O5: each word is the default byte of a row, its operand bytes, and what is left over. -/
theorem specWordsDecode : Obligations.SpecWordsDecode :=
  ⟨decode_of_operands [] [] (opOfByte_opcodeByte .nop) rfl rfl,
    decode_of_operands [0x34, 0x12] [0xFF] (opOfByte_opcodeByte .ldaImm) rfl rfl,
    decode_of_operands [0x00, 0x10, 0x00] [] (opOfByte_opcodeByte .ldaAbs) rfl rfl,
    decode_of_operands [0x07, 0x00] [] (opOfByte_opcodeByte .subImm) rfl rfl,
    decode_of_operands [0x00, 0x01, 0xFF] [] (opOfByte_opcodeByte .jsr) rfl rfl,
    decode_of_operands [0xF9] [] (opOfByte_opcodeByte .bne) rfl rfl,
    decode_of_operands [0x78] [] (opOfByte_opcodeByte .mov) rfl rfl,
    decode_of_operands [0x3F] [] (opOfByte_opcodeByte .bit) rfl rfl,
    decode_of_operands [] [] (opOfByte_opcodeByte .rti) rfl rfl,
    decode_of_operands [] [] (opOfByte_opcodeByte .hlt) rfl rfl⟩

namespace Machine

/-! ## The fetch as a run of Bus reads -/

/-- A Bus read does not depend on PC and leaves it where it is. -/
@[simp] theorem busRead_setPc (a pc : Addr) (s : State) :
    busRead a (s.setPc pc) = ((busRead a s).1, (busRead a s).2.setPc pc) := by
  cases h : handlerAt s.handlers a with
  | none => rw [busRead_plain h, busRead_plain (s := s.setPc pc) h, storedByte_setPc]
  | some r => rw [busRead_handler h, busRead_handler (s := s.setPc pc) h]; rfl

/-- Nor does a run of Bus reads. -/
@[simp] theorem busReadRun_setPc (k : Nat) (a pc : Addr) (s : State) :
    busReadRun k a (s.setPc pc) = ((busReadRun k a s).1, (busReadRun k a s).2.setPc pc) := by
  induction k generalizing a s with
  | zero => rfl
  | succ k ih => simp [busReadRun, ih]

theorem add_one_add_ofNat (a : Addr) (k : Nat) : a + 1 + BitVec.ofNat 24 k = a + BitVec.ofNat 24 (k + 1) := by
  rw [BitVec.add_assoc, Nat.add_comm k 1, BitVec.ofNat_add]
  rfl

/-- Fetching k bytes is reading them through the Bus from PC on, PC moving past them (30 R92). -/
theorem fetchBytes_setPc (k : Nat) (pc : Addr) (s : State) :
    fetchBytes k (s.setPc pc) = ((busReadRun k pc s).1, (busReadRun k pc s).2.setPc (pc + BitVec.ofNat 24 k)) := by
  induction k generalizing pc s with
  | zero => rw [BitVec.add_zero]; rfl
  | succ k ih =>
    have hbyte : fetchByte (s.setPc pc) = ((busRead pc s).1, (busRead pc s).2.setPc (pc + 1)) := by
      simp only [fetchByte, State.setPc_pc, busRead_setPc]
      rfl
    simp only [fetchBytes, busReadRun, hbyte, ih, add_one_add_ofNat]

theorem length_format (o : Op) : o.format.length = o.operandBytes + 1 := by cases o <;> rfl

/-- The operand bytes of a row follow the opcode byte, and PC ends past the whole instruction. -/
theorem fetchBytes_operandBytes (o : Op) (s : State) :
    fetchBytes o.operandBytes (fetchByte s).2 =
      ((busReadRun o.operandBytes (s.pc + 1) (busRead s.pc s).2).1,
       (busReadRun o.operandBytes (s.pc + 1) (busRead s.pc s).2).2.setPc (s.pc + BitVec.ofNat 24 o.format.length)) := by
  rw [fetchByte_snd, fetchBytes_setPc, add_one_add_ofNat, length_format]

/-- Settles O7: a fetch answers by its opcode byte and its operand bytes, which are one run of Bus reads. -/
theorem fetchReadsEachByteThroughTheBus : Obligations.FetchReadsEachByteThroughTheBus := by
  refine fun s => ⟨fetch_opcode s, fun h => ?_, fun o h => ?_⟩
  · rw [fetch_unassigned h]
    exact ⟨rfl, fetchByte_snd s⟩
  · have hops := fetchBytes_operandBytes o s
    have hbytes := congrArg Prod.fst hops
    refine ⟨?_, fun hd => ?_, fun i hd => ?_⟩
    · obtain ⟨hnone, -⟩ | ⟨o', ho', -, hafter, -⟩ := fetch_cases s
      · cases h.symm.trans hnone
      · cases h.symm.trans ho'
        rw [hafter, hops]
        rfl
    · rw [fetch_reserved h (hbytes ▸ hd)]
    · rw [fetch_instr h (hbytes ▸ hd)]

end Machine
end Sys2Proof
end

section
/-! PROOFS. Loads and stores (40_load_store.md): what a load ends in, which fields a 16-bit access can change, and what a store does to each of its two bytes whatever their kind. -/

namespace Sys2Proof.Machine

/-! ## Loads -/

/-- A load writes Z, N and the cost (92 D9). -/
theorem finishLoad_eq (o : Op) (v : Word) (s : State) : finishLoad o v s =
    .next { s with
      flags := { s.flags with z := decide (v = 0), n := v.getLsbD 15 }
      cycles := s.cycles + BitVec.ofNat 64 (baseCycles o) } := rfl

/-- A 16-bit read leaves everything but the handler record (20 R58). -/
theorem memRead16_snd_eq (a : Addr) (s : State) : (memRead16 a s).2 =
    { s with ioDraws := (memRead16 a s).2.ioDraws, ioEvents := (memRead16 a s).2.ioEvents } := by
  ext : 1 <;> simp

/-! ## Stores -/

/-- What a handler sees of a write to an address, nothing where none serves (20 R57, R58). -/
def writeEvents (hs : List HandlerRange) (a : Addr) (v : Byte) : List IoEvent :=
  match handlerAt hs a with
  | some h => [.write a (a - h.first) v]
  | none => []

theorem busWrite_ioEvents (a : Addr) (v : Byte) (s : State) :
    (busWrite a v s).ioEvents = writeEvents s.handlers a v ++ s.ioEvents := by
  obtain ⟨h, hh, e⟩ | ⟨hh, -, e⟩ | ⟨hh, _, -, -, e⟩ := busWrite_cases a v s <;> rw [e, writeEvents, hh] <;> rfl

/-- The high byte is written last, so that its event is the newest (92 D13). -/
theorem memWrite16_ioEvents (a : Addr) (v : Word) (s : State) : (memWrite16 a v s).ioEvents =
    writeEvents s.handlers (a + 1) (byteOf 1 v) ++ writeEvents s.handlers a (byteOf 0 v) ++ s.ioEvents := by
  rw [memWrite16, busWrite_ioEvents, busWrite_ioEvents, busWrite_handlers, List.append_assoc]

/-- A 16-bit write leaves everything but storage and the handler record (20 R54). -/
theorem memWrite16_eq (a : Addr) (v : Word) (s : State) : memWrite16 a v s =
    { s with mem := (memWrite16 a v s).mem, ioEvents := (memWrite16 a v s).ioEvents } := by
  ext : 1 <;> simp

theorem writable_busWrite_iff (a b : Addr) (v : Byte) (s : State) : writable (busWrite b v s) a ↔ writable s a := by
  rw [writable, busWrite_handlers, writable]

/-- A ReadOnly, unmapped or handler byte of storage stays when written (20 R55, R52, R57). -/
theorem storedByte_busWrite_of_not_writable {s : State} {a : Addr} (ha : ¬ writable s a) (v : Byte) :
    storedByte (busWrite a v s) a = storedByte s a := by
  obtain ⟨_, -, e⟩ | ⟨-, -, e⟩ | ⟨hh, row, hr, hp, -⟩ := busWrite_cases a v s
  · rw [e]; rfl
  · rw [e]
  · exact absurd ⟨hh, row, hr, hp⟩ ha

/-- The low byte of a 16-bit store, by the writability of its address alone. -/
theorem storedByte_memWrite16_low {s : State} (hm : s.mem.wf = true) (a : Addr) (v : Word) :
    (writable s a → storedByte (memWrite16 a v s) a = byteOf 0 v) ∧
    (¬ writable s a → storedByte (memWrite16 a v s) a = storedByte s a) := by
  rw [memWrite16, storedByte_busWrite_other (by bv_omega)]
  exact ⟨fun h => storedByte_busWrite_writable hm h _, fun h => storedByte_busWrite_of_not_writable h _⟩

/-- The high byte of a 16-bit store, by the writability of its address alone. -/
theorem storedByte_memWrite16_high {s : State} (hm : s.mem.wf = true) (a : Addr) (v : Word) :
    (writable s (a + 1) → storedByte (memWrite16 a v s) (a + 1) = byteOf 1 v) ∧
    (¬ writable s (a + 1) → storedByte (memWrite16 a v s) (a + 1) = storedByte s (a + 1)) := by
  rw [memWrite16, ← writable_busWrite_iff _ a (byteOf 0 v)]
  refine ⟨fun h => storedByte_busWrite_writable (memory_wf_busWrite hm _ _) h _, fun h => ?_⟩
  rw [storedByte_busWrite_of_not_writable h, storedByte_busWrite_other (by bv_omega)]

/-! ## The statements on loads and stores -/

/-- Settles O35: the two Bus reads are one 16-bit read, and the load ends from the machine it leaves. -/
theorem absoluteLoads : Obligations.AbsoluteLoads := by
  intro b1 b2 b3 rest s addr lo hi v f u
  have hu : (memRead16 addr s).2 = u := memRead16_snd_eq addr s
  exact ⟨decode_of_operands [b1, b2, b3] rest (opOfByte_opcodeByte .ldaAbs) rfl rfl,
    (congrArg (fun t : State => finishLoad .ldaAbs v (t.setA v)) hu).trans (finishLoad_eq _ v (u.setA v)),
    decode_of_operands [b1, b2, b3] rest (opOfByte_opcodeByte .ldxAbs) rfl rfl,
    (congrArg (fun t : State => finishLoad .ldxAbs v (t.setX v)) hu).trans (finishLoad_eq _ v (u.setX v)),
    decode_of_operands [b1, b2, b3] rest (opOfByte_opcodeByte .ldyAbs) rfl rfl,
    (congrArg (fun t : State => finishLoad .ldyAbs v (t.setY v)) hu).trans (finishLoad_eq _ v (u.setY v))⟩

/-- Settles O36: each store is a 16-bit write and a charge, and the write treats each of its bytes by itself. -/
theorem absoluteStores : Obligations.AbsoluteStores := by
  intro b1 b2 b3 rest s hm addr seen stores
  have hstores : ∀ {i : Instr} {o : Op} {v : Word}, exec i s = storeAbs o addr v s → stores i o v := by
    intro i o v hexec
    obtain ⟨hlow, hlowKept⟩ := storedByte_memWrite16_low hm addr v
    obtain ⟨hhigh, hhighKept⟩ := storedByte_memWrite16_high hm addr v
    exact ⟨_, hexec, congrArg (State.charge (baseCycles o)) (memWrite16_eq addr v s), memWrite16_ioEvents addr v s,
      hlow, hlowKept, hhigh, hhighKept, fun b h0 h1 => storedByte_memWrite16_other h0 h1 v s⟩
  exact ⟨decode_of_operands [b1, b2, b3] rest (opOfByte_opcodeByte .staAbs) rfl rfl, hstores rfl,
    decode_of_operands [b1, b2, b3] rest (opOfByte_opcodeByte .stxAbs) rfl rfl, hstores rfl,
    decode_of_operands [b1, b2, b3] rest (opOfByte_opcodeByte .styAbs) rfl rfl, hstores rfl⟩

/-- Settles O34: the operand is the immediate, low byte first, and the load ends from the register written. -/
theorem immediateLoads : Obligations.ImmediateLoads := by
  intro lo hi rest s v f
  exact ⟨decode_of_operands [lo, hi] rest (opOfByte_opcodeByte .ldaImm) rfl rfl, finishLoad_eq _ v (s.setA v),
    decode_of_operands [lo, hi] rest (opOfByte_opcodeByte .ldxImm) rfl rfl, finishLoad_eq _ v (s.setX v),
    decode_of_operands [lo, hi] rest (opOfByte_opcodeByte .ldyImm) rfl rfl, finishLoad_eq _ v (s.setY v)⟩

end Sys2Proof.Machine
end

section
/-! PROOFS. Arithmetic and logic (41_arith_logic.md): the C and V of an addition and a subtraction are the library's unsigned and signed overflow, and what each of the five instructions leaves in A and in the flags. -/

namespace Sys2Proof.Machine

/-! ## C and V as overflow of the exact result -/

theorem uaddOverflow_word_iff (a b : Word) : a.uaddOverflow b = true ↔ 65536 ≤ a.toNat + b.toNat :=
  decide_eq_true_iff

theorem usubOverflow_word_iff (a b : Word) : a.usubOverflow b = true ↔ a.toNat < b.toNat :=
  decide_eq_true_iff

theorem saddOverflow_word_iff (a b : Word) :
    a.saddOverflow b = true ↔ (a.toInt + b.toInt < -32768 ∨ 32767 < a.toInt + b.toInt) := by
  simp only [BitVec.saddOverflow, Bool.or_eq_true, decide_eq_true_eq]
  omega

theorem ssubOverflow_word_iff (a b : Word) :
    a.ssubOverflow b = true ↔ (a.toInt - b.toInt < -32768 ∨ 32767 < a.toInt - b.toInt) := by
  simp only [BitVec.ssubOverflow, Bool.or_eq_true, decide_eq_true_eq]
  omega

/-- Signed overflow of a sum in the sign bits: the operands agree and the sum differs from them (41 R140). -/
theorem saddOverflow_word_eq (a b : Word) : a.saddOverflow b =
    ((a.getLsbD 15 == b.getLsbD 15) && ((a + b).getLsbD 15 != a.getLsbD 15)) := by
  simp only [BitVec.saddOverflow_eq, BitVec.msb_eq_getLsbD_last]
  rfl

/-- Signed overflow of a difference in the sign bits: the operands differ, and the difference differs from the first (41 R140). -/
theorem ssubOverflow_word_eq (a b : Word) : a.ssubOverflow b =
    ((a.getLsbD 15 != b.getLsbD 15) && ((a - b).getLsbD 15 != a.getLsbD 15)) := by
  simp only [BitVec.ssubOverflow_eq, BitVec.msb_eq_getLsbD_last]
  cases a.getLsbD 15 <;> cases b.getLsbD 15 <;> simp

/-! ## The flags of a result -/

theorem flagsZN_z_iff (v : Word) (f : Flags) : (flagsZN v f).z = true ↔ v = 0 := beq_iff_eq

/-- An addition writes C and V by the two overflows, Z and N by the sum modulo 2^16 (41 R140). -/
theorem flagsAdd_eq (a b : Word) (f : Flags) :
    flagsAdd a b f = flagsZN (a + b) { f with c := a.uaddOverflow b, v := a.saddOverflow b } := by
  rw [flagsAdd, addResult_eq, sum17_carry, saddOverflow_word_eq]
  rfl

/-- A subtraction writes C by the borrow and V by the signed overflow, Z and N by the difference modulo 2^16 (41 R140). -/
theorem flagsSub_eq (a b : Word) (f : Flags) :
    flagsSub a b f = flagsZN (a - b) { f with c := a.usubOverflow b, v := a.ssubOverflow b } := by
  rw [ssubOverflow_word_eq]
  rfl

/-- The difference of two words is the exact difference modulo 2^16 (41 R142). -/
theorem toNat_sub_word (a b : Word) : ((a - b).toNat : Int) = ((a.toNat : Int) - b.toNat) % 65536 := by
  have := b.isLt
  rw [BitVec.toNat_sub]
  omega

/-! ## The instructions -/

/-- An operation on A writes A, the flags and the cost (41 R141 to R145). -/
theorem finishAlu_eq (o : Op) (v : Word) (f : Flags) (s : State) : finishAlu o v f s =
    .next { s with a := v, flags := f, cycles := s.cycles + BitVec.ofNat 64 (baseCycles o) } := rfl

/-! ## The statements on arithmetic and logic -/

/-- Settles O21: C and V are the two overflows, and the signed one has the form in sign bits. -/
theorem arithmeticFlagsAreR140s : Obligations.ArithmeticFlagsAreR140s := by
  intro a b f
  rw [flagsAdd_eq, flagsSub_eq, addResult_eq]
  refine ⟨rfl, BitVec.toNat_add a b, uaddOverflow_word_iff a b, (sum17_carry a b).symm, saddOverflow_word_iff a b, ?_,
    flagsZN_z_iff _ _, rfl, usubOverflow_word_iff a b, ssubOverflow_word_iff a b, ?_,
    flagsZN_z_iff _ _, rfl, fun r => ⟨flagsZN_z_iff r f, rfl⟩⟩
  · simp [saddOverflow_word_eq]
  · simp [ssubOverflow_word_eq]

/-- Settles O37: the operand is the immediate, and A and the flags are those of the exact sum and difference. -/
theorem addAndSubtract : Obligations.AddAndSubtract := by
  intro lo hi rest s v
  refine ⟨decode_of_operands [lo, hi] rest (opOfByte_opcodeByte .addImm) rfl rfl,
    ⟨_, finishAlu_eq .addImm _ _ s, rfl, ?_⟩,
    decode_of_operands [lo, hi] rest (opOfByte_opcodeByte .subImm) rfl rfl,
    ⟨_, finishAlu_eq .subImm _ _ s, rfl, ?_⟩⟩
  · rw [flagsAdd_eq, addResult_eq]
    exact ⟨BitVec.toNat_add _ _, uaddOverflow_word_iff _ _, saddOverflow_word_iff _ _, flagsZN_z_iff _ _, rfl, rfl, rfl⟩
  · rw [flagsSub_eq]
    exact ⟨toNat_sub_word _ _, usubOverflow_word_iff _ _, ssubOverflow_word_iff _ _, flagsZN_z_iff _ _, rfl, rfl, rfl⟩

/-- Settles O38: the operand is the immediate, and each bit of A is that of the bitwise operation. -/
theorem bitwiseLogic : Obligations.BitwiseLogic := by
  intro lo hi rest s v result
  exact ⟨decode_of_operands [lo, hi] rest (opOfByte_opcodeByte .andImm) rfl rfl,
    ⟨_, finishAlu_eq .andImm _ _ s, rfl, fun _ _ => BitVec.getLsbD_and⟩,
    decode_of_operands [lo, hi] rest (opOfByte_opcodeByte .orImm) rfl rfl,
    ⟨_, finishAlu_eq .orImm _ _ s, rfl, fun _ _ => BitVec.getLsbD_or⟩,
    decode_of_operands [lo, hi] rest (opOfByte_opcodeByte .xorImm) rfl rfl,
    ⟨_, finishAlu_eq .xorImm _ _ s, rfl, fun _ _ => BitVec.getLsbD_xor⟩⟩

end Sys2Proof.Machine
end

section
/-! PROOFS. Register operations (42_register_ops.md): what a write to a named register leaves of the state, one bit set and cleared by a mask, the division law with the cost of DIV, and from these the statements on the eight instructions. -/

namespace Sys2Proof

/-! ## Instructions with a register operand, decoded -/

/-- A row of R1 decodes to its own instruction on the register named (30 R93). -/
theorem decode_r1 {o : Op} {mk : Reg → Instr} (hl : o.operandBytes = 1)
    (hd : ∀ bs, decodeOperands o bs = (r1Of bs).map mk) (r : Reg) (rest : List Byte) :
    decode (opcodeByte o :: (regId r ++ (0 : BitVec 4)) :: rest) = .ok (mk r, rest) :=
  decode_of_operands [_] rest (opOfByte_opcodeByte o) hl.symm (by rw [hd, r1Of_append, Option.map_some])

/-- A row of RB decodes to its own instruction on the register and the bit index named (30 R93). -/
theorem decode_rb {o : Op} {mk : Reg → Nat → Instr} (hl : o.operandBytes = 1)
    (hd : ∀ bs, decodeOperands o bs = (rbOf bs).map (fun p => mk p.1 p.2)) (r : Reg) (b : BitVec 4) (rest : List Byte) :
    decode (opcodeByte o :: (regId r ++ b) :: rest) = .ok (mk r b.toNat, rest) :=
  decode_of_operands [_] rest (opOfByte_opcodeByte o) hl.symm (by rw [hd, rbOf_append, Option.map_some])

theorem decode_mov (d src : Reg) (rest : List Byte) :
    decode (opcodeByte .mov :: (regId d ++ regId src) :: rest) = .ok (.mov d src, rest) :=
  decode_of_operands [_] rest (opOfByte_opcodeByte .mov) rfl (by rw [decodeOperands, r2Of_append, Option.map_some])

namespace Machine

/-! ## A write to a named register -/

theorem readReg_writeReg_same (r : Reg) (v : Word) (s : State) : readReg r (writeReg r v s) = v := by
  rw [readReg_writeReg, if_pos rfl]

theorem readReg_writeReg_other {q r : Reg} (h : q ≠ r) (v : Word) (s : State) :
    readReg q (writeReg r v s) = readReg q s := by
  rw [readReg_writeReg, if_neg h]

/-- A register write leaves everything but the registers (30 R96). -/
theorem writeReg_eq_withRegsOf (r : Reg) (v : Word) (s : State) :
    writeReg r v s = s.withRegsOf (writeReg r v s) := by
  cases r <;> rfl

/-- A register write and its cost leave everything else (42 R172, R177, R178). -/
theorem charge_writeReg_eq (n : Nat) (r : Reg) (v : Word) (s : State) : (writeReg r v s).charge n =
    { s.withRegsOf ((writeReg r v s).charge n) with cycles := s.cycles + BitVec.ofNat 64 n } :=
  congrArg (State.charge n) (writeReg_eq_withRegsOf r v s)

/-- INC and DEC leave the result in their register, its Z and N and the cost, and everything else (42 R173, R174). -/
theorem finishReg_spec (o : Op) (r : Reg) (v : Word) (s : State) : ∃ t, finishReg o r v s = .next t ∧
    readReg r t = v ∧ (∀ q, q ≠ r → readReg q t = readReg q s) ∧
    t = { s.withRegsOf t with
      flags := { s.flags with z := decide (v = 0), n := v.getLsbD 15 }
      cycles := s.cycles + BitVec.ofNat 64 (baseCycles o) } := by
  refine ⟨_, rfl, ?_, fun q hq => ?_, ?_⟩
  · rw [readReg_charge, readReg_setFlags, readReg_writeReg_same]
  · rw [readReg_charge, readReg_setFlags, readReg_writeReg_other hq]
  · exact congrArg (fun u : State => (u.setFlags (flagsZN v s.flags)).charge (baseCycles o)) (writeReg_eq_withRegsOf r v s)

/-! ## One bit of a word -/

theorem getLsbD_bitMask (b : Nat) {k : Nat} (hk : k < 16) : (bitMask b).getLsbD k = decide (k = b) := by
  change (BitVec.twoPow 16 b).getLsbD k = _
  rw [BitVec.getLsbD_twoPow, ← Bool.decide_and]
  exact decide_eq_decide.2 (by omega)

/-- Setting a bit by its mask (42 R177). -/
theorem getLsbD_or_bitMask (v : Word) (b : Nat) {k : Nat} (hk : k < 16) :
    (v ||| bitMask b).getLsbD k = if k = b then true else v.getLsbD k := by
  rw [BitVec.getLsbD_or, getLsbD_bitMask b hk]
  split_ifs with h <;> simp [h]

/-- Clearing a bit by its mask (42 R178). -/
theorem getLsbD_and_not_bitMask (v : Word) (b : Nat) {k : Nat} (hk : k < 16) :
    (v &&& ~~~(bitMask b)).getLsbD k = if k = b then false else v.getLsbD k := by
  rw [BitVec.getLsbD_and, BitVec.getLsbD_not, getLsbD_bitMask b hk]
  split_ifs with h <;> simp [h, hk]

/-! ## Multiplication and division -/

/-- MUL writes A, X, three flags and the cost (42 R170). -/
theorem execMul_eq (r : Reg) (s : State) : execMul r s =
    .next { s with
      a := productLow s.a (readReg r s)
      x := productHigh s.a (readReg r s)
      flags := { s.flags with
        z := decide (productLow s.a (readReg r s) = 0)
        n := (productLow s.a (readReg r s)).getLsbD 15
        c := productHigh s.a (readReg r s) != 0 }
      cycles := s.cycles + BitVec.ofNat 64 (baseCycles .mul) } := rfl

/-- DIV writes A, X, three flags and the cost (42 R171). -/
theorem execDiv_eq (r : Reg) (s : State) : execDiv r s =
    .next { s with
      a := quotient s.a (readReg r s)
      x := remainder s.a (readReg r s)
      flags := { s.flags with
        z := decide (quotient s.a (readReg r s) = 0)
        n := (quotient s.a (readReg r s)).getLsbD 15
        v := readReg r s == 0 }
      cycles := s.cycles + BitVec.ofNat 64 (divCycles s.a (readReg r s)) } := rfl

/-- The division law for a divisor that is not 0 (42 R171). -/
theorem quotient_mul_add_remainder {n d : Word} (h : d ≠ 0) :
    n.toNat = (quotient n d).toNat * d.toNat + (remainder n d).toNat ∧ (remainder n d).toNat < d.toNat := by
  rw [quotient, remainder, if_neg h, if_neg h, BitVec.toNat_udiv, BitVec.toNat_umod]
  exact ⟨(Nat.div_add_mod' _ _).symm, Nat.mod_lt _ (BitVec.toNat_pos_of_ne_zero h)⟩

/-- A divisor of 0 gives the stated results (92 D16). -/
theorem quotient_remainder_zero (n : Word) : quotient n 0 = 0xFFFF ∧ remainder n 0 = n :=
  ⟨if_pos rfl, if_pos rfl⟩

/-- The cost of DIV lies in 2..12 for every draw (70 R279, log 3). -/
theorem divCycles_bounds (n d : Word) : 2 ≤ divCycles n d ∧ divCycles n d ≤ 12 := by
  rw [divCycles]
  omega

/-! ## The statements on register operations -/

/-- Settles O39: A and X are the halves of the exact product, and the flags are those of A and X. -/
theorem multiplyIsExact : Obligations.MultiplyIsExact := by
  intro r rest s
  exact ⟨decode_r1 (o := .mul) rfl (fun _ => rfl) r rest, _, execMul_eq r s,
    product_halves _ _, decide_eq_true_iff, rfl, bne_iff_ne, rfl⟩

/-- Settles O40: the division law for one kind of divisor, the stated results for 0, and the cost within its range. -/
theorem divideQuotientAndRemainder : Obligations.DivideQuotientAndRemainder := by
  intro r rest s
  obtain ⟨hlo, hhi⟩ := divCycles_bounds s.a (readReg r s)
  refine ⟨decode_r1 (o := .div) rfl (fun _ => rfl) r rest, _, execDiv_eq r s, fun h => ?_, fun h => ?_,
    decide_eq_true_iff, rfl, ⟨_, hlo, hhi, rfl⟩, rfl⟩
  · obtain ⟨hlaw, hlt⟩ := quotient_mul_add_remainder (n := s.a) h
    exact ⟨hlaw, hlt, beq_false_of_ne h⟩
  · rw [h]
    obtain ⟨hq, hr⟩ := quotient_remainder_zero s.a
    exact ⟨hq, hr, rfl⟩

/-- Settles O41: MOV is one register write of the source's old value and a charge. -/
theorem moveCopiesOneRegister : Obligations.MoveCopiesOneRegister := by
  intro d src rest s
  refine ⟨decode_mov d src rest, _, rfl, fun q => ?_, charge_writeReg_eq _ _ _ s⟩
  rw [readReg_charge, readReg_writeReg]

/-- Settles O42: both write their register with its Z and N, and subtracting 1 is adding 0xFFFF modulo 2^16. -/
theorem incrementAndDecrement : Obligations.IncrementAndDecrement := by
  intro r rest s result
  have hresult : ∀ {i : Instr} {o : Op} {v : Word} {step : Nat}, exec i s = finishReg o r v s →
      v.toNat = ((readReg r s).toNat + step) % 65536 → result i o step := by
    intro i o v step hexec hv
    obtain ⟨t, ht, rfl, hother, heq⟩ := finishReg_spec o r v s
    exact ⟨t, hexec.trans ht, hv, hother, heq⟩
  exact ⟨decode_r1 (o := .inc) rfl (fun _ => rfl) r rest, hresult rfl (BitVec.toNat_add _ _),
    decode_r1 (o := .dec) rfl (fun _ => rfl) r rest, hresult rfl (by rw [BitVec.toNat_sub, Nat.add_comm]; rfl)⟩

/-- Settles O43: BIT writes Z alone, and the masked writes of BSET and BCLR change the one bit. -/
theorem bitTestSetClear : Obligations.BitTestSetClear := by
  intro r b rest s result
  have hresult : ∀ {i : Instr} {o : Op} {v : Word} {w : Bool},
      exec i s = .next ((writeReg r v s).charge (baseCycles o)) →
      (∀ k, k < 16 → v.getLsbD k = if k = b.toNat then w else (readReg r s).getLsbD k) → result i o w := by
    intro i o v w hexec hbits
    refine ⟨_, hexec, fun k hk => ?_, fun q hq => ?_, charge_writeReg_eq _ r v s⟩
    · rw [readReg_charge, readReg_writeReg_same, hbits k hk]
    · rw [readReg_charge, readReg_writeReg_other hq]
  exact ⟨decode_rb (o := .bit) rfl (fun _ => rfl) r b rest, rfl,
    decode_rb (o := .bset) rfl (fun _ => rfl) r b rest, hresult rfl fun _ => getLsbD_or_bitMask _ _,
    decode_rb (o := .bclr) rfl (fun _ => rfl) r b rest, hresult rfl fun _ => getLsbD_and_not_bitMask _ _⟩

end Machine
end Sys2Proof
end

section
/-! PROOFS. Control flow (43_control_flow.md): what JSR leaves of the state and of the stack, RTS in one equation, every branch in one equation, and from these the statements on jumps, calls, returns and branches. -/

namespace Sys2Proof

/-! ## Branches, decoded -/

/-- A row of REL8 decodes to its own instruction with the byte's signed value (30 R93, 92 D11). -/
theorem decode_rel8 {o : Op} {mk : Int → Instr} (hl : o.operandBytes = 1)
    (hd : ∀ bs, decodeOperands o bs = some (mk (rel8Of bs))) (b : Byte) (rest : List Byte) :
    decode (opcodeByte o :: b :: rest) = .ok (mk b.toInt, rest) :=
  decode_of_operands [b] rest (opOfByte_opcodeByte o) hl.symm (hd [b])

namespace Machine

/-! ## Calls and returns -/

/-- A 24-bit push leaves everything but SP and storage (20 R70). -/
theorem push24_eq (v : Addr) (s : State) : push24 v s = { s with sp := s.sp - 3, mem := (push24 v s).mem } := by
  ext : 1 <;> simp

/-- JSR goes to its target with the return address pushed, and leaves everything else (43 R191). -/
theorem execJsr_eq (addr : Addr) (s : State) : execJsr addr s =
    .next { s with
      sp := s.sp - 3
      pc := addr
      mem := (push24 s.pc s).mem
      cycles := s.cycles + BitVec.ofNat 64 (baseCycles .jsr) } :=
  congrArg (fun u : State => Host.Outcome.next ((u.setPc addr).charge (baseCycles .jsr))) (push24_eq s.pc s)

/-- RTS goes to the address in the three bytes above SP, and leaves everything but SP (43 R192). -/
theorem execRts_eq (s : State) : execRts s =
    .next { s with
      pc := addrOfBytes (storedByte s (stackAddr (s.sp + 3))) (storedByte s (stackAddr (s.sp + 2)))
        (storedByte s (stackAddr (s.sp + 1)))
      sp := s.sp + 3
      cycles := s.cycles + BitVec.ofNat 64 (baseCycles .rts) } := by
  rw [execRts, pop24_eq]
  rfl

/-! ## Branches -/

/-- A branch by the value of a byte, taken or not (43 R193, 92 D11, D34). -/
theorem branch_toInt (taken : Bool) (b : Byte) (s : State) : branch taken b.toInt s =
    .next (if taken then { s with pc := s.pc + b.signExtend 24, cycles := s.cycles + 3 }
      else { s with cycles := s.cycles + 2 }) := by
  cases taken <;> rfl

/-! ## The statements on control flow -/

/-- Settles O45: JSR's storage is that of the push, which puts the three bytes of PC below SP and leaves the others. -/
theorem callPushesTheReturnAddress : Obligations.CallPushesTheReturnAddress := by
  intro b1 b2 b3 rest s hm
  obtain ⟨hhigh, hmid, hlow⟩ := storedByte_push24 hm s.pc
  exact ⟨decode_of_operands [b1, b2, b3] rest (opOfByte_opcodeByte .jsr) rfl rfl, _, execJsr_eq _ s,
    hhigh, hmid, hlow, fun _ h0 h1 h2 => storedByte_push24_other s.pc h0 h1 h2, rfl⟩

/-- Settles O47: RTS reads the three bytes at the addresses the call stored them at, and they are those of PC. -/
theorem returnUndoesCall : Obligations.ReturnUndoesCall := by
  intro addr s hm
  refine ⟨_, execJsr_eq addr s, rfl, fun u (hsp : u.sp = s.sp - 3) hkept => ?_⟩
  obtain ⟨hhigh, hmid, hlow⟩ := storedByte_push24 hm s.pc
  have e1 : u.sp + 1 = s.sp - 2 := by bv_omega
  have e2 : u.sp + 2 = s.sp - 1 := by bv_omega
  have e3 : u.sp + 3 = s.sp := by bv_omega
  have hhigh' : storedByte u (stackAddr (u.sp + 3)) = byteOf 2 s.pc := by
    have hkept0 := hkept 0 (by decide)
    rw [BitVec.sub_zero] at hkept0
    rw [e3]
    exact hkept0.trans hhigh
  have hmid' : storedByte u (stackAddr (u.sp + 2)) = byteOf 1 s.pc := by
    rw [e2]
    exact (hkept 1 (by decide)).trans hmid
  have hlow' : storedByte u (stackAddr (u.sp + 1)) = byteOf 0 s.pc := by
    rw [e1]
    exact (hkept 2 (by decide)).trans hlow
  refine ⟨_, execRts_eq u, ?_, e3, fun q hq => ?_, rfl, rfl⟩
  · rw [hhigh', hmid', hlow', addrOfBytes_byteOf]
  · exact exec_readReg (i := .rts) (execRts_eq u) (by simpa [writtenRegs] using hq)

/-- Settles O44: JMP is one PC write and a charge. -/
theorem jumpGoesToItsAddress : Obligations.JumpGoesToItsAddress :=
  fun b1 b2 b3 rest _ => ⟨decode_of_operands [b1, b2, b3] rest (opOfByte_opcodeByte .jmp) rfl rfl, rfl⟩

/-- Settles O46: the pop reads the three bytes above SP, which is RTS in one equation. -/
theorem returnPopsPc : Obligations.ReturnPopsPc :=
  fun rest s => ⟨decode_of_operands [] rest (opOfByte_opcodeByte .rts) rfl rfl, execRts_eq s⟩

/-- Settles O48: each branch decodes from its row of REL8 and is `branch` on its own condition. -/
theorem branchesGoOnTheirCondition : Obligations.BranchesGoOnTheirCondition := by
  intro b rest s taken passed branches
  have hbranch : ∀ {o : Op} {mk : Int → Instr} (cond : Bool), o.operandBytes = 1 →
      (∀ bs, decodeOperands o bs = some (mk (rel8Of bs))) → exec (mk b.toInt) s = branch cond b.toInt s →
      branches (opcodeByte o) (mk b.toInt) cond :=
    fun cond hl hd hexec => ⟨decode_rel8 hl hd b rest, hexec.trans (branch_toInt cond b s)⟩
  exact ⟨hbranch (o := .bra) (mk := .bra) true rfl (fun _ => rfl) rfl,
    hbranch (o := .beq) (mk := .beq) s.flags.z rfl (fun _ => rfl) rfl,
    hbranch (o := .bne) (mk := .bne) (!s.flags.z) rfl (fun _ => rfl) rfl,
    hbranch (o := .bcs) (mk := .bcs) s.flags.c rfl (fun _ => rfl) rfl,
    hbranch (o := .bcc) (mk := .bcc) (!s.flags.c) rfl (fun _ => rfl) rfl,
    hbranch (o := .bmi) (mk := .bmi) s.flags.n rfl (fun _ => rfl) rfl,
    hbranch (o := .bpl) (mk := .bpl) (!s.flags.n) rfl (fun _ => rfl) rfl,
    hbranch (o := .bvs) (mk := .bvs) s.flags.v rfl (fun _ => rfl) rfl,
    hbranch (o := .bvc) (mk := .bvc) (!s.flags.v) rfl (fun _ => rfl) rfl⟩

end Machine
end Sys2Proof
end

section
/-! PROOFS. System instructions (44_system.md): RTI in one equation, what is eligible with I set and with I clear, and from these the statements on interrupts, waiting and halting. -/

namespace Sys2Proof.Machine

/-! ## RTI -/

/-- RTI goes to the address in the three bytes above the flags byte, takes all six flags from that byte, and leaves everything but SP (44 R213). -/
theorem execRti_eq (s : State) : execRti s =
    .next { s with
      flags := flagsOfByte (storedByte s (stackAddr (s.sp + 1)))
      pc := addrOfBytes (storedByte s (stackAddr (s.sp + 4))) (storedByte s (stackAddr (s.sp + 3)))
        (storedByte s (stackAddr (s.sp + 2)))
      sp := s.sp + 4
      cycles := s.cycles + BitVec.ofNat 64 rtiCycles } := by
  rw [execRti, returnFromInterrupt_eq]
  rfl

/-! ## The interrupt check by the I flag -/

theorem mem_priorityOrder (id : IrqSource) : id ∈ priorityOrder := by cases id <;> decide

/-- With I clear a source is eligible exactly when it is pending (60 R245). -/
theorem eligible_unmasked (p : IrqSet) (id : IrqSource) : eligible p false id = p.has id := by
  simp [eligible]

/-- An eligible source makes the check find one (60 R245). -/
theorem exists_nextEligible {p : IrqSet} {i : Bool} {id : IrqSource} (h : eligible p i id = true) :
    ∃ k, nextEligible p i = some k :=
  Option.isSome_iff_exists.mp (List.find?_isSome.mpr ⟨id, mem_priorityOrder id, h⟩)

/-- With I set the check finds a pending NMI and nothing else (60 R245). -/
theorem nextEligible_masked (p : IrqSet) : nextEligible p true = if p.nmi then some .nmi else none := by
  cases hn : p.nmi with
  | true =>
    have he : eligible p true .nmi = true := by simp [eligible, IrqSet.has, hn]
    obtain ⟨k, hk⟩ := exists_nextEligible he
    rw [hk, eq_nmi_of_nextEligible_masked hk]
    rfl
  | false =>
    refine List.find?_eq_none.mpr fun k _ => ?_
    cases k <;> simp [eligible, IrqSet.has, hn]

theorem takesInterrupt_of_nextEligible {s : State} {id : IrqSource} (hh : s.halted = false) (hw : s.waiting = false)
    (hop : (fetch s).opcode ≠ s.opcodes.byte .rti) (h : nextEligible s.pending s.flags.i = some id) :
    takesInterrupt s id :=
  ⟨hh, hw, interruptToTake_eq_some.mpr ⟨hop, h⟩⟩

/-- With I set a step takes NMI alone (60 R245). -/
theorem eq_nmi_of_takesInterrupt_masked {s : State} {id : IrqSource} (hi : s.flags.i = true)
    (h : takesInterrupt s id) : id = .nmi := by
  obtain ⟨-, -, htake⟩ := h
  obtain ⟨-, hnext⟩ := interruptToTake_eq_some.mp htake
  rw [hi] at hnext
  exact eq_nmi_of_nextEligible_masked hnext

/-! ## The statements on system instructions -/

/-- Settles O18: the stacked byte read bit by bit is the pulled flags byte of RTI in one equation. -/
theorem rtiPopsFlagsThenPc : Obligations.RtiPopsFlagsThenPc := execRti_eq

/-- Settles O49: the state after SEI has I set, so its check finds NMI alone; the state after CLI has I clear, so a pending source is eligible and the check finds one. -/
theorem setAndClearInterruptDisable : Obligations.SetAndClearInterruptDisable := by
  intro rest s
  refine ⟨decode_of_operands [] rest (opOfByte_opcodeByte .sei) rfl rfl, rfl,
    decode_of_operands [] rest (opOfByte_opcodeByte .cli) rfl rfl, rfl, fun t h => ?_, fun t id h hp => ?_⟩
  · obtain rfl := Host.Outcome.next.inj h
    exact ⟨nextEligible_masked s.pending, fun k => eq_nmi_of_takesInterrupt_masked rfl⟩
  · obtain rfl := Host.Outcome.next.inj h
    have he : eligible s.pending false id = true := (eligible_unmasked s.pending id).trans hp
    obtain ⟨k, hk⟩ := exists_nextEligible he
    exact ⟨he, fun hh hw hop => ⟨k, takesInterrupt_of_nextEligible hh hw hop hk⟩⟩

/-- Settles O50: NOP is a charge, WFI one write of `waiting`, COP one raise of SWI. -/
theorem nopWfiCop : Obligations.NopWfiCop :=
  fun rest _ => ⟨decode_of_operands [] rest (opOfByte_opcodeByte .nop) rfl rfl, rfl,
    decode_of_operands [] rest (opOfByte_opcodeByte .wfi) rfl rfl, rfl,
    decode_of_operands [] rest (opOfByte_opcodeByte .cop) rfl rfl, rfl⟩

/-- Settles O51: HLT is one write of `halted`, and a halted step does nothing, whatever is pending. -/
theorem haltStopsTheEngine : Obligations.HaltStopsTheEngine :=
  fun rest _ => ⟨decode_of_operands [] rest (opOfByte_opcodeByte .hlt) rfl rfl, _, rfl, rfl,
    fun _ => step_of_halted rfl⟩

end Sys2Proof.Machine
end

section
/-! PROOFS. Exceptions (60_exceptions.md) and the host's operations: what each host call leaves of the state, the interrupt check as a search by rank, the frame of an entry, what a step does to `pending` and to `cycles`, the bytes before a decode fault, the fetch of plain bytes, and from these the statements on steps, interrupts, decode faults and the host. -/

namespace Sys2Proof.Machine

/-! ## The host's operations -/

/-- The reset vector lies in BIOS, so that reading it changes nothing (70 R270). -/
theorem memRead24_vectorBase (s : State) : memRead24 vectorBase s =
    (addrOfBytes (storedByte s 0xFF0002) (storedByte s 0xFF0001) (storedByte s 0xFF0000), s) := by
  obtain ⟨h0, h1, h2⟩ := handlerAt_vectorBase s.handlers
  exact memRead24_plain h0 h1 h2

/-- The whole state after a reset (70 R270). -/
theorem hostReset_eq (regs : ResetRegs) (s : State) : hostReset regs s =
    { s with
      a := regs.a
      x := regs.x
      y := regs.y
      r := regs.r
      sp := 0xFFFF
      pc := addrOfBytes (storedByte s 0xFF0002) (storedByte s 0xFF0001) (storedByte s 0xFF0000)
      flags := Flags.clear
      halted := false
      waiting := false
      fault := none
      cycles := 0
      pending := IrqSet.empty } := by
  rw [hostReset, memRead24_vectorBase]
  rfl

@[simp] theorem bus_hostReset (regs : ResetRegs) (s : State) : (hostReset regs s).bus = s.bus := by
  rw [hostReset_eq]; rfl

/-- What a load that answers a next state did (20 R68). -/
theorem load_eq_next {g : Region} {bytes : List Byte} {s t : State} (h : load g bytes s = .next t) :
    bytes.length ≤ regionSize g ∧ t = s.setMem (memSetMany s.mem (regionRow g).first bytes) := by
  obtain hbig | hfits := Nat.lt_or_ge (regionSize g) bytes.length
  · cases (load_sizeExceeded hbig s).symm.trans h
  · cases (load_fits hfits s).symm.trans h
    exact ⟨hfits, rfl⟩

/-- A raise that answers a next state named a source (60 R243). -/
theorem raiseInterrupt_eq_next {id : RaiseId} {s t : State} (h : raiseInterrupt id s = .next t) :
    ∃ k, id = .source k ∧ t = intRaise k s := by
  cases id <;> cases h
  exact ⟨_, rfl, rfl⟩

/-- An image that fits its region lies at addresses of that region, so that a load keeps the Bus part's invariant. -/
theorem busInv_load {g : Region} {bytes : List Byte} {s t : State} (hs : s.bus.Inv) (h : load g bytes s = .next t) :
    t.bus.Inv := by
  obtain ⟨hfits, rfl⟩ := load_eq_next h
  refine { hs with memCanonical := memory_wf_memSetMany hs.memCanonical _ _, memMapped := fun c hc => ?_ }
  obtain hc | ⟨hlo, hhi⟩ := mem_memSetMany hc
  · exact hs.memMapped c hc
  · have hrow : (regionRow g).first ≤ (regionRow g).last := by cases g <;> decide
    rw [regionSize] at hfits
    exact List.any_eq_true.2 ⟨_, mem_regionTable.2 ⟨g, rfl⟩, (covers_iff _ _).2 ⟨hlo, by omega⟩⟩

/-- No step changes the registry or the opcode map (20 R57, 00 R8). -/
theorem step_config {s t : State} (h : step s = .next t) : t.handlers = s.handlers ∧ t.opcodes = s.opcodes := by
  obtain ⟨-, rfl⟩ | ⟨-, -, rfl⟩ | ⟨id, -, rfl⟩ | ⟨k, -, rfl⟩ | ⟨i, -, he⟩ := step_cases h
  · exact ⟨rfl, rfl⟩
  · have hbus := bus_waitStep s
    exact ⟨congrArg BusState.handlers hbus, congrArg BusState.opcodes hbus⟩
  · simp
  · simp
  · have hbus := exec_bus he
    have hhandlers := (congrArg BusState.handlers hbus).trans (busAccesses_handlers i _)
    have hopcodes := (congrArg BusState.opcodes hbus).trans (busAccesses_opcodes i _)
    exact ⟨hhandlers.trans (fetch_after_handlers s), hopcodes.trans (fetch_after_opcodes s)⟩

/-! ## What the host is refused -/

/-- Not empty and wholly inside the I/O region, in numbers (20 R50, R57, log 17). -/
theorem handlerRange_inside_iff (h : HandlerRange) : h.inside = true ↔
    h.first.toNat ≤ h.last.toNat ∧ 0x100000 ≤ h.first.toNat ∧ h.last.toNat ≤ 0x10FFFF := by
  rw [HandlerRange.inside, Bool.and_eq_true, Bool.and_eq_true, inIoRegion_iff, inIoRegion_iff, decide_eq_true_eq]
  omega

theorem handlerRange_apart_iff (h k : HandlerRange) : h.apart k = true ↔
    k.last.toNat < h.first.toNat ∨ h.last.toNat < k.first.toNat := by
  rw [HandlerRange.apart, Bool.or_eq_true, decide_eq_true_eq, decide_eq_true_eq, or_comm]

/-- The conditions under which a handler range joins the registry (20 R57). -/
def HandlerRange.admitted (h : HandlerRange) (hs : List HandlerRange) : Prop :=
  h.inside = true ∧ ∀ k ∈ hs, h.apart k = true

theorem registerIoHandler_of_admitted {h : HandlerRange} {s : State} (ha : h.admitted s.handlers) :
    registerIoHandler h s = .next (s.setHandlers (h :: s.handlers)) :=
  if_pos (by rwa [Bool.and_eq_true, List.all_eq_true])

theorem registerIoHandler_of_not_admitted {h : HandlerRange} {s : State} (ha : ¬ h.admitted s.handlers) :
    registerIoHandler h s = .refused .handlerRangeNotAdmitted :=
  if_neg (by rwa [Bool.and_eq_true, List.all_eq_true])

theorem registerIoHandler_refused_iff {h : HandlerRange} {s : State} :
    registerIoHandler h s = .refused .handlerRangeNotAdmitted ↔ ¬ h.admitted s.handlers := by
  refine ⟨fun hr ha => ?_, registerIoHandler_of_not_admitted⟩
  cases (registerIoHandler_of_admitted ha).symm.trans hr

/-- The admitted maps are the injective ones with the source's two bytes (00 R8, log 7). -/
theorem opcodeMap_ok_iff {m : OpcodeMap} : m.ok = true ↔
    (∀ o p, m.byte o = m.byte p → o = p) ∧ m.byte .ldaImm = 0x01 ∧ m.byte .hlt = 0xFF := by
  refine ⟨fun hm => ⟨fun _ _ => OpcodeMap.byte_inj hm, OpcodeMap.byte_ldaImm hm, OpcodeMap.byte_hlt hm⟩, ?_⟩
  rintro ⟨hinj, hlda, hhlt⟩
  have hnodup : (Op.all.map m.byte).Nodup := List.Nodup.map (fun o p => hinj o p) (by decide)
  simp [OpcodeMap.ok, hnodup, hlda, hhlt]

/-! ## The interrupt check as a search by rank -/

/-- In a list of rising rank a search finds the member of least rank that passes. -/
theorem find?_eq_some_iff_least {α : Type} {rank : α → Nat} {l : List α} (hl : l.Pairwise fun a b => rank a < rank b)
    {p : α → Bool} {a : α} :
    l.find? p = some a ↔ a ∈ l ∧ p a = true ∧ ∀ b ∈ l, p b = true → rank a ≤ rank b := by
  induction l with
  | nil => simp
  | cons c l ih =>
    obtain ⟨hc, hl⟩ := List.pairwise_cons.1 hl
    by_cases hp : p c = true
    · rw [List.find?_cons_of_pos hp, Option.some_inj]
      constructor
      · rintro rfl
        refine ⟨List.mem_cons_self, hp, List.forall_mem_cons.2 ⟨fun _ => Nat.le_refl _, fun b hb _ => ?_⟩⟩
        exact Nat.le_of_lt (hc b hb)
      · rintro ⟨hmem, -, hleast⟩
        obtain rfl | hmem := List.mem_cons.1 hmem
        · rfl
        · exact absurd (hleast c List.mem_cons_self hp) (Nat.not_le_of_lt (hc a hmem))
    · rw [List.find?_cons_of_neg hp, ih hl, List.forall_mem_cons, List.mem_cons]
      constructor
      · exact fun ⟨hmem, ha, hleast⟩ => ⟨.inr hmem, ha, fun h => absurd h hp, hleast⟩
      · rintro ⟨rfl | hmem, ha, -, hleast⟩
        · exact absurd ha hp
        · exact ⟨hmem, ha, hleast⟩

theorem eligible_iff {p : IrqSet} {i : Bool} {id : IrqSource} :
    eligible p i id = true ↔ p.has id = true ∧ (id = .nmi ∨ i = false) := by
  simp [eligible]

/-! ## The frame of an entry -/

/-- Where entry puts its four bytes: the return address high byte first, then the flags byte (60 R247, 92 D7). -/
theorem storedByte_dispatch_frame {s : State} (hm : s.mem.wf = true) (id : IrqSource) (ret : Addr) :
    storedByte (dispatch id ret s) (stackAddr s.sp) = byteOf 2 ret ∧
    storedByte (dispatch id ret s) (stackAddr (s.sp - 1)) = byteOf 1 ret ∧
    storedByte (dispatch id ret s) (stackAddr (s.sp - 2)) = byteOf 0 ret ∧
    storedByte (dispatch id ret s) (stackAddr (s.sp - 3)) = flagsByte s.flags := by
  obtain ⟨hhigh, hmid, hlow⟩ := storedByte_push24 (s := acknowledge id s) hm ret
  exact ⟨(storedByte_dispatch_other id ret (stackAddr_ne_sub _ (by decide))).trans hhigh,
    (storedByte_dispatch_other id ret (stackAddr_sub_ne _ (by decide))).trans hmid,
    (storedByte_dispatch_other id ret (stackAddr_sub_ne _ (by decide))).trans hlow, storedByte_dispatch_flags hm id ret⟩

/-- Entry leaves every byte but its four. -/
theorem storedByte_dispatch_outside {s : State} {b : Addr} (id : IrqSource) (ret : Addr) (h0 : b ≠ stackAddr s.sp)
    (h1 : b ≠ stackAddr (s.sp - 1)) (h2 : b ≠ stackAddr (s.sp - 2)) (h3 : b ≠ stackAddr (s.sp - 3)) :
    storedByte (dispatch id ret s) b = storedByte s b := by
  rw [storedByte_dispatch_other id ret h3, storedByte_push24_other (s := acknowledge id s) ret h0 h1 h2]
  exact storedByte_congr (acknowledge_mem id s) b

/-- Everything entry leaves of the state (60 R247). -/
theorem dispatch_eq_update (id : IrqSource) (ret : Addr) (s : State) : dispatch id ret s =
    { s with
      sp := s.sp - 4
      flags := flagsSetI true s.flags
      pending := s.pending.put false id
      pc := addrOfBytes (storedByte s (vectorAddr id + 2)) (storedByte s (vectorAddr id + 1))
        (storedByte s (vectorAddr id))
      mem := (dispatch id ret s).mem } := by
  ext : 1 <;> simp

/-! ## What a step does to `pending` and to `cycles` -/

/-- A charge written as an update of the cycles another state began with. -/
theorem charge_eq_of_cycles {s u : State} (h : u.cycles = s.cycles) (n : Nat) :
    u.charge n = { u with cycles := s.cycles + BitVec.ofNat 64 n } := by
  rw [State.charge, h]

/-- A dispatch removes the source it dispatches (60 R247). -/
theorem pending_of_takesInterrupt {s t : State} {id : IrqSource} (h : takesInterrupt s id) (ht : step s = .next t) :
    t.pending = s.pending.put false id := by
  obtain rfl := Host.Outcome.next.inj ((step_of_takesInterrupt h).1.symm.trans ht)
  rw [State.charge_pending, dispatch_pending, fetch_after_pending]

/-- COP raises SWI (44 R215, log 32). -/
theorem pending_of_executes_cop {s t : State} (h : executes s .cop) (ht : step s = .next t) :
    t.pending = s.pending.put true .swi := by
  obtain rfl := Host.Outcome.next.inj ((step_of_executes h).1.symm.trans ht)
  rw [State.charge_pending, intRaise_pending, fetch_after_pending]

/-- A step that neither dispatches nor executes COP leaves `pending`. -/
theorem pending_of_step_other {s t : State} (hid : ∀ id, ¬ takesInterrupt s id) (hcop : ¬ executes s .cop)
    (ht : step s = .next t) : t.pending = s.pending := by
  obtain ⟨-, rfl⟩ | ⟨-, -, rfl⟩ | ⟨id, h, -⟩ | ⟨k, -, rfl⟩ | ⟨i, hi, he⟩ := step_cases ht
  · rfl
  · obtain ⟨-, e⟩ | ⟨-, -, e⟩ := waitStep_cases s <;> rw [e] <;> rfl
  · exact absurd h (hid id)
  · rw [State.charge_pending, raiseDecodeFault_pending, fetch_after_pending]
  · obtain ⟨-, -, hpending, -⟩ := exec_control he
    exact (hpending fun hc => hcop (hc ▸ hi)).trans (fetch_after_pending s)

/-- Execution adds the cost of its instruction, instruction by instruction (70 R277). -/
theorem exec_cycles {i : Instr} {s t : State} (h : exec i s = .next t) :
    t.cycles = s.cycles + BitVec.ofNat 64 (instrCycles i s) := by
  cases i with
  | bra | beq | bne | bcs | bcc | bmi | bpl | bvs | bvc => rw [eq_of_branch h]; rfl
  | _ =>
    obtain rfl := Host.Outcome.next.inj h
    simp [pop24_eq, instrCycles, Instr.op]

/-- The number a step returns is the number it adds (60 R233). -/
theorem step_cycles {s t : State} (h : step s = .next t) : t.cycles = s.cycles + BitVec.ofNat 64 (stepCycles s) := by
  obtain ⟨hh, rfl⟩ | ⟨hh, hw, rfl⟩ | ⟨id, hid, rfl⟩ | ⟨k, hk, rfl⟩ | ⟨i, hi, he⟩ := step_cases h
  · rw [(step_of_halted hh).2]
    exact (BitVec.add_zero _).symm
  · rw [(step_of_waiting hh hw).2]
    obtain ⟨-, e⟩ | ⟨-, -, e⟩ := waitStep_cases s <;> rw [e] <;> rfl
  · rw [(step_of_takesInterrupt hid).2, State.charge_cycles, dispatch_cycles, fetch_after_cycles]
  · rw [(step_of_raisesFault hk).2, State.charge_cycles, raiseDecodeFault_cycles, fetch_after_cycles]
  · rw [(step_of_executes hi).2, exec_cycles he, fetch_after_cycles]

theorem put_put (p : IrqSet) (b : Bool) (id : IrqSource) : (p.put b id).put b id = p.put b id := by
  cases id <;> rfl

theorem has_empty (id : IrqSource) : IrqSet.empty.has id = false := by cases id <;> rfl

/-! ## Waiting -/

theorem waitStep_of_none {s : State} (h : nextEligible s.pending s.flags.i = none) : waitStep s = s.charge 1 := by
  rw [waitStep, h]
  rfl

theorem waitStep_of_some {s : State} {id : IrqSource} (h : nextEligible s.pending s.flags.i = some id) :
    waitStep s = (s.setWaiting false).charge 1 := by
  rw [waitStep, h]
  rfl

/-! ## The decode fault -/

/-- A row that refuses its operand bytes has one of them (30 R98). -/
theorem operandBytes_of_refused {o : Op} {bs : List Byte} (h : decodeOperands o bs = none) : o.operandBytes = 1 := by
  cases o with
  | mul | div | mov | inc | dec | bit | bset | bclr => rfl
  | _ => cases h

/-- The bytes fetched before a decode fault: the opcode byte, and the operand byte when it is that which is refused (60 R240, 92 D22). -/
def faultBytes : DecodeFaultKind → Addr
  | .unknownOpcode => 1
  | .reservedOperand => 2

theorem fetch_after_pc_of_error {s : State} {k : DecodeFaultKind} (h : (fetch s).instr = .error k) :
    (fetch s).after.pc = s.pc + faultBytes k := by
  obtain ⟨-, e⟩ | ⟨o, -, -, hafter, ⟨hinstr, hrefused⟩ | ⟨i, hinstr, -⟩⟩ := fetch_cases s
  · rw [e] at h ⊢
    cases h
    rw [fetchByte_snd, State.setPc_pc]
    rfl
  · cases hinstr.symm.trans h
    rw [hafter, fetchBytes_operandBytes, State.setPc_pc, length_format, operandBytes_of_refused hrefused]
    rfl
  · cases hinstr.symm.trans h

/-! ## The fetch of plain bytes -/

/-- A run of Bus reads of plain bytes answers them and changes nothing. -/
theorem busReadRun_plain {k : Nat} {a : Addr} {s : State}
    (h : ∀ j, j < k → handlerAt s.handlers (a + BitVec.ofNat 24 j) = none) :
    busReadRun k a s = ((List.range k).map fun j => storedByte s (a + BitVec.ofNat 24 j), s) := by
  induction k generalizing a with
  | zero => rfl
  | succ k ih =>
    have h0 : handlerAt s.handlers a = none := by simpa using h 0 (Nat.succ_pos k)
    have hrest : ∀ j, j < k → handlerAt s.handlers (a + 1 + BitVec.ofNat 24 j) = none := fun j hj => by
      rw [add_one_add_ofNat]
      exact h (j + 1) (Nat.succ_lt_succ hj)
    simp only [busReadRun, busRead_plain h0, ih hrest, List.range_succ_eq_map, List.map_cons, List.map_map,
      add_one_add_ofNat, BitVec.add_zero]
    rfl

/-- Plain bytes that decode are what a fetch finds, and PC alone moves (30 R92). -/
theorem fetch_of_decodeBy {s : State} {i : Instr} {n : Nat}
    (hd : decodeBy s.opcodes ((List.range n).map fun k => storedByte s (s.pc + BitVec.ofNat 24 k)) = .ok (i, []))
    (hplain : ∀ k, k < n → handlerAt s.handlers (s.pc + BitVec.ofNat 24 k) = none) :
    fetch s = { opcode := s.opcodes.byte i.op, instr := .ok i, after := s.setPc (s.pc + BitVec.ofNat 24 n) } := by
  obtain ⟨b, o, ops, hbytes, ho, hl, hops⟩ := decodeBy_eq_ok hd
  rw [List.append_nil] at hbytes
  have hn : n = o.operandBytes + 1 := by simpa [hl] using congrArg List.length hbytes
  have hrun := busReadRun_plain hplain
  rw [hbytes, hn] at hrun
  simp only [busReadRun, Prod.mk.injEq, List.cons.injEq] at hrun
  obtain ⟨⟨hb, hrest⟩, hafter⟩ := hrun
  have hopcode : (fetchByte s).1 = b := hb
  have hfetched : fetchBytes o.operandBytes (fetchByte s).2 = (ops, s.setPc (s.pc + BitVec.ofNat 24 n)) := by
    rw [fetchBytes_operandBytes, hrest, hafter, length_format, hn]
  rw [fetch_instr (hopcode ▸ ho) (by rw [hfetched]; exact hops), hopcode, hfetched, op_of_decodeOperands hops,
    byte_of_opOfByte ho]

/-! ## The statements on exceptions and the host -/

/-- Settles O56: a reset leaves the Bus part and an Engine that runs, a load writes at addresses of its region, and a raise touches `pending` alone. -/
theorem hostActionsKeepInvariant : Obligations.HostActionsKeepInvariant := by
  intro act s t hs h
  obtain ⟨hbus, hfault, hboth⟩ := inv_iff.1 hs
  cases act with
  | step => exact ⟨stepKeepsInvariant s t hs h, step_config h⟩
  | reset regs =>
    obtain rfl := Host.Outcome.next.inj h
    have hkept := bus_hostReset regs s
    refine ⟨inv_iff.2 ⟨hkept ▸ hbus, ?_, fun _ => hostReset_waiting regs s⟩,
      congrArg BusState.handlers hkept, congrArg BusState.opcodes hkept⟩
    rw [hostReset_eq]
    exact fun hne => absurd rfl hne
  | load g bytes =>
    have hloaded := busInv_load hbus h
    obtain ⟨-, rfl⟩ := load_eq_next h
    exact ⟨inv_iff.2 ⟨hloaded, hfault, hboth⟩, rfl, rfl⟩
  | raise id =>
    obtain ⟨k, -, rfl⟩ := raiseInterrupt_eq_next h
    exact ⟨inv_iff.2 ⟨hbus, hfault, hboth⟩, rfl, rfl⟩

/-- Settles O8: each clause is the one event its conditions leave, and in the two scenarios that event is the dispatch of the first eligible source. -/
theorem stepResolvesEventsInOrder : Obligations.StepResolvesEventsInOrder := by
  refine ⟨fun s hh => (step_of_halted hh).1, fun s hh hw hnone => ?_, fun s id hh hw hid => ?_,
    fun s id hh hw hop hid => ?_, fun s k hh hw hnone hk => ?_, fun s i hh hw hnone hi => ?_,
    fun s t k hh hw hop hmask hnmi hk hpend ht => ?_, fun s t hh hw hop hi hpend ht => ?_⟩
  · rw [(step_of_waiting hh hw).1, waitStep_of_none hnone]
    rfl
  · rw [(step_of_waiting hh hw).1, waitStep_of_some hid]
    rfl
  · rw [(step_of_takesInterrupt (takesInterrupt_of_nextEligible hh hw hop hid)).1,
      charge_eq_of_cycles ((dispatch_cycles id s.pc _).trans (fetch_after_cycles s))]
    rfl
  · rw [(step_of_raisesFault ⟨hh, hw, interruptToTake_eq_none.2 hnone, hk⟩).1,
      charge_eq_of_cycles ((raiseDecodeFault_cycles k _ s.pc _).trans (fetch_after_cycles s))]
    rfl
  · exact (step_of_executes ⟨hh, hw, interruptToTake_eq_none.2 hnone, hi⟩).1
  · have hnext : nextEligible s.pending s.flags.i = some .nmi := by rw [hmask, nextEligible_masked, if_pos hnmi]
    rw [pending_of_takesInterrupt (takesInterrupt_of_nextEligible hh hw hop hnext) ht, has_put, if_neg hk]
    exact ⟨rfl, hpend⟩
  · have hnext : nextEligible s.pending s.flags.i = some .timer0 := by rw [hi, hpend]; rfl
    rw [pending_of_takesInterrupt (takesInterrupt_of_nextEligible hh hw hop hnext) ht, hpend]
    rfl

/-- Settles O12: the cost of each event is what it adds; a dispatch only removes a source, COP adds SWI, and every other step leaves `pending`. -/
theorem stepAddsTheCyclesItReturns : Obligations.StepAddsTheCyclesItReturns := by
  refine fun s t h => ⟨step_cycles h, fun id hid => ?_⟩
  by_cases htake : ∃ k, takesInterrupt s k
  · obtain ⟨k, hk⟩ := htake
    rw [pending_of_takesInterrupt hk h, has_put] at hid
    split at hid
    · cases hid
    · exact .inl hid
  · by_cases hcop : executes s .cop
    · rw [pending_of_executes_cop hcop h, has_put] at hid
      split at hid
      next heq => exact .inr ⟨heq, hcop⟩
      next => exact .inl hid
    · rw [pending_of_step_other (not_exists.1 htake) hcop h] at hid
      exact .inl hid

/-- Settles O14: the fault writes two fields of the state the fetch left, and the fetch moved PC past its bytes. -/
theorem decodeFaultHaltsWithItsRecord : Obligations.DecodeFaultHaltsWithItsRecord := by
  intro s k h
  have hstep := (step_of_raisesFault h).1
  obtain ⟨-, hw, -, hinstr⟩ := h
  refine ⟨_, hstep, ?_, ?_, ?_, fun q => ?_, ?_, ?_, ?_, ?_, ?_, ?_, ?_, ?_, ?_⟩
  · simp
  · simp [fetch_opcode]
  · rw [State.charge_pc, raiseDecodeFault_pc, fetch_after_pc_of_error hinstr]
    cases k <;> rfl
  · apply readReg_congr <;> simp
  all_goals simp [hw]

/-- Settles O15: the priority order rises in rank, so that the first eligible source in it is the one of least rank. -/
theorem nextEligibleIsTheHighestPending : Obligations.NextEligibleIsTheHighestPending := by
  refine ⟨fun p i => ?_, fun s id hh hw hop =>
    ⟨fun ⟨_, _, htake⟩ => (interruptToTake_eq_some.1 htake).2, takesInterrupt_of_nextEligible hh hw hop⟩⟩
  intro rank ready
  have hrank : priorityOrder.Pairwise fun j k => rank j < rank k := by simp [priorityOrder, rank]
  constructor
  · simp [nextEligible, find?_eq_some_iff_least hrank, mem_priorityOrder, eligible_iff, ready]
  · simp [nextEligible, List.find?_eq_none, mem_priorityOrder, eligible_iff, ready]

/-- Settles O16: raise and acknowledge put one bit, and of a step's events only the dispatch and COP reach `pending`. -/
theorem pendingChangesAsStated : Obligations.PendingChangesAsStated := by
  refine ⟨fun id k s => ?_, fun id s => congrArg (fun p => s.setPending p) (put_put s.pending true id), fun id k s => ?_,
    fun s t id h ht => pending_of_takesInterrupt h ht, fun s t h ht => pending_of_executes_cop h ht,
    fun s t hid hcop ht => pending_of_step_other hid hcop ht, fun g bytes s t h => ?_, fun id s t h => ?_,
    fun regs s id => ?_, has_empty⟩
  · rw [intRaise_pending, has_put]
    split <;> simp [*]
  · rw [acknowledge_pending, has_put]
    split <;> simp [*]
  · obtain ⟨-, rfl⟩ := load_eq_next h
    rfl
  · obtain rfl := Host.Outcome.next.inj h
    rfl
  · rw [hostReset_eq]
    exact has_empty id

/-- Settles O17: the four pushes lie below SP as it was, and the slot of each source is its row of 60 R242. -/
theorem interruptEntryPushesTheFrame : Obligations.InterruptEntryPushesTheFrame := by
  intro id ret s hm slot
  have hslot : slot = vectorAddr id := by cases id <;> rfl
  obtain ⟨hhigh, hmid, hlow, hflags⟩ := storedByte_dispatch_frame hm id ret
  rw [hslot]
  exact ⟨_, rfl, hhigh, hmid, hlow, hflags, fun _ => storedByte_dispatch_outside id ret, dispatch_eq_update id ret s⟩

/-- Settles O19: RTI reads the four bytes at the addresses entry stored them at, which are those of the return address and the flags. -/
theorem rtiUndoesInterruptEntry : Obligations.RtiUndoesInterruptEntry := by
  intro id ret s u hm hsp hkept
  rw [dispatch_sp] at hsp
  obtain ⟨hhigh, hmid, hlow, hflags⟩ := storedByte_dispatch_frame hm id ret
  have e1 : u.sp + 1 = s.sp - 3 := by bv_omega
  have e2 : u.sp + 2 = s.sp - 2 := by bv_omega
  have e3 : u.sp + 3 = s.sp - 1 := by bv_omega
  have e4 : u.sp + 4 = s.sp := by bv_omega
  have hhigh' : storedByte u (stackAddr (u.sp + 4)) = byteOf 2 ret := by
    have hkept0 := hkept 0 (by decide)
    rw [BitVec.sub_zero] at hkept0
    rw [e4]
    exact hkept0.trans hhigh
  have hmid' : storedByte u (stackAddr (u.sp + 3)) = byteOf 1 ret := by
    rw [e3]
    exact (hkept 1 (by decide)).trans hmid
  have hlow' : storedByte u (stackAddr (u.sp + 2)) = byteOf 0 ret := by
    rw [e2]
    exact (hkept 2 (by decide)).trans hlow
  have hflags' : storedByte u (stackAddr (u.sp + 1)) = flagsByte s.flags := by
    rw [e1]
    exact (hkept 3 (by decide)).trans hflags
  refine ⟨_, execRti_eq u, ?_, ?_, e4, fun q hq => ?_, rfl, rfl⟩
  · rw [hhigh', hmid', hlow', addrOfBytes_byteOf]
  · rw [hflags', flagsOfByte_flagsByte]
  · exact exec_readReg (i := .rti) (execRti_eq u) (by simpa [writtenRegs] using hq)

/-- Settles O60: each refusal's condition is the complement of what is admitted, in numbers. -/
theorem hostRefusesWhatIsNotAdmitted : Obligations.HostRefusesWhatIsNotAdmitted := by
  refine ⟨fun _ _ => rfl, fun _ => ⟨rfl, rfl, rfl⟩, fun h s => ?_, fun h s hne hlo hhi hapart => ?_, fun m s => ?_⟩
  · rw [registerIoHandler_refused_iff, HandlerRange.admitted, handlerRange_inside_iff]
    simp only [handlerRange_apart_iff, not_and_or, not_forall, not_or, Nat.not_le, Nat.not_lt, exists_prop, or_assoc]
  · exact registerIoHandler_of_admitted ⟨(handlerRange_inside_iff h).2 ⟨hne, hlo, hhi⟩,
      fun k hk => (handlerRange_apart_iff h k).2 (hapart k hk).symm⟩
  · intro admitted
    exact ⟨fun ha => if_pos (opcodeMap_ok_iff.2 ha), fun ha => if_neg (mt opcodeMap_ok_iff.1 ha)⟩

/-- Settles O6: the bytes are what the fetch finds, and RTI's opcode byte passes the interrupt check. -/
theorem stepRunsTheDecodedInstruction : Obligations.StepRunsTheDecodedInstruction := by
  intro s i n hh hw hcheck hd hplain
  have hfetch := fetch_of_decodeBy hd hplain
  have hnone : interruptToTake (fetch s) = none := by
    refine interruptToTake_eq_none.2 (hcheck.imp (fun hrti => ?_) id)
    rw [hfetch, hrti]
    rfl
  rw [(step_of_executes ⟨hh, hw, hnone, by rw [hfetch]⟩).1, hfetch]
  rfl

end Sys2Proof.Machine
end

section
/-! PROOFS. Reset and hazards (70_reset_and_hazards.md): the state under construction, the zero fill of a machine nothing was loaded into, the cost of each instruction as a step returns it, and from these the statements on reset, interrupt latency and cycle costs. -/

namespace Sys2Proof.Machine

/-! ## The state under construction -/

/-- A registration that answers a next state was admitted and adds its range alone (20 R57). -/
theorem registerIoHandler_eq_next {h : HandlerRange} {s t : State} (hr : registerIoHandler h s = .next t) :
    h.admitted s.handlers ∧ t = s.setHandlers (h :: s.handlers) := by
  by_cases ha : h.admitted s.handlers
  · exact ⟨ha, (Host.Outcome.next.inj ((registerIoHandler_of_admitted ha).symm.trans hr)).symm⟩
  · cases (registerIoHandler_of_not_admitted ha).symm.trans hr

/-- A choice of OPCODE_MAP that answers a next state was of an admitted map (00 R8, log 7). -/
theorem setOpcodeMap_eq_next {m : OpcodeMap} {s t : State} (h : setOpcodeMap m s = .next t) :
    m.ok = true ∧ t = s.setOpcodes m := by
  cases hm : m.ok with
  | true =>
    have haccepted : setOpcodeMap m s = .next (s.setOpcodes m) := if_pos hm
    exact ⟨rfl, (Host.Outcome.next.inj (haccepted.symm.trans h)).symm⟩
  | false =>
    have hrefused : setOpcodeMap m s = .refused .opcodeMapNotAdmitted := if_neg (by simp [hm])
    cases hrefused.symm.trans h

/-- The fixed reset state has nothing stored, registered or recorded, and runs. -/
theorem inv_reset : State.reset.Inv where
  memCanonical := rfl
  memMapped := by simp [State.reset]
  handlersAdmitted := rfl
  opcodesAdmitted := defaultMap_ok
  faultHalts := fun hne => absurd rfl hne
  notBothStopped := fun _ => rfl
  eventsInRanges := by simp [State.reset]
  drawsCounted := rfl

/-- A new range may join the registry as long as no access was recorded: the record is empty before the first step (20 R57, 60 R255). -/
theorem inv_registerIoHandler {h : HandlerRange} {s t : State} (hs : s.Inv) (hnone : s.ioEvents = [])
    (hr : registerIoHandler h s = .next t) : t.Inv := by
  obtain ⟨⟨hinside, hapart⟩, rfl⟩ := registerIoHandler_eq_next hr
  exact { hs with
    handlersAdmitted := handlersOk_cons.2 ⟨hinside, hapart, hs.handlersAdmitted⟩
    eventsInRanges := by simp [hnone] }

theorem inv_setOpcodeMap {m : OpcodeMap} {s t : State} (hs : s.Inv) (h : setOpcodeMap m s = .next t) : t.Inv := by
  obtain ⟨hm, rfl⟩ := setOpcodeMap_eq_next h
  exact { hs with opcodesAdmitted := hm }

/-! ## The zero fill -/

/-- With nothing loaded every address reads 0x00, in a region and in a gap (10 R39, 20 R52, 70 R272). -/
theorem storedByte_of_mem_nil {s : State} (h : s.mem = []) (a : Addr) : storedByte s a = 0x00 := by
  by_cases hgap : regionAt a = none
  · exact storedByte_of_regionAt_none hgap s
  · rw [storedByte_of_regionAt hgap, h]
    rfl

/-! ## Cycle costs -/

/-- The cost of an instruction depends on the flags and the registers alone (70 R277 to R279). -/
theorem instrCycles_congr {s t : State} (hflags : s.flags = t.flags) (hreg : ∀ q, readReg q s = readReg q t)
    (i : Instr) : instrCycles i s = instrCycles i t := by
  cases i with
  | beq | bne | bcs | bcc | bmi | bpl | bvs | bvc => rw [instrCycles, hflags, instrCycles]
  | div r =>
    have ha : s.a = t.a := hreg .a
    rw [instrCycles, ha, hreg r, instrCycles]
  | _ => rfl

/-- A step that executes an instruction returns its cost in the state the step began with: the fetch changes no flag and no register. -/
theorem stepCycles_of_executes {s : State} {i : Instr} (h : executes s i) : stepCycles s = instrCycles i s := by
  have hregs : ∀ q, readReg q (fetch s).after = readReg q s := fun q => by apply readReg_congr <;> simp
  exact (step_of_executes h).2.trans (instrCycles_congr (fetch_after_flags s) hregs i)

/-- A branch taken on a clear flag: the two costs change places (43 R193). -/
theorem branchCycles_not (b : Bool) : branchCycles (!b) = if b then 2 else 3 := by cases b <;> rfl

theorem branchCycles_pos (b : Bool) : 1 ≤ branchCycles b := by cases b <;> decide

/-- Every instruction costs at least one cycle (70 R278). -/
theorem instrCycles_pos (i : Instr) (s : State) : 1 ≤ instrCycles i s := by
  cases i with
  | bra | beq | bne | bcs | bcc | bmi | bpl | bvs | bvc => exact branchCycles_pos _
  | div r =>
    obtain ⟨hlo, -⟩ := divCycles_bounds s.a (readReg r s)
    exact Nat.le_of_succ_le hlo
  | _ => exact Nat.succ_pos _

/-! ## The statements on reset and hazards -/

/-- Settles O13: a step that executes returns its instruction's cost, and every other event has a cost of its own. -/
theorem stepCostsAsDocumented : Obligations.StepCostsAsDocumented := by
  refine ⟨fun s hh => (step_of_halted hh).2, fun s hh hw => (step_of_waiting hh hw).2,
    fun s id h => (step_of_takesInterrupt h).2, fun s k h => (step_of_raisesFault h).2,
    fun _ => stepCycles_of_executes, fun _ => stepCycles_of_executes, fun _ _ => stepCycles_of_executes,
    fun _ _ => stepCycles_of_executes, fun _ _ h => (stepCycles_of_executes h).trans (branchCycles_not _),
    fun _ _ => stepCycles_of_executes, fun _ _ h => (stepCycles_of_executes h).trans (branchCycles_not _),
    fun _ _ => stepCycles_of_executes, fun _ _ h => (stepCycles_of_executes h).trans (branchCycles_not _),
    fun _ _ => stepCycles_of_executes, fun _ _ h => (stepCycles_of_executes h).trans (branchCycles_not _),
    fun s r h => ?_, fun s i h => ?_⟩
  · rw [stepCycles_of_executes h]
    exact divCycles_bounds s.a (readReg r s)
  · rw [stepCycles_of_executes h]
    exact instrCycles_pos i s

/-- Settles O20: the wake step changes neither `pending` nor I, so that the next step begins with the same eligible source and dispatches it. -/
theorem waitingEngineWakesThenDispatches : Obligations.WaitingEngineWakesThenDispatches := by
  obtain ⟨-, -, hwake, hdispatch, -⟩ := stepResolvesEventsInOrder
  intro s id hh hid
  refine ⟨fun hw => ⟨_, hwake s id hh hw hid, rfl, fun hop => ?_⟩, fun hw hop => hdispatch s id hh hw hop hid⟩
  have hcycles : s.cycles + 1 + 5 = s.cycles + 6 := BitVec.add_assoc ..
  rw [← hcycles]
  exact hdispatch _ id hh rfl hop hid

/-- Settles O58: a reset reads the vector and keeps the Bus part; with nothing loaded the vector is 0x000000. -/
theorem resetSetsEveryField : Obligations.ResetSetsEveryField := by
  refine ⟨hostReset_eq, fun s hmem hhandlers hopcodes hdraws hevents => ?_⟩
  simp only [hostReset_eq, storedByte_of_mem_nil hmem, hmem, hhandlers, hopcodes, hdraws, hevents]
  rfl

/-- Settles O57: the reset state, an admitted registration and an admitted map, each by its own lemma. -/
theorem resetHasInvariant : Obligations.ResetHasInvariant :=
  ⟨inv_reset, fun _ _ _ => inv_registerIoHandler, fun _ _ _ => inv_setOpcodeMap⟩

end Sys2Proof.Machine
end
